-- ==== Sys2Proof/Word.lean ====
section
/-! DEFINITION. The block's value types: bytes, 32-bit words, 64-bit words, the eight-word hash state, the eight
working variables, the 64-byte block, and the tag of a Context (00_scope.md R7, R9; 10_state.md R31, R32, R33, R37).
Arithmetic on words is addition modulo 2^32 (R10, R102), which is what `+` of `BitVec 32` is. -/

namespace Sys2Proof

/-- A byte, {0 .. 255} (R9). -/
abbrev Byte := BitVec 8

/-- A 32-bit word, {0 .. 2^32-1} (R9, R10). -/
abbrev Word := BitVec 32

/-- A 64-bit word, {0 .. 2^64-1} (R9): the operand registers and the bit-length counter. -/
abbrev DWord := BitVec 64

/-- One 64-byte (512-bit) unit of input to the compression step (R7, glossary). -/
abbrev Block := Vector Byte 64

/-- The HashState: eight 32-bit words H0..H7 (R32). -/
structure HashState where
  h0 : Word
  h1 : Word
  h2 : Word
  h3 : Word
  h4 : Word
  h5 : Word
  h6 : Word
  h7 : Word
  deriving DecidableEq, Repr, Inhabited

/-- The eight working variables a..h of one compression (R37, R135). They are transient: no state holds them. -/
structure WorkVars where
  a : Word
  b : Word
  c : Word
  d : Word
  e : Word
  f : Word
  g : Word
  h : Word
  deriving DecidableEq, Repr, Inhabited

/-- The state tag `ST` of a Context (R31). Its 2-bit code is 0, 1, 2 in this order and the code 3 is never held, so
three constructors say all of it. -/
inductive CtxState where
  | fresh
  | accumulating
  | finalized
  deriving DecidableEq, Repr, Inhabited

end Sys2Proof
end

