-- ==== Sys2Proof/Syntax.lean ====
section
/-! DEFINITION. The commands: one constructor for each row of spec/opcode_table.json (30_encoding.md R71, R73). The
operands that do not fit the command word are taken from the operand registers (R72), so they are no fields here. -/

namespace Sys2Proof

/-- A host command. `c` is the context handle, an unsigned slot index (R72). -/
inductive Instr where
  /-- INIT: create a Context (R162). -/
  | init
  /-- UPDATE c: absorb SRC_LEN bytes at SRC_ADDR (R163). -/
  | update (c : Nat)
  /-- FINAL c: write the digest at DST_ADDR and finalize (R164). -/
  | final (c : Nat)
  /-- FREE c: release a Context (R165). -/
  | free (c : Nat)
  /-- HASH: one-shot digest (R166). -/
  | hash
  deriving DecidableEq, Repr

end Sys2Proof
end

