-- ==== Sys2Proof/WellFormed.lean ====
section
/-! DEFINITION. Which terms of `Instr` are commands: the handle is a value of the 8-bit CTX field, 0..255 (R71, R76). -/

namespace Sys2Proof

/-- A handle fits the CTX field (R71). A handle that names no slot is still well formed: execution, not decoding,
refuses it (R72). -/
abbrev handleFits (c : Nat) : Prop := c < 256

/-- A command the host can write: its handle, where it has one, fits the CTX field. -/
def Instr.wellFormed : Instr → Bool
  | .init => true
  | .update c => decide (handleFits c)
  | .final c => decide (handleFits c)
  | .free c => decide (handleFits c)
  | .hash => true

end Sys2Proof
end

