-- ==== Sys2Proof/Decode.lean ====
section
/-! DEFINITION. The decoder and the encoder of command words (30_encoding.md R70 to R75). Decoding is total on all
2^32 words, and a word that matches no row is rejected under the name of the first of R74's conditions it meets. -/

namespace Sys2Proof

/-! ### The fields of the one format, CMDW (R71) -/

/-- OPC, bits [3:0]. -/
def opcField (w : Word) : BitVec 4 := w.extractLsb' 0 4

/-- RSV0, bits [7:4]; must be 0. -/
def rsv0Field (w : Word) : BitVec 4 := w.extractLsb' 4 4

/-- CTX, bits [15:8]. -/
def ctxField (w : Word) : BitVec 8 := w.extractLsb' 8 8

/-- RSV1, bits [31:16]; must be 0. -/
def rsv1Field (w : Word) : BitVec 16 := w.extractLsb' 16 16

/-- Why a command word is illegal: R74's list, one name each. -/
inductive DecodeError where
  /-- OPC is 0x0 or 0x6 .. 0xF. -/
  | reservedOpcode
  /-- RSV0 ≠ 0. -/
  | rsv0NotZero
  /-- RSV1 ≠ 0. -/
  | rsv1NotZero
  /-- INIT or HASH with CTX ≠ 0. -/
  | ctxNotZero
  deriving DecidableEq, Repr

/-- A row of the opcode map (R73): a word `w` selects it when `w & mask = pattern`. -/
structure OpcodeRow where
  pattern : Word
  mask : Word
  /-- The command the row stands for, given the handle `c = zext_8(CTX)` (R72). -/
  command : Nat → Instr

/-- The opcode map (R73, spec/opcode_table.json). -/
def opcodeMap : List OpcodeRow :=
  [ { pattern := 0x00000001, mask := 0xFFFFFFFF, command := fun _ => .init },
    { pattern := 0x00000002, mask := 0xFFFF00FF, command := fun c => .update c },
    { pattern := 0x00000003, mask := 0xFFFF00FF, command := fun c => .final c },
    { pattern := 0x00000004, mask := 0xFFFF00FF, command := fun c => .free c },
    { pattern := 0x00000005, mask := 0xFFFFFFFF, command := fun _ => .hash } ]

/-- Whether a word selects a row (R73). -/
def OpcodeRow.selects (r : OpcodeRow) (w : Word) : Bool := w &&& r.mask == r.pattern

/-- The name of an illegal word: the first of R74's conditions, in R74's order, that it meets. -/
def illegalWordName (w : Word) : DecodeError :=
  if opcField w = 0 ∨ 6 ≤ (opcField w).toNat then .reservedOpcode
  else if rsv0Field w ≠ 0 then .rsv0NotZero
  else if rsv1Field w ≠ 0 then .rsv1NotZero
  else .ctxNotZero

/-- Decode a command word (R73, R74, R75). -/
def decode (w : Word) : Except DecodeError Instr :=
  match opcodeMap.find? (fun r => r.selects w) with
  | some r => .ok (r.command (ctxField w).toNat)
  | none => .error (illegalWordName w)

/-! ### The encoder -/

/-- A command word from its OPC and CTX, the reserved fields 0 (R71, R76): OPC | CTX << 8. -/
def commandWord (opc : BitVec 4) (ctx : BitVec 8) : Word :=
  opc.setWidth 32 ||| ctx.setWidth 32 <<< 8

/-- The word the host writes to CMD for a command (R76). -/
def encode : Instr → Word
  | .init => commandWord 1 0
  | .update c => commandWord 2 (BitVec.ofNat 8 c)
  | .final c => commandWord 3 (BitVec.ofNat 8 c)
  | .free c => commandWord 4 (BitVec.ofNat 8 c)
  | .hash => commandWord 5 0

/-- The host's question (spec/opcode_table.json): the command the decoder reads from an `nbits`-bit word. A command is
one 32-bit write (R70), so bits above `nbits` are 0 and no row is longer than 32 bits. -/
def decodeTableWord (nbits w : Nat) : Option Instr :=
  match decode (BitVec.ofNat 32 (w % 2 ^ nbits)) with
  | .ok i => some i
  | .error _ => none

end Sys2Proof
end

