-- ==== Sys2Proof/Config.lean ====
section
/-! DEFINITION. What the platform fixes (00_scope.md R8): the width of a host-memory address, the base of the register
window and the set of host-memory addresses that answer. `NUM_CTX`, the fourth parameter, is the number of slots a
state holds (Machine/State.lean). They are plain data that a state carries and no step changes, so that a statement
about every state is a statement about every build of the block (notes/assumptions/1.md).
Below them stand the free values: what a slot's fields hold once a rule leaves them unspecified. -/

namespace Sys2Proof

/-- A run of host-memory addresses `base .. base + size - 1`. -/
structure Region where
  base : Nat
  size : Nat
  deriving DecidableEq, Repr

/-- The platform's parameters (R8). `hostMem` lists the regions of host memory that exist: an address is admitted when
one of them holds it. Host memory is finite, so every predicate `HOST_MEM_ADMITS` is such a list. -/
structure Config where
  /-- `ADDR_W`, 1 ≤ ADDR_W ≤ 64. -/
  addrW : Nat
  /-- `MMIO_BASE`, 8-byte aligned. -/
  mmioBase : Nat
  /-- `HOST_MEM_ADMITS`, as the list of the regions that answer. -/
  hostMem : List Region
  deriving DecidableEq, Repr

/-- The constraints R8 puts on the parameters held here. -/
abbrev Config.Legal (cfg : Config) : Prop :=
  1 ≤ cfg.addrW ∧ cfg.addrW ≤ 64 ∧ cfg.mmioBase % 8 = 0

/-- The number of bytes of host memory, 2^ADDR_W (R50). -/
abbrev Config.memSize (cfg : Config) : Nat := 2 ^ cfg.addrW

/-- DESIGN CHOICE (notes/assumptions/2.md): the parameters of `State.reset`, those the spec's own examples and vectors
use (R8: "the examples use 64"; 95_test_vectors.md): ADDR_W = 64 and every address admitted; MMIO_BASE = 0. -/
abbrev Config.standard : Config := { addrW := 64, mmioBase := 0, hostMem := [⟨0, 2 ^ 64⟩] }

/-- DESIGN CHOICE (notes/assumptions/2.md): the number of slots of `State.reset`, that of the spec's vectors. -/
abbrev Config.standardNumCtx : Nat := 2

/-! The free values (notes/assumptions/4.md): the contents of a slot after FREE and after HASH's scratch use
(R165, R166: "its other fields are unspecified"). They have no body, so nothing can be proved of them; each is applied
to the state's counter, so that no two slots need hold the same value. -/

/-- ST of a slot whose fields are unspecified. -/
opaque Config.freeSt : Nat → CtxState

/-- H0..H7 of a slot whose fields are unspecified. -/
opaque Config.freeH : Nat → HashState

/-- BUF of a slot whose fields are unspecified. -/
opaque Config.freeBuf : Nat → Block

/-- BCNT of a slot whose fields are unspecified. -/
opaque Config.freeBcnt : Nat → BitVec 6

/-- BITLEN of a slot whose fields are unspecified. -/
opaque Config.freeBitlen : Nat → DWord

end Sys2Proof
end

