-- ==== Sys2Proof/Machine/State.lean ====
section
/-! DEFINITION. The machine's state as plain data (10_state.md R20 to R37; 70_reset_and_hazards.md R231), what a step
can stop with, and the state after reset. -/

namespace Sys2Proof.Machine

/-- The status codes of STATUS.CODE (R202). -/
inductive StatusCode where
  | ok
  | allocationFailure
  | invalidState
  | invalidArgument
  | illegalCommand
  | fault
  deriving DecidableEq, Repr

/-- The causes of the sticky fault, STATUS.FCAUSE (R203, R204, R205). The sticky fault is a STATE of the block, in which
the machine goes on; it is not the `Fault` below, with which a step has no next state. -/
inductive FaultCause where
  | badHandle
  | lengthOverflow
  deriving DecidableEq, Repr

/-- The five registers of the register window (R23). -/
inductive WindowReg where
  | cmd
  | status
  | srcAddr
  | srcLen
  | dstAddr
  deriving DecidableEq, Repr

/-- One action of the outside world (R20, R230, D35): the host's register accesses and its writes to host memory between
commands, and the platform's reset event. A register access names a host address and a width in bits, so that the
accesses R59 does not admit can be written down too. -/
inductive HostOp where
  /-- The host writes the low `width` bits of `value` at host address `addr` of the register window. -/
  | regWrite (addr width : Nat) (value : DWord)
  /-- The host reads `width` bits at host address `addr` of the register window. -/
  | regRead (addr width : Nat)
  /-- The host writes one byte of host memory. -/
  | memWrite (addr : Nat) (value : Byte)
  /-- The platform asserts reset (R230). -/
  | reset
  deriving DecidableEq, Repr

/-- One context slot (R29 to R35). -/
structure Slot where
  /-- ALLOC: the slot holds a live Context (R30). -/
  alloc : Bool
  /-- ST: the Context's state (R31). -/
  st : CtxState
  /-- H[0..7] (R32). -/
  h : HashState
  /-- BUF[0..63] (R33). -/
  buf : Block
  /-- BCNT, 6 bits (R34). -/
  bcnt : BitVec 6
  /-- BITLEN, 64 bits (R35). -/
  bitlen : DWord
  deriving DecidableEq, Repr

/-- Host memory: the listed bytes, in the canonical form of `Memory.wf` (Machine/Ops.lean). -/
abbrev Memory := List Host.Cell

/-- The whole machine: the block's registers and slots, host memory, and the agents around it. CMD holds no state (R24)
and K and IV are constants (R36), so none of them is a field; the schedule and the working variables have no value
between commands (R37). -/
structure State where
  /-- STATUS (R25), whole, so that it reads as the host reads it; its fields are in Machine/Flags.lean. -/
  status : Word
  /-- SRC_ADDR (R26). -/
  srcAddr : DWord
  /-- SRC_LEN (R27). -/
  srcLen : DWord
  /-- DST_ADDR (R28). -/
  dstAddr : DWord
  /-- ctx[0 .. NUM_CTX-1] (R29): NUM_CTX is the list's length. -/
  slots : List Slot
  /-- Host memory (R50). It is the host's, not the block's (R230). -/
  mem : Memory
  /-- The platform's parameters (R8); no step changes them. -/
  cfg : Config
  /-- The model's own: the outside world's coming actions, the next one first (notes/assumptions/5.md). -/
  hostOps : List HostOp
  /-- The model's own: what the host's last register read returned, zero-extended to 64 bits. -/
  readData : Option DWord
  /-- The model's own: how many times a slot's fields have been left unspecified; the argument of the free values. -/
  freeCount : Nat
  deriving DecidableEq, Repr

/-- Why the machine has no next state. The spec says "stuck": the model gives the agent no step. Each is safe: nothing is
proved of what a real block would do there. -/
inductive Fault where
  /-- An access of the engine (R52, R53), or the host's own write, to a host-memory address that HOST_MEM_ADMITS refuses.
  Raised by UPDATE, FINAL, HASH and the host's memory write. Safe. -/
  | hostMemNotAdmitted (addr : Nat)
  /-- A host write to an address that is not below 2^ADDR_W (R50), so that host memory has no such byte. No command raises
  it: their range checks come first. Safe. -/
  | hostMemNoSuchAddress (addr : Nat)
  /-- A host access to the register window that R59 does not admit: another width or another offset. Raised by the host's
  register accesses. Safe. -/
  | windowAccessNotAdmitted (addr width : Nat)
  deriving DecidableEq, Repr

/-- Why an instruction has no meaning in the model. -/
inductive Refusal where
  /-- The instruction is not modelled yet. Raised by no arm of this model. Safe. -/
  | notModelled (mnemonic : String)
  deriving DecidableEq, Repr

/-- A slot right after reset: free (R231). The other fields are unspecified there; DESIGN CHOICE
(notes/assumptions/3.md): the model names 0 for each of them, which for ST is Fresh (R31). -/
def Slot.reset : Slot :=
  { alloc := false, st := .fresh, h := ⟨0, 0, 0, 0, 0, 0, 0, 0⟩, buf := Vector.replicate 64 0, bcnt := 0, bitlen := 0 }

/-- The machine right after reset (R231) on a platform with `numCtx` slots and the parameters `cfg`: STATUS and the operand
registers 0, every slot free; nothing listed in host memory and no action of the outside world. -/
def State.resetOf (numCtx : Nat) (cfg : Config) : State :=
  { status := 0, srcAddr := 0, srcLen := 0, dstAddr := 0, slots := List.replicate numCtx Slot.reset, mem := [], cfg := cfg,
    hostOps := [], readData := none, freeCount := 0 }

/-- The machine right after reset, on the platform of the spec's own vectors (notes/assumptions/2.md). -/
def State.reset : State := State.resetOf Config.standardNumCtx Config.standard

/-- NUM_CTX (R8): the number of context slots. -/
def State.numCtx (s : State) : Nat := s.slots.length

end Sys2Proof.Machine
end

