-- ==== Sys2Proof/Machine/Block.lean ====
section
/-! DEFINITION. Padding, schedule expansion, compression, and the slot procedures the commands are built from
(41_block_functions.md R130 to R140). Each is total and writes no status. -/

namespace Sys2Proof.Machine

/-! ### Message schedule expander (R133) -/

/-- The big-endian words of a byte sequence, four bytes each: W[t] for t ≤ 15 is BE32(B[4t], B[4t+1], B[4t+2], B[4t+3]). -/
def wordsOf : List Byte → List Word
  | b0 :: b1 :: b2 :: b3 :: rest => be32 b0 b1 b2 b3 :: wordsOf rest
  | _ => []

/-- The next schedule word, W[t] = σ1(W[t-2]) + W[t-7] + σ0(W[t-15]) + W[t-16], from the words before it, W[t-1] first. -/
def nextScheduleWord (newestFirst : List Word) : Word :=
  smallSigma1 (newestFirst.getD 1 0) + newestFirst.getD 6 0 + smallSigma0 (newestFirst.getD 14 0) + newestFirst.getD 15 0

/-- `n` further schedule words put before the words so far, newest first. -/
def extendSchedule : Nat → List Word → List Word
  | 0, newestFirst => newestFirst
  | n + 1, newestFirst => extendSchedule n (nextScheduleWord newestFirst :: newestFirst)

/-- `EXPAND(B)`: the schedule W[0..63] (R133). -/
def expand (b : Block) : List Word := (extendSchedule 48 (wordsOf b.toList).reverse).reverse

/-! ### Compression function (R135, R136) -/

/-- `ROUND`: one compression round with the round constant `k` = K[t] and the schedule word `w` = W[t] (R135). -/
def round (k w : Word) (v : WorkVars) : WorkVars :=
  let t1 := v.h + bigSigma1 v.e + ch v.e v.f v.g + k + w
  let t2 := bigSigma0 v.a + maj v.a v.b v.c
  ⟨t1 + t2, v.a, v.b, v.c, v.d + t1, v.e, v.f, v.g⟩

/-- The rounds, one for each pair of a round constant and a schedule word, in order of t. -/
def rounds : List Word → List Word → WorkVars → WorkVars
  | k :: ks, w :: ws, v => rounds ks ws (round k w v)
  | _, _, v => v

/-- The working variables' start: a..h = H[0..7] (R136). -/
def HashState.workVars (h : HashState) : WorkVars := ⟨h.h0, h.h1, h.h2, h.h3, h.h4, h.h5, h.h6, h.h7⟩

/-- The closing additions of COMPRESS, modulo 2^32 each (R136). -/
def HashState.addVars (h : HashState) (v : WorkVars) : HashState :=
  ⟨h.h0 + v.a, h.h1 + v.b, h.h2 + v.c, h.h3 + v.d, h.h4 + v.e, h.h5 + v.f, h.h6 + v.g, h.h7 + v.h⟩

/-- `COMPRESS(H, B)`: 64 rounds, then the additions (R136). -/
def compress (h : HashState) (b : Block) : HashState :=
  HashState.addVars h (rounds roundConstants (expand b) (HashState.workVars h))

/-! ### Padding and finalisation (R130 to R132) -/

/-- `z`, the number of zero bytes of PAD: (55 - n) mod 64, for n ≤ 63 (R130). -/
def padZeros (n : Nat) : Nat := (119 - n) % 64

/-- `PAD(n, L)`: the closing byte sequence for `n` buffered bytes and a message of `L` bits (R130). -/
def pad (n : Nat) (l : DWord) : List Byte := 0x80 :: (List.replicate (padZeros n) 0 ++ be64 l)

/-- The number of closing blocks (R131). -/
def closingBlocks (n : Nat) : Nat := if n ≤ 55 then 1 else 2

/-- `for i in n .. n+k-1: BUF[i] <- bytes[i-n]`: the bytes stored from index `n` on. -/
def storeBuf : Nat → List Byte → Block → Block
  | _, [], b => b
  | n, x :: xs, b => storeBuf (n + 1) xs (b.setIfInBounds n x)

/-- `COMPRESS_SLOT(c)` (R132, R137): all eight words of H at once. -/
def compressSlot (sl : Slot) : Slot := { sl with h := compress sl.h sl.buf }

/-- FINALIZE's first closing block, compressed where BCNT was 56..63, with the index the zeros go on from (R132). -/
def closeFullBlock (sl : Slot) (n : Nat) : Slot × Nat :=
  if n > 56 then (compressSlot { sl with buf := storeBuf n (List.replicate (64 - n) 0) sl.buf }, 0) else (sl, n)

/-- FINALIZE's last closing block: zeros from index n up to 55, then the length; compressed, and BCNT = 0 (R132). -/
def closeLastBlock (sl : Slot) (n : Nat) : Slot :=
  { compressSlot { sl with buf := storeBuf 56 (be64 sl.bitlen) (storeBuf n (List.replicate (56 - n) 0) sl.buf) } with
    bcnt := 0 }

/-- `FINALIZE(c)`: pad and compress the closing block or blocks in place (R132). -/
def finalize (sl : Slot) : Slot :=
  let n := sl.bcnt.toNat
  let closed := closeFullBlock { sl with buf := storeBuf n [0x80] sl.buf } (n + 1)
  closeLastBlock closed.1 closed.2

/-! ### Absorbing and serialising (R138, R139) -/

/-- `ABSORB(c, x)`: append one input byte; the 64th byte is compressed at once (R138). -/
def absorb (sl : Slot) (x : Byte) : Slot :=
  let stored := { sl with buf := sl.buf.set sl.bcnt.toNat x sl.bcnt.isLt }
  if sl.bcnt = 63 then { compressSlot stored with bcnt := 0 } else { stored with bcnt := sl.bcnt + 1 }

/-- The bytes absorbed one after the other, in input order (R163). -/
def absorbAll : List Byte → Slot → Slot
  | [], sl => sl
  | x :: xs, sl => absorbAll xs (absorb sl x)

/-- `SERIALIZE(H)`: D[4i + j] = BE32enc(H[i])[j] (R139). -/
def serialize (h : HashState) : List Byte :=
  be32enc h.h0 ++ be32enc h.h1 ++ be32enc h.h2 ++ be32enc h.h3 ++
  be32enc h.h4 ++ be32enc h.h5 ++ be32enc h.h6 ++ be32enc h.h7

/-- A Context as INIT creates it (R162), `alloc` apart: Fresh, H = IV, BUF zeroed, BCNT = 0, BITLEN = 0. HASH sets its
scratch slot up in the same way (R166). -/
def freshContext (alloc : Bool) : Slot :=
  { alloc := alloc, st := .fresh, h := iv, buf := Vector.replicate 64 0, bcnt := 0, bitlen := 0 }

/-! ### The digest function (R140) -/

/-- The 64-byte block whose bytes are the first 64 of a list. -/
def blockOf (bytes : List Byte) : Block := storeBuf 0 (bytes.take 64) (Vector.replicate 64 0)

/-- The first `k` blocks of a byte sequence compressed in order: H_i = COMPRESS(H_(i-1), P_i). -/
def compressBlocks : Nat → List Byte → HashState → HashState
  | 0, _, h => h
  | k + 1, bytes, h => compressBlocks k (bytes.drop 64) (compress h (blockOf bytes))

/-- `SHA256(M)` for a message of N bytes with 8N < 2^64 (R140). No command runs it: the commands absorb byte by byte. -/
def sha256 (m : List Byte) : List Byte :=
  serialize (compressBlocks (m.length / 64 + closingBlocks (m.length % 64))
    (m ++ pad (m.length % 64) (BitVec.ofNat 64 (8 * m.length))) iv)

end Sys2Proof.Machine
end

