-- ==== Sys2Proof/Machine/Flags.lean ====
section
/-! DEFINITION. STATUS, the only flag-like state the block has (10_state.md R25): its fields, its codes, and the word
that holds given fields with the reserved bits 0. -/

namespace Sys2Proof.Machine

/-! ### The fields of a STATUS word (R25) -/

/-- CODE, bits [3:0]. -/
def codeField (w : Word) : BitVec 4 := w.extractLsb' 0 4

/-- The reserved bits [7:4]. -/
def reservedLow (w : Word) : BitVec 4 := w.extractLsb' 4 4

/-- HANDLE, bits [15:8]. -/
def handleField (w : Word) : BitVec 8 := w.extractLsb' 8 8

/-- FAULTED, bit [16]. -/
def faultedField (w : Word) : BitVec 1 := w.extractLsb' 16 1

/-- FCAUSE, bits [18:17]. -/
def fcauseField (w : Word) : BitVec 2 := w.extractLsb' 17 2

/-- The reserved bits [31:19]. -/
def reservedHigh (w : Word) : BitVec 13 := w.extractLsb' 19 13

/-- A STATUS word from its fields, the reserved bits 0 (R201): CODE | HANDLE << 8 | FAULTED << 16 | FCAUSE << 17. -/
def statusWord (code : BitVec 4) (handle : BitVec 8) (faulted : BitVec 1) (fcause : BitVec 2) : Word :=
  code.setWidth 32 ||| handle.setWidth 32 <<< 8 ||| faulted.setWidth 32 <<< 16 ||| fcause.setWidth 32 <<< 17

/-- The number of a status code (R202). -/
def codeBits : StatusCode → BitVec 4
  | .ok => 0
  | .allocationFailure => 1
  | .invalidState => 2
  | .invalidArgument => 3
  | .illegalCommand => 4
  | .fault => 5

/-- The number of a fault cause (R203); 0 is none. -/
def causeBits : FaultCause → BitVec 2
  | .badHandle => 1
  | .lengthOverflow => 2

/-- STATUS.FAULTED = 1: the block is in the faulted condition (R203). -/
def State.faulted (s : State) : Bool := faultedField s.status == 1

end Sys2Proof.Machine
end

