-- ==== Sys2Proof/Machine/Ops.lean ====
section
/-! DEFINITION. The named operations the commands are written over: host memory (20_memory.md R50 to R58), the context
slots, the end of a command (`finish`, R201) and entering the faulted condition (`raiseFault`, R203). There is no trap
entry and no return from one (R211): a fault is left by reset only (R206). -/

namespace Sys2Proof.Machine

/-! ### Host memory as data -/

/-- What an address that is not listed reads as. The spec gives host memory no contents; DESIGN CHOICE
(notes/assumptions/6.md): 0x00, as the spec's vectors take it. -/
def Memory.unlisted : Byte := 0

/-- The byte at an address. -/
def Memory.read : Memory → Nat → Byte
  | [], _ => Memory.unlisted
  | (k, v) :: m, a => if a = k then v else Memory.read m a

/-- The memory with one byte stored, in canonical form again: storing what an unlisted address reads as unlists it. -/
def Memory.write : Memory → Nat → Byte → Memory
  | [], a, v => if v = Memory.unlisted then [] else [(a, v)]
  | (k, b) :: m, a, v =>
    if a < k then (if v = Memory.unlisted then (k, b) :: m else (a, v) :: (k, b) :: m)
    else if a = k then (if v = Memory.unlisted then m else (a, v) :: m)
    else (k, b) :: Memory.write m a v

/-- Whether every listed address is at least `lo`, the addresses rise strictly, and no byte is the unlisted one. -/
def Memory.risesFrom : Nat → Memory → Bool
  | _, [] => true
  | lo, (k, v) :: m => decide (lo ≤ k) && decide (v ≠ Memory.unlisted) && Memory.risesFrom (k + 1) m

/-- The canonical form of host memory: addresses strictly rising, no entry that reads as an unlisted address does. -/
def Memory.wf (m : Memory) : Bool := Memory.risesFrom 0 m

/-! ### Host memory as the agents reach it -/

/-- `HOST_MEM_ADMITS(addr)` (R8). -/
def admits (cfg : Config) (a : Nat) : Bool := cfg.hostMem.any fun r => decide (r.base ≤ a) && decide (a < r.base + r.size)

/-- Whether host memory answers at an address: it has such a byte (R50), and the platform admits it (R52, R53). -/
def checkAddress (cfg : Config) (a : Nat) : Except Fault Unit :=
  if cfg.memSize ≤ a then .error (.hostMemNoSuchAddress a)
  else if admits cfg a then .ok () else .error (.hostMemNotAdmitted a)

/-- `MemRead(addr, 1)` (R52): no side effect; stuck where host memory does not answer. -/
def memRead (s : State) (a : Nat) : Except Fault Byte :=
  match checkAddress s.cfg a with
  | .error f => .error f
  | .ok _ => .ok (Memory.read s.mem a)

/-- `MemWrite(addr, 1, v)` (R53); stuck where host memory does not answer. -/
def memWrite (s : State) (a : Nat) (v : Byte) : Except Fault State :=
  match checkAddress s.cfg a with
  | .error f => .error f
  | .ok _ => .ok { s with mem := Memory.write s.mem a v }

/-- The `n` bytes at `a .. a+n-1`, read in ascending address order (R57, R58). -/
def readBytes (s : State) : Nat → Nat → Except Fault (List Byte)
  | _, 0 => .ok []
  | a, n + 1 =>
    match memRead s a with
    | .error f => .error f
    | .ok x =>
      match readBytes s (a + 1) n with
      | .error f => .error f
      | .ok xs => .ok (x :: xs)

/-- The bytes stored at `a, a+1, ..`, in ascending address order (R57). -/
def writeBytes : Nat → List Byte → State → Except Fault State
  | _, [], s => .ok s
  | a, x :: xs, s =>
    match memWrite s a x with
    | .error f => .error f
    | .ok s' => writeBytes (a + 1) xs s'

/-! ### Context slots -/

/-- The slot of a valid handle: `VALID(c)` is (c < NUM_CTX) and (ctx[c].ALLOC = 1) (R160). -/
def State.context (s : State) (c : Nat) : Option Slot :=
  match s.slots[c]? with
  | none => none
  | some sl => if sl.alloc then some sl else none

/-- The least c with ctx[c].ALLOC = 0, if a slot is free (R162). -/
def State.leastFree (s : State) : Option Nat := s.slots.findIdx? fun sl => !sl.alloc

/-- `ctx[c] <- sl`. -/
def State.setSlot (s : State) (c : Nat) (sl : Slot) : State := { s with slots := s.slots.set c sl }

/-- A free slot whose other fields are unspecified (R165, R166): free values. -/
def unspecifiedSlot (k : Nat) : Slot :=
  { alloc := false, st := Config.freeSt k, h := Config.freeH k, buf := Config.freeBuf k, bcnt := Config.freeBcnt k,
    bitlen := Config.freeBitlen k }

/-- Slot c left free with every other field unspecified: after FREE, and after HASH's scratch use (R165, R166). -/
def State.releaseSlot (s : State) (c : Nat) : State :=
  { s with slots := s.slots.set c (unspecifiedSlot s.freeCount), freeCount := s.freeCount + 1 }

/-! ### The end of a command -/

/-- `finish(code)` (R201), with HANDLE = `handle`: the whole of STATUS is rewritten, FAULTED and FCAUSE keeping their
value. -/
def State.finish (s : State) (code : StatusCode) (handle : BitVec 8 := 0) : State :=
  { s with status := statusWord (codeBits code) handle (faultedField s.status) (fcauseField s.status) }

/-- `raise Fault(cause)` (R203): the first cause is kept, FAULTED = 1, CODE = 5, HANDLE = 0; nothing but STATUS changes. -/
def State.raiseFault (s : State) (cause : FaultCause) : State :=
  { s with status := statusWord (codeBits .fault) 0 1 (if faultedField s.status = 0 then causeBits cause else fcauseField s.status) }

/-- A command that ends here with `code` and has done nothing else (R202). -/
def endWith (s : State) (code : StatusCode) : Host.Outcome State Fault Refusal := .next (s.finish code)

/-- A command that raises a fault here and has done nothing else (R203). -/
def endWithFault (s : State) (cause : FaultCause) : Host.Outcome State Fault Refusal := .next (s.raiseFault cause)

/-- The guard of every command (R160, R206): in the faulted condition it ends as Fault, whatever it is. -/
def unlessFaulted (s : State) (command : Host.Outcome State Fault Refusal) : Host.Outcome State Fault Refusal :=
  if s.faulted then endWith s .fault else command

end Sys2Proof.Machine
end

