-- ==== Sys2Proof/Machine/Operands.lean ====
section
/-! DEFINITION. The operands of the commands (30_encoding.md R72) and their checks. Lengths and addresses are exact
integers (00_scope.md R10), so no sum here wraps. The handle is decoded with the command word (Decode.lean). -/

namespace Sys2Proof.Machine

/-- `src`: SRC_ADDR, an unsigned byte address (R72). -/
def State.src (s : State) : Nat := s.srcAddr.toNat

/-- `len`: SRC_LEN, an unsigned count of bytes (R72). -/
def State.len (s : State) : Nat := s.srcLen.toNat

/-- `dst`: DST_ADDR, an unsigned byte address of 32 bytes (R72). -/
def State.dst (s : State) : Nat := s.dstAddr.toNat

/-- A range of `n` bytes starting at `a` is in range: a + n ≤ 2^ADDR_W (R51). -/
def inRange (cfg : Config) (a n : Nat) : Bool := decide (a + n ≤ cfg.memSize)

/-- The source check of UPDATE and HASH (R163, R166): len > 0 and a null or out-of-range source. -/
def State.badSource (s : State) : Bool := decide (0 < s.len) && (decide (s.src = 0) || !inRange s.cfg s.src s.len)

/-- The destination check of FINAL and HASH (R164, R166): a null or out-of-range destination of 32 bytes. -/
def State.badDestination (s : State) : Bool := decide (s.dst = 0) || !inRange s.cfg s.dst 32

/-- The length check of UPDATE and HASH (R205): a total of 2^64 bits or more, from `bitlen` bits before. -/
def State.lengthOverflows (s : State) (bitlen : Nat) : Bool := decide (2 ^ 64 ≤ bitlen + 8 * s.len)

end Sys2Proof.Machine
end

