-- ==== Sys2Proof/Machine/Context.lean ====
section
/-! DEFINITION. The incremental context commands: INIT, UPDATE, FINAL, FREE (42_context_commands.md R162 to R165). Every
check comes before the first write (R160), in the order of R208. -/

namespace Sys2Proof.Machine

/-- INIT (R162): the least free slot becomes a Fresh Context, and its index is returned in HANDLE. -/
def execInit (s : State) : Host.Outcome State Fault Refusal :=
  unlessFaulted s <|
    match s.leastFree with
    | none => endWith s .allocationFailure
    | some h => .next ((s.setSlot h (freshContext true)).finish .ok (BitVec.ofNat 8 h))

/-- UPDATE c (R163): absorb SRC_LEN bytes from host memory at SRC_ADDR. -/
def execUpdate (c : Nat) (s : State) : Host.Outcome State Fault Refusal :=
  unlessFaulted s <|
    match s.context c with
    | none => endWithFault s .badHandle
    | some sl =>
      if sl.st = .finalized then endWith s .invalidState
      else if s.badSource then endWith s .invalidArgument
      else if s.lengthOverflows sl.bitlen.toNat then endWithFault s .lengthOverflow
      else
        match readBytes s s.src s.len with
        | .error f => .fault f
        | .ok bytes =>
          .next ((s.setSlot c { absorbAll bytes sl with
            bitlen := sl.bitlen + BitVec.ofNat 64 (8 * s.len), st := .accumulating }).finish .ok)

/-- FINAL c (R164): pad, compress the closing block or blocks, write the digest at DST_ADDR, and finalize. -/
def execFinal (c : Nat) (s : State) : Host.Outcome State Fault Refusal :=
  unlessFaulted s <|
    match s.context c with
    | none => endWithFault s .badHandle
    | some sl =>
      if sl.st = .finalized then endWith s .invalidState
      else if s.badDestination then endWith s .invalidArgument
      else
        match writeBytes s.dst (serialize (finalize sl).h) s with
        | .error f => .fault f
        | .ok s' => .next ((s'.setSlot c { finalize sl with st := .finalized }).finish .ok)

/-- FREE c (R165): the slot becomes free, in whichever of the three states its Context was. -/
def execFree (c : Nat) (s : State) : Host.Outcome State Fault Refusal :=
  unlessFaulted s <|
    match s.context c with
    | none => endWithFault s .badHandle
    | some _ => .next ((s.releaseSlot c).finish .ok)

end Sys2Proof.Machine
end

