-- ==== Sys2Proof/Machine/OneShot.lean ====
section
/-! DEFINITION. The one-shot command, HASH (42_context_commands.md R166). -/

namespace Sys2Proof.Machine

/-- The scratch Context of HASH once all source bytes are absorbed and the closing blocks compressed (R166). -/
def hashedContext (bytes : List Byte) : Slot :=
  finalize { absorbAll bytes (freshContext false) with bitlen := BitVec.ofNat 64 (8 * bytes.length) }

/-- HASH (R166): the digest of SRC_LEN bytes at SRC_ADDR, written at DST_ADDR after every source byte is read. The least
free slot is scratch storage: its ALLOC stays 0 and its other fields end unspecified. -/
def execHash (s : State) : Host.Outcome State Fault Refusal :=
  unlessFaulted s <|
    match s.leastFree with
    | none => endWith s .allocationFailure
    | some h =>
      if s.badSource then endWith s .invalidArgument
      else if s.lengthOverflows 0 then endWithFault s .lengthOverflow
      else if s.badDestination then endWith s .invalidArgument
      else
        match readBytes s s.src s.len with
        | .error f => .fault f
        | .ok bytes =>
          match writeBytes s.dst (serialize (hashedContext bytes).h) s with
          | .error f => .fault f
          | .ok s' => .next ((s'.releaseSlot h).finish .ok)

end Sys2Proof.Machine
end

