-- ==== Sys2Proof/Machine/Dispatch.lean ====
section
/-! DEFINITION. One arm for each command (42_context_commands.md R160). -/

namespace Sys2Proof.Machine

def exec (i : Instr) (s : State) : Host.Outcome State Fault Refusal :=
  match i with
  | .init => Sys2Proof.Machine.execInit s
  | .update c => Sys2Proof.Machine.execUpdate c s
  | .final c => Sys2Proof.Machine.execFinal c s
  | .free c => Sys2Proof.Machine.execFree c s
  | .hash => Sys2Proof.Machine.execHash s

end Sys2Proof.Machine
end

