-- ==== Sys2Proof/Machine/HostPort.lean ====
section
/-! DEFINITION. What each action of the outside world does: the execution of a command word (42_context_commands.md R160),
the register window (10_state.md R23 to R28; 20_memory.md R59), the host's writes to host memory (R61), and reset
(70_reset_and_hazards.md R230, R231). -/

namespace Sys2Proof.Machine

/-- An illegal command word (R207): IllegalCommand, nothing else changes, and it is no fault. -/
def execIllegal (s : State) : Host.Outcome State Fault Refusal := unlessFaulted s (endWith s .illegalCommand)

/-- `EXECUTE(v)` (R160). The faulted check, which comes first, stands in every command and in `execIllegal`. -/
def execute (v : Word) (s : State) : Host.Outcome State Fault Refusal :=
  match decode v with
  | .ok i => exec i s
  | .error _ => execIllegal s

/-- The register an access of the host reaches (R23, R59): it starts at the register's own offset from MMIO_BASE and has the
register's width. No other access is admitted. -/
def windowReg (cfg : Config) (addr width : Nat) : Option WindowReg :=
  if addr = cfg.mmioBase ∧ width = 32 then some .cmd
  else if addr = cfg.mmioBase + 0x04 ∧ width = 32 then some .status
  else if addr = cfg.mmioBase + 0x08 ∧ width = 64 then some .srcAddr
  else if addr = cfg.mmioBase + 0x10 ∧ width = 64 then some .srcLen
  else if addr = cfg.mmioBase + 0x18 ∧ width = 64 then some .dstAddr
  else none

/-- A host write to the register window: a write to CMD runs its command, a write to STATUS is ignored (R24, R25, R59). -/
def hostRegWrite (addr width : Nat) (v : DWord) (s : State) : Host.Outcome State Fault Refusal :=
  match windowReg s.cfg addr width with
  | none => .fault (.windowAccessNotAdmitted addr width)
  | some .cmd => execute (v.setWidth 32) s
  | some .status => .next s
  | some .srcAddr => .next { s with srcAddr := v }
  | some .srcLen => .next { s with srcLen := v }
  | some .dstAddr => .next { s with dstAddr := v }

/-- The value a register reads as; CMD holds no state and reads 0 (R24, R59). -/
def windowValue (s : State) : WindowReg → DWord
  | .cmd => 0
  | .status => s.status.setWidth 64
  | .srcAddr => s.srcAddr
  | .srcLen => s.srcLen
  | .dstAddr => s.dstAddr

/-- A host read of the register window: the value is returned to the host and nothing else happens (R59). -/
def hostRegRead (addr width : Nat) (s : State) : Host.Outcome State Fault Refusal :=
  match windowReg s.cfg addr width with
  | none => .fault (.windowAccessNotAdmitted addr width)
  | some r => .next { s with readData := some (windowValue s r) }

/-- The host writes a byte of host memory between commands (R61). -/
def hostMemWrite (a : Nat) (v : Byte) (s : State) : Host.Outcome State Fault Refusal :=
  match memWrite s a v with
  | .error f => .fault f
  | .ok s' => .next s'

/-- The reset event (R230, R231): every piece of the block's state takes its value after reset. Host memory, the platform
and the host's own actions are not the block's state and stay. -/
def resetBlock (s : State) : State :=
  { s with status := 0, srcAddr := 0, srcLen := 0, dstAddr := 0, slots := s.slots.map fun _ => Slot.reset }

/-- One action of the outside world. -/
def hostStep (op : HostOp) (s : State) : Host.Outcome State Fault Refusal :=
  match op with
  | .regWrite addr width v => hostRegWrite addr width v s
  | .regRead addr width => hostRegRead addr width s
  | .memWrite a v => hostMemWrite a v s
  | .reset => .next (resetBlock s)

end Sys2Proof.Machine
end

