-- ==== Sys2Proof/Machine/Step.lean ====
section
/-! DEFINITION. One step of the machine: the outside world's next action, a command running whole in the step of its CMD
write (10_state.md R20, R24; 92_eei_decisions.md D9, D35). The block fetches nothing (R22): a command is the value the
host writes to CMD. -/

namespace Sys2Proof.Machine

/-- The next action is taken off the list and done; with no action left the block is idle and keeps its state (R216). -/
def step (s : State) : Host.Outcome State Fault Refusal :=
  match s.hostOps with
  | [] => .next s
  | op :: rest => hostStep op { s with hostOps := rest }

/-- The state in which the outside world's next action is the host's write of the command word `w` to CMD, so that the
next step runs it (notes/assumptions/5.md). -/
def State.withFetchWord (s : State) (nbits w : Nat) : State :=
  { s with hostOps := .regWrite s.cfg.mmioBase 32 (BitVec.ofNat 64 (w % 2 ^ nbits)) :: s.hostOps }

end Sys2Proof.Machine
end

