-- ==== Sys2Proof/Machine/Listing.lean ====
section
/-! DEFINITION. The command listings of 30_encoding.md R76: each line is a sequence of host register writes, the operand
registers its command reads first and CMD last. -/

namespace Sys2Proof.Machine

/-- A listing line (R76). -/
inductive ListingLine where
  | init
  | update (c : Nat) (src len : DWord)
  | final (c : Nat) (dst : DWord)
  | free (c : Nat)
  | hash (dst src len : DWord)
  /-- `.word w`: a raw CMD write. -/
  | word (w : Word)
  deriving DecidableEq, Repr

/-- The host's write of a word to CMD. -/
def cmdWrite (cfg : Config) (w : Word) : HostOp := .regWrite cfg.mmioBase 32 (w.setWidth 64)

/-- The host's writes to SRC_ADDR, SRC_LEN and DST_ADDR (R23). -/
def srcAddrWrite (cfg : Config) (v : DWord) : HostOp := .regWrite (cfg.mmioBase + 0x08) 64 v
def srcLenWrite (cfg : Config) (v : DWord) : HostOp := .regWrite (cfg.mmioBase + 0x10) 64 v
def dstAddrWrite (cfg : Config) (v : DWord) : HostOp := .regWrite (cfg.mmioBase + 0x18) 64 v

/-- The host writes of a listing line, in R76's order. -/
def listingWrites (cfg : Config) : ListingLine → List HostOp
  | .init => [cmdWrite cfg (encode .init)]
  | .update c src len => [srcAddrWrite cfg src, srcLenWrite cfg len, cmdWrite cfg (encode (.update c))]
  | .final c dst => [dstAddrWrite cfg dst, cmdWrite cfg (encode (.final c))]
  | .free c => [cmdWrite cfg (encode (.free c))]
  | .hash dst src len => [srcAddrWrite cfg src, srcLenWrite cfg len, dstAddrWrite cfg dst, cmdWrite cfg (encode .hash)]
  | .word w => [cmdWrite cfg w]

end Sys2Proof.Machine
end

