-- ==== Sys2Proof/Safety.lean ====
section
/-! DEFINITION. What claims are stated in terms of: a state that no fault has ended (60_exceptions.md R206), the invariants
of 10_state.md section 7, what message a Context stands for (41_block_functions.md R140), and when two states cannot be
told apart (10_state.md R41). -/

namespace Sys2Proof.Machine

/-! ### Safe runs -/

/-- A state with FAULTED = 1 is never final (R206): a run that reaches one refutes every claim that needs a digest. -/
def State.final (s : State) : Bool := !s.faulted

/-- Whether a command has reported OK in STATUS.CODE (R202). -/
def State.reportsOk (s : State) : Bool := codeField s.status == codeBits .ok

/-! ### How a command ends -/

/-- A command ended by `finish` (R201): STATUS holds this CODE and HANDLE, FAULTED and FCAUSE as before, reserved bits 0. -/
structure EndedWith (s t : State) (code : BitVec 4) (handle : BitVec 8) : Prop where
  code : codeField t.status = code
  handle : handleField t.status = handle
  faulted : faultedField t.status = faultedField s.status
  fcause : fcauseField t.status = fcauseField s.status
  reservedLow : reservedLow t.status = 0
  reservedHigh : reservedHigh t.status = 0

/-- Nothing but STATUS changed (R160, R203). -/
abbrev OnlyStatusChanged (s t : State) : Prop := t = { s with status := t.status }

/-- A command ended by `raise Fault(cause)` (R203), `cause` by its number. -/
structure RaisedFault (s t : State) (cause : BitVec 2) : Prop where
  code : codeField t.status = 5
  handle : handleField t.status = 0
  faulted : faultedField t.status = 1
  fcause : fcauseField t.status = cause
  reservedLow : reservedLow t.status = 0
  reservedHigh : reservedHigh t.status = 0
  onlyStatus : OnlyStatusChanged s t

/-! ### Contexts and operands as the rules name them -/

/-- The state tag of a live Context; none for a free slot and for a handle that names no slot (R161). -/
def liveState (s : State) (c : Nat) : Option CtxState :=
  match s.slots[c]? with
  | some sl => if sl.alloc then some sl.st else none
  | none => none

/-- `h` is the least c with ctx[c].ALLOC = 0 (R162). -/
def IsLeastFree (s : State) (h : Nat) : Prop :=
  (∃ sl, s.slots[h]? = some sl ∧ sl.alloc = false) ∧ ∀ c sl, c < h → s.slots[c]? = some sl → sl.alloc = true

/-- The source check fails: len > 0 and (src = 0 or src + len > 2^ADDR_W) (R163). -/
def SourceRejected (s : State) : Prop :=
  0 < s.srcLen.toNat ∧ (s.srcAddr.toNat = 0 ∨ 2 ^ s.cfg.addrW < s.srcAddr.toNat + s.srcLen.toNat)

/-- The destination check fails: dst = 0 or dst + 32 > 2^ADDR_W (R164). -/
def DestinationRejected (s : State) : Prop :=
  s.dstAddr.toNat = 0 ∨ 2 ^ s.cfg.addrW < s.dstAddr.toNat + 32

/-- The exact total of `bitlen` bits and SRC_LEN further bytes is 2^64 bits or more (R205). -/
def TotalOverflows (s : State) (bitlen : Nat) : Prop := 2 ^ 64 ≤ bitlen + 8 * s.srcLen.toNat

/-- R74's list of the illegal words. -/
def IllegalWord (w : Word) : Prop :=
  opcField w = 0 ∨ 6 ≤ (opcField w).toNat ∨ rsv0Field w ≠ 0 ∨ rsv1Field w ≠ 0 ∨
  ((opcField w = 1 ∨ opcField w = 5) ∧ ctxField w ≠ 0)

/-! ### The conditions of R208 -/

/-- The conditions that can apply to a command (R208). -/
inductive Condition where
  | faulted
  | illegalWord
  | badHandle
  | noFreeSlot
  | finalizedContext
  | badSource
  | lengthOverflow
  | badDestination
  deriving DecidableEq, Repr

/-- R208's order. Its third step is one of two, for different commands. -/
def Condition.order : List Condition :=
  [.faulted, .illegalWord, .badHandle, .noFreeSlot, .finalizedContext, .badSource, .lengthOverflow, .badDestination]

/-- When a condition applies to the command word `w` in the state `s` (R204 to R207, R162 to R166). -/
def Condition.Applies (s : State) (w : Word) : Condition → Prop
  | .faulted => faultedField s.status = 1
  | .illegalWord => IllegalWord w
  | .badHandle =>
    ∃ c, (decode w = .ok (.update c) ∨ decode w = .ok (.final c) ∨ decode w = .ok (.free c)) ∧ liveState s c = none
  | .noFreeSlot => (decode w = .ok .init ∨ decode w = .ok .hash) ∧ ∀ sl ∈ s.slots, sl.alloc = true
  | .finalizedContext => ∃ c, (decode w = .ok (.update c) ∨ decode w = .ok (.final c)) ∧ liveState s c = some .finalized
  | .badSource => ((∃ c, decode w = .ok (.update c)) ∨ decode w = .ok .hash) ∧ SourceRejected s
  | .lengthOverflow =>
    (∃ c sl, decode w = .ok (.update c) ∧ s.slots[c]? = some sl ∧ TotalOverflows s sl.bitlen.toNat) ∨
    (decode w = .ok .hash ∧ TotalOverflows s 0)
  | .badDestination => ((∃ c, decode w = .ok (.final c)) ∨ decode w = .ok .hash) ∧ DestinationRejected s

/-- The CODE a condition reports (R208, R202). -/
def Condition.code : Condition → BitVec 4
  | .faulted => 5
  | .illegalWord => 4
  | .badHandle => 5
  | .noFreeSlot => 1
  | .finalizedContext => 2
  | .badSource => 3
  | .lengthOverflow => 5
  | .badDestination => 3

/-- The FCAUSE a command leaves that reports a condition in the state `s`: the cause of the fault it raises, or what FCAUSE
held (R203, R206). -/
def Condition.fcauseAfter (s : State) : Condition → BitVec 2
  | .badHandle => 1
  | .lengthOverflow => 2
  | _ => fcauseField s.status

/-! ### Memory as a claim reads it -/

/-- The `n` bytes at `a .. a+n-1`, read through the model's read of one byte. -/
def bytesAt (m : Memory) (a n : Nat) : List Byte := (List.range n).map fun i => Memory.read m (a + i)

/-- Every byte of memory outside `a .. a+n-1` reads as before. -/
def sameOutside (m m' : Memory) (a n : Nat) : Prop := ∀ b, b < a ∨ a + n ≤ b → Memory.read m' b = Memory.read m b

/-- Every one of the `n` addresses from `a` on is a byte of host memory that answers (R51, R52). -/
def allAdmitted (cfg : Config) (a n : Nat) : Prop := ∀ i, i < n → a + i < cfg.memSize ∧ admits cfg (a + i) = true

/-! ### Invariants -/

/-- What STATUS can hold (R25): reserved bits 0, CODE 0 to 5, FCAUSE 0 to 2; FCAUSE is 0 exactly when FAULTED is, CODE is 5
exactly when FAULTED is 1, and a HANDLE that is not 0 comes with OK. -/
structure StatusLegal (w : Word) : Prop where
  reservedLow : reservedLow w = 0
  reservedHigh : reservedHigh w = 0
  code : (codeField w).toNat ≤ 5
  fcause : fcauseField w ≠ 3
  causeIff : faultedField w = 0 ↔ fcauseField w = 0
  faultIff : faultedField w = 1 ↔ codeField w = 5
  handleOk : handleField w ≠ 0 → codeField w = 0

/-- What a slot with ALLOC = 1 holds at every command boundary (R38, R39, R40): while it is not Finalized, BITLEN is a
multiple of 8 and BCNT the number of bytes modulo 64; a Fresh one has absorbed nothing; a Finalized one buffers nothing. -/
structure SlotLegal (sl : Slot) : Prop where
  counts : sl.alloc = true → sl.st ≠ .finalized → sl.bitlen.toNat % 8 = 0 ∧ sl.bcnt.toNat = sl.bitlen.toNat / 8 % 64
  fresh : sl.alloc = true → sl.st = .fresh → sl.bitlen = 0 ∧ sl.bcnt = 0
  finalized : sl.alloc = true → sl.st = .finalized → sl.bcnt = 0

/-- The invariant of the machine: legal parameters (R8), a legal STATUS whose HANDLE names a slot, canonical host memory
inside the address space (R50), and legal slots. -/
structure State.Inv (s : State) : Prop where
  config : s.cfg.Legal
  someSlot : 1 ≤ s.numCtx
  atMost256 : s.numCtx ≤ 256
  status : StatusLegal s.status
  handle : (handleField s.status).toNat < s.numCtx
  memory : Memory.wf s.mem = true
  inMemory : ∀ cell ∈ s.mem, cell.1 < s.cfg.memSize
  slots : ∀ sl ∈ s.slots, SlotLegal sl

/-! ### The message of a Context -/

/-- A slot stands for the message `m` (R39, R140): BITLEN counts its bits, the last `m.length mod 64` bytes are buffered, and
H is the IV with the full blocks of `m` compressed into it. -/
structure Slot.Holds (sl : Slot) (m : List Byte) : Prop where
  short : 8 * m.length < 2 ^ 64
  bitlen : sl.bitlen.toNat = 8 * m.length
  bcnt : sl.bcnt.toNat = m.length % 64
  buffered : sl.buf.toList.take (m.length % 64) = m.drop (64 * (m.length / 64))
  hash : sl.h = compressBlocks (m.length / 64) m iv

/-- A host that feeds a Context with chunks of host memory, one UPDATE for each (source address, length), stopping unless
each reports OK (R140). -/
def feed (c : Nat) : List (DWord × DWord) → State → Option State
  | [], s => some s
  | (src, len) :: rest, s =>
    match exec (.update c) { s with srcAddr := src, srcLen := len } with
    | .next t => if t.reportsOk then feed c rest t else none
    | .fault _ => none
    | .refused _ => none

/-- The bytes of the chunks, concatenated. -/
def chunkBytes (m : Memory) (chunks : List (DWord × DWord)) : List Byte :=
  chunks.flatMap fun p => bytesAt m p.1.toNat p.2.toNat

/-- Every live Context that is not Finalized stands for some message. -/
def State.TracksMessages (s : State) : Prop :=
  ∀ sl ∈ s.slots, sl.alloc = true → sl.st ≠ .finalized → ∃ m, sl.Holds m

/-- Each live Context c that is not Finalized stands for the message `absorbed c`. -/
def State.HoldsMessages (s : State) (absorbed : Nat → List Byte) : Prop :=
  ∀ (c : Nat) (sl : Slot), s.slots[c]? = some sl → sl.alloc = true → sl.st ≠ .finalized → sl.Holds (absorbed c)

/-- The command the next step runs: the outside world's next action writes its word to CMD (R24). -/
def State.nextCommand (s : State) : Option Instr :=
  match s.hostOps with
  | .regWrite addr width v :: _ =>
    if addr = s.cfg.mmioBase ∧ width = 32 then (decode (v.setWidth 32)).toOption else none
  | _ => none

/-- The bytes a Context has absorbed after a step from `s` to `t`, from those before it (R39): an UPDATE that reports OK appends its
source bytes, and a Context that was not live before the step has absorbed none. -/
def absorbedAfter (s t : State) (absorbed : Nat → List Byte) (c : Nat) : List Byte :=
  match liveState s c with
  | none => []
  | some _ =>
    if s.nextCommand = some (.update c) ∧ t.reportsOk = true then absorbed c ++ bytesAt s.mem s.src s.len else absorbed c

/-! ### States that cannot be told apart -/

/-- Two slots that agree in all that a rule reads (R33, R41): ALLOC, and for a live Context everything but the stale bytes
BUF[BCNT .. 63]. -/
structure Slot.SameContext (a b : Slot) : Prop where
  alloc : a.alloc = b.alloc
  st : a.alloc = true → a.st = b.st
  h : a.alloc = true → a.h = b.h
  bcnt : a.alloc = true → a.bcnt = b.bcnt
  bitlen : a.alloc = true → a.bitlen = b.bitlen
  buffered : a.alloc = true → a.buf.toList.take a.bcnt.toNat = b.buf.toList.take b.bcnt.toNat

/-- Two states that differ at most in what is unspecified: the fields of free slots, the stale bytes, and the counter of the
free values. -/
structure State.SameToHost (s t : State) : Prop where
  status : s.status = t.status
  srcAddr : s.srcAddr = t.srcAddr
  srcLen : s.srcLen = t.srcLen
  dstAddr : s.dstAddr = t.dstAddr
  slots : List.Forall₂ Slot.SameContext s.slots t.slots
  mem : s.mem = t.mem
  cfg : s.cfg = t.cfg
  hostOps : s.hostOps = t.hostOps
  readData : s.readData = t.readData

/-- Two outcomes the host cannot tell apart. -/
inductive SameOutcome : Host.Outcome State Fault Refusal → Host.Outcome State Fault Refusal → Prop where
  | next {s t : State} (h : s.SameToHost t) : SameOutcome (.next s) (.next t)
  | fault (f : Fault) : SameOutcome (.fault f) (.fault f)
  | refused (r : Refusal) : SameOutcome (.refused r) (.refused r)

end Sys2Proof.Machine
end

