-- ==== Sys2Proof/Certificates/Slice0/Obligations.lean ====
section
/-! DEFINITION. The statements for the provers, from the spec's numbered rules. `exec i s = .next t` says that the command `i`
completes in the state `s`; every statement about a result says so as its conclusion, for every form of the command. -/

open Sys2Proof Sys2Proof.Machine

/-! ### Encoding (30_encoding.md) -/

/-- Decoding the word of a well-formed command gives the command back, with every handle (30_encoding.md section 3). -/
def Obligations.DecodeOfEncodeIsTheCommand : Prop :=
  ∀ i : Instr, i.wellFormed = true → decode (encode i) = .ok i

/-- A word that decodes to a command is that command's word: no bit of a legal word is dropped. -/
def Obligations.EncodeOfDecodeIsTheWord : Prop :=
  ∀ (w : Word) (i : Instr), decode w = .ok i → i.wellFormed = true ∧ encode i = w

/-- The opcode map: a word decodes to a row's command exactly when `w & mask = match`, with c = CMD[15:8], and to no command
when it matches no row. -/
def Obligations.WordDecodesByMatchAndMask : Prop :=
  ∀ w : Word,
    (decode w = .ok .init ↔ w &&& 0xFFFFFFFF = 0x00000001) ∧
    (∀ c, decode w = .ok (.update c) ↔ w &&& 0xFFFF00FF = 0x00000002 ∧ c = w.toNat / 2 ^ 8 % 2 ^ 8) ∧
    (∀ c, decode w = .ok (.final c) ↔ w &&& 0xFFFF00FF = 0x00000003 ∧ c = w.toNat / 2 ^ 8 % 2 ^ 8) ∧
    (∀ c, decode w = .ok (.free c) ↔ w &&& 0xFFFF00FF = 0x00000004 ∧ c = w.toNat / 2 ^ 8 % 2 ^ 8) ∧
    (decode w = .ok .hash ↔ w &&& 0xFFFFFFFF = 0x00000005)

/-- The count of R75, which the spec derives from R73 and R74: every word decodes to one command or to an error, and the legal words are 1 INIT, 256 UPDATE, 256 FINAL, 256 FREE
and 1 HASH words, 770 in all. -/
def Obligations.LegalWordsNumber770 : Prop :=
  ∃ initWords updateWords finalWords freeWords hashWords : List Word,
    initWords.length = 1 ∧ updateWords.length = 256 ∧ finalWords.length = 256 ∧ freeWords.length = 256 ∧ hashWords.length = 1 ∧
    (initWords ++ updateWords ++ finalWords ++ freeWords ++ hashWords).Nodup ∧
    (initWords ++ updateWords ++ finalWords ++ freeWords ++ hashWords).length = 770 ∧
    ∀ w,
      (w ∈ initWords ↔ decode w = .ok .init) ∧
      (w ∈ updateWords ↔ ∃ c, decode w = .ok (.update c)) ∧
      (w ∈ finalWords ↔ ∃ c, decode w = .ok (.final c)) ∧
      (w ∈ freeWords ↔ ∃ c, decode w = .ok (.free c)) ∧
      (w ∈ hashWords ↔ decode w = .ok .hash) ∧
      (w ∉ initWords ++ updateWords ++ finalWords ++ freeWords ++ hashWords ↔ ∃ e, decode w = .error e)

/-- R74 and R207: the illegal words are those of R74's list; written to CMD, one gives CODE = 4 and HANDLE = 0, changes nothing
else, and is no fault. (The faulted condition, in which every command ends as Fault, is R206's.) -/
def Obligations.IllegalWordReportsIllegalCommand : Prop :=
  (∀ w : Word, IllegalWord w ↔ ∃ e, decode w = .error e) ∧
  ∀ (s : State) (w : Word) (rest : List HostOp), IllegalWord w → faultedField s.status = 0 →
    s.hostOps = cmdWrite s.cfg w :: rest →
    ∃ t, step s = .next t ∧ EndedWith s t 4 0 ∧ t = { s with status := t.status, hostOps := rest }

/-- Command words of every row, written out from the encodings, decode to their commands (95_test_vectors.md section 4). -/
def Obligations.ListedWordsDecode : Prop :=
  decode 0x00000001 = .ok .init ∧ decode 0x00000102 = .ok (.update 1) ∧ decode 0x0000FF02 = .ok (.update 255) ∧
  decode 0x00002A03 = .ok (.final 42) ∧ decode 0x00000704 = .ok (.free 7) ∧ decode 0x00000005 = .ok .hash ∧
  decode 0x00000000 = .error .reservedOpcode ∧ decode 0x00000012 = .error .rsv0NotZero ∧
  decode 0x00010002 = .error .rsv1NotZero ∧ decode 0x00000105 = .error .ctxNotZero

/-! ### Steps and the register window -/

/-- A step runs the decoded command: when the outside world's next action is a write of `w` to CMD and `w` decodes to `i`, the
step is `exec i` in the state with that action taken off; nothing else is added around it. `withFetchWord` makes that the next
action, and with no action left the block is idle (R216). The list of the outside world's actions is the model's own
(notes/assumptions/5.md). -/
def Obligations.StepRunsTheDecodedCommand : Prop :=
  (∀ (s : State) (w : Word) (i : Instr) (rest : List HostOp), s.hostOps = cmdWrite s.cfg w :: rest → decode w = .ok i →
    step s = exec i { s with hostOps := rest }) ∧
  (∀ (s : State) (w : Word) (i : Instr), decode w = .ok i → step (s.withFetchWord 32 w.toNat) = exec i s) ∧
  (∀ s : State, s.hostOps = [] → step s = .next s)

/-- R59: the admitted accesses are the five registers' own offsets at their own widths. A read of CMD returns 0 and a write to
STATUS is ignored; an operand register takes the value written; a read returns the register and has no side effect; every other
access to the window has no step, an offset of 0x20 or more among them. An operand register is changed by nothing but a write to it and reset, which makes it 0. -/
def Obligations.RegisterWindowAccesses : Prop :=
  ∀ (s : State) (rest : List HostOp) (v : DWord),
    (s.hostOps = .regWrite (s.cfg.mmioBase + 0x04) 32 v :: rest → step s = .next { s with hostOps := rest }) ∧
    (s.hostOps = .regWrite (s.cfg.mmioBase + 0x08) 64 v :: rest → step s = .next { s with hostOps := rest, srcAddr := v }) ∧
    (s.hostOps = .regWrite (s.cfg.mmioBase + 0x10) 64 v :: rest → step s = .next { s with hostOps := rest, srcLen := v }) ∧
    (s.hostOps = .regWrite (s.cfg.mmioBase + 0x18) 64 v :: rest → step s = .next { s with hostOps := rest, dstAddr := v }) ∧
    (s.hostOps = .regRead s.cfg.mmioBase 32 :: rest → step s = .next { s with hostOps := rest, readData := some 0 }) ∧
    (s.hostOps = .regRead (s.cfg.mmioBase + 0x04) 32 :: rest →
      step s = .next { s with hostOps := rest, readData := some (s.status.setWidth 64) }) ∧
    (s.hostOps = .regRead (s.cfg.mmioBase + 0x08) 64 :: rest →
      step s = .next { s with hostOps := rest, readData := some s.srcAddr }) ∧
    (s.hostOps = .regRead (s.cfg.mmioBase + 0x10) 64 :: rest →
      step s = .next { s with hostOps := rest, readData := some s.srcLen }) ∧
    (s.hostOps = .regRead (s.cfg.mmioBase + 0x18) 64 :: rest →
      step s = .next { s with hostOps := rest, readData := some s.dstAddr }) ∧
    (∀ addr width, s.cfg.mmioBase ≤ addr →
      (addr, width) ∉ [(s.cfg.mmioBase, 32), (s.cfg.mmioBase + 0x04, 32), (s.cfg.mmioBase + 0x08, 64),
        (s.cfg.mmioBase + 0x10, 64), (s.cfg.mmioBase + 0x18, 64)] →
      (s.hostOps = .regWrite addr width v :: rest ∨ s.hostOps = .regRead addr width :: rest) →
      step s = .fault (.windowAccessNotAdmitted addr width)) ∧
    (∀ t, step s = .next t → s.hostOps.head? ≠ some .reset →
      ((∀ x, s.hostOps.head? ≠ some (.regWrite (s.cfg.mmioBase + 0x08) 64 x)) → t.srcAddr = s.srcAddr) ∧
      ((∀ x, s.hostOps.head? ≠ some (.regWrite (s.cfg.mmioBase + 0x10) 64 x)) → t.srcLen = s.srcLen) ∧
      ((∀ x, s.hostOps.head? ≠ some (.regWrite (s.cfg.mmioBase + 0x18) 64 x)) → t.dstAddr = s.dstAddr)) ∧
    (s.hostOps = .reset :: rest → ∃ t, step s = .next t ∧ t.srcAddr = 0 ∧ t.srcLen = 0 ∧ t.dstAddr = 0)

/-- The host's write of a byte of host memory between commands: the byte reads back, every other byte and all of the block are
as before; at an address that does not answer there is no step. That the host writes byte by byte, and stops there, is the
model's reading (notes/assumptions/5.md and 9.md). -/
def Obligations.HostMemoryWriteStoresOneByte : Prop :=
  ∀ (s : State) (a : Nat) (v : Byte) (rest : List HostOp), s.hostOps = .memWrite a v :: rest →
    (allAdmitted s.cfg a 1 → ∃ t, step s = .next t ∧ t = { s with hostOps := rest, mem := t.mem } ∧
      sameOutside s.mem t.mem a 1 ∧ (Memory.wf s.mem = true → Memory.read t.mem a = v)) ∧
    (¬ allAdmitted s.cfg a 1 → ∃ f, step s = .fault f)

/-- A listing line runs as its host writes (R76): the operand registers its command reads are set, the others are left, and
the command is executed; `.word w` is a raw CMD write of any word, an illegal one too, which executes the word. -/
def Obligations.ListingLineRunsItsCommand : Prop :=
  ∀ (s : State) (rest : List HostOp) (c : Nat) (src len dst : DWord) (w : Word), c < 256 →
    (Host.Core.run Sys2Proof.core 1 { s with hostOps := listingWrites s.cfg .init ++ rest } =
      exec .init { s with hostOps := rest }) ∧
    (Host.Core.run Sys2Proof.core 3 { s with hostOps := listingWrites s.cfg (.update c src len) ++ rest } =
      exec (.update c) { s with hostOps := rest, srcAddr := src, srcLen := len }) ∧
    (Host.Core.run Sys2Proof.core 2 { s with hostOps := listingWrites s.cfg (.final c dst) ++ rest } =
      exec (.final c) { s with hostOps := rest, dstAddr := dst }) ∧
    (Host.Core.run Sys2Proof.core 1 { s with hostOps := listingWrites s.cfg (.free c) ++ rest } =
      exec (.free c) { s with hostOps := rest }) ∧
    (Host.Core.run Sys2Proof.core 4 { s with hostOps := listingWrites s.cfg (.hash dst src len) ++ rest } =
      exec .hash { s with hostOps := rest, srcAddr := src, srcLen := len, dstAddr := dst }) ∧
    (Host.Core.run Sys2Proof.core 1 { s with hostOps := listingWrites s.cfg (.word w) ++ rest } =
      execute w { s with hostOps := rest })

/-! ### Status, faults, priority (60_exceptions.md) -/

/-- R201: `finish` writes CODE and HANDLE, keeps FAULTED and FCAUSE, makes the reserved bits 0 and changes nothing but STATUS;
and over all commands HANDLE is the slot INIT allocated when INIT reports OK, and 0 otherwise. -/
def Obligations.FinishRewritesWholeStatus : Prop :=
  (∀ (s : State) (code : StatusCode) (handle : BitVec 8),
    EndedWith s (s.finish code handle) (codeBits code) handle ∧ OnlyStatusChanged s (s.finish code handle)) ∧
  ∀ (i : Instr) (s t : State), exec i s = .next t →
    reservedLow t.status = 0 ∧ reservedHigh t.status = 0 ∧
    (i = .init → codeField t.status = 0 → ∃ h, IsLeastFree s h ∧ handleField t.status = BitVec.ofNat 8 h) ∧
    (¬ (i = .init ∧ codeField t.status = 0) → handleField t.status = 0) ∧
    (codeField t.status ≠ 5 →
      faultedField t.status = faultedField s.status ∧ fcauseField t.status = fcauseField s.status)

/-- R203: raising a fault sets FAULTED, CODE = 5 and HANDLE = 0, records the cause only when FAULTED was 0, and changes nothing
but STATUS; and over all commands, one that ends with CODE = 5 raises exactly one of the two causes when FAULTED was 0, and
keeps the first cause when it was 1. -/
def Obligations.RaisingAFaultLatchesTheFirstCause : Prop :=
  (∀ (s : State) (cause : FaultCause),
    RaisedFault s (s.raiseFault cause) (if faultedField s.status = 0 then causeBits cause else fcauseField s.status)) ∧
  causeBits .badHandle = 1 ∧ causeBits .lengthOverflow = 2 ∧
  ∀ (i : Instr) (s t : State), exec i s = .next t → codeField t.status = 5 →
    (faultedField s.status = 0 → RaisedFault s t 1 ∨ RaisedFault s t 2) ∧
    (faultedField s.status = 1 → RaisedFault s t (fcauseField s.status))

/-- R206: in the faulted condition every command word, legal or not, ends with CODE = 5 and HANDLE = 0, FAULTED and FCAUSE as
they were, and nothing else changed; the operand registers still work; only reset clears the condition; and such a state is
never final. -/
def Obligations.FaultedBlockRefusesEveryCommand : Prop :=
  ∀ s : State, faultedField s.status = 1 →
    s.final = false ∧
    (∀ i : Instr, ∃ t, exec i s = .next t ∧ RaisedFault s t (fcauseField s.status)) ∧
    (∀ (w : Word) (rest : List HostOp), s.hostOps = cmdWrite s.cfg w :: rest →
      ∃ t, step s = .next t ∧ RaisedFault { s with hostOps := rest } t (fcauseField s.status)) ∧
    (∀ (v : DWord) (rest : List HostOp),
      (s.hostOps = srcAddrWrite s.cfg v :: rest → step s = .next { s with hostOps := rest, srcAddr := v }) ∧
      (s.hostOps = srcLenWrite s.cfg v :: rest → step s = .next { s with hostOps := rest, srcLen := v }) ∧
      (s.hostOps = dstAddrWrite s.cfg v :: rest → step s = .next { s with hostOps := rest, dstAddr := v }) ∧
      (s.hostOps = .regRead (s.cfg.mmioBase + 0x08) 64 :: rest →
        step s = .next { s with hostOps := rest, readData := some s.srcAddr }) ∧
      (s.hostOps = .regRead (s.cfg.mmioBase + 0x10) 64 :: rest →
        step s = .next { s with hostOps := rest, readData := some s.srcLen }) ∧
      (s.hostOps = .regRead (s.cfg.mmioBase + 0x18) 64 :: rest →
        step s = .next { s with hostOps := rest, readData := some s.dstAddr })) ∧
    (∀ t, step s = .next t → s.hostOps.head? ≠ some .reset →
      faultedField t.status = 1 ∧ fcauseField t.status = fcauseField s.status) ∧
    (∀ rest, s.hostOps = .reset :: rest → ∃ t, step s = .next t ∧ faultedField t.status = 0)

/-- R208: of the conditions that apply to a command word, the first in R208's order is reported, by its CODE and, where it is a
fault raised now, its FCAUSE, and nothing but STATUS changes. When none applies the command reports OK, or it is stuck at a
host-memory address that does not answer (R52, R53). -/
def Obligations.FirstConditionInOrderIsReported : Prop :=
  ∀ (s : State) (w : Word) (rest : List HostOp), s.hostOps = cmdWrite s.cfg w :: rest →
    (∀ (earlier later : List Condition) (k : Condition), Condition.order = earlier ++ k :: later →
      (∀ j ∈ earlier, ¬ j.Applies s w) → k.Applies s w →
      ∃ t, step s = .next t ∧ codeField t.status = k.code ∧ handleField t.status = 0 ∧
        fcauseField t.status = k.fcauseAfter s ∧ (k.code = 5 ↔ faultedField t.status = 1) ∧
        t = { s with status := t.status, hostOps := rest }) ∧
    ((∀ k ∈ Condition.order, ¬ k.Applies s w) →
      (∃ t, step s = .next t ∧ codeField t.status = 0) ∨ ∃ a, step s = .fault (.hostMemNotAdmitted a))

/-- R209: on every outcome other than OK no host memory is written; indeed nothing but STATUS changes (R160). -/
def Obligations.FailedCommandChangesOnlyStatus : Prop :=
  ∀ (i : Instr) (s t : State), exec i s = .next t → codeField t.status ≠ 0 → OnlyStatusChanged s t ∧ t.mem = s.mem

/-! ### Reset (70_reset_and_hazards.md) -/

/-- The reset event (R230, R231): STATUS and the operand registers are 0, every slot is free, host memory and the platform's
parameters are as before. Nothing is said of the free slots' other fields, which the spec leaves unspecified; that the host's own
later actions and its last read value stay is the model's choice (notes/assumptions/8.md). -/
def Obligations.ResetEventFreesEverySlot : Prop :=
  ∀ (s : State) (rest : List HostOp), s.hostOps = .reset :: rest →
    ∃ t, step s = .next t ∧ t.status = 0 ∧ t.srcAddr = 0 ∧ t.srcLen = 0 ∧ t.dstAddr = 0 ∧
      t.slots.length = s.slots.length ∧ (∀ sl ∈ t.slots, sl.alloc = false) ∧
      t = { s with status := t.status, srcAddr := t.srcAddr, srcLen := t.srcLen, dstAddr := t.dstAddr, slots := t.slots,
                   hostOps := rest }

/-- The machine right after reset, on every legal platform and on that of `State.reset`: the values the reset table gives, the
invariant of the machine, and no Context that would need a message. The platform of `State.reset` is the model's choice (notes/assumptions/2.md). -/
def Obligations.ResetStateMeetsTheInvariants : Prop :=
  State.reset.Inv ∧ State.reset.TracksMessages ∧
  ∀ (numCtx : Nat) (cfg : Config), 1 ≤ numCtx → numCtx ≤ 256 → cfg.Legal →
    (State.resetOf numCtx cfg).Inv ∧ (State.resetOf numCtx cfg).TracksMessages ∧
    (State.resetOf numCtx cfg).status = 0 ∧ (State.resetOf numCtx cfg).srcAddr = 0 ∧
    (State.resetOf numCtx cfg).srcLen = 0 ∧ (State.resetOf numCtx cfg).dstAddr = 0 ∧
    (State.resetOf numCtx cfg).numCtx = numCtx ∧ ∀ sl ∈ (State.resetOf numCtx cfg).slots, sl.alloc = false

/-! ### The commands (42_context_commands.md) -/

/-- R162, INIT: AllocationFailure when every slot is taken; otherwise the least free slot becomes a Fresh Context with
H = IV, BUF zeroed, BCNT = 0 and BITLEN = 0, and HANDLE names it. Nothing else changes. -/
def Obligations.InitTakesTheLeastFreeSlot : Prop :=
  (∀ w, decode w = .ok .init ↔ w = 0x00000001) ∧
  ∀ s : State, faultedField s.status = 0 →
    ((∀ sl ∈ s.slots, sl.alloc = true) →
      ∃ t, exec .init s = .next t ∧ EndedWith s t 1 0 ∧ OnlyStatusChanged s t) ∧
    (∀ h, IsLeastFree s h →
      ∃ t, exec .init s = .next t ∧ EndedWith s t 0 (BitVec.ofNat 8 h) ∧
        t.slots[h]? = some
          { alloc := true, st := .fresh,
            h := ⟨0x6A09E667, 0xBB67AE85, 0x3C6EF372, 0xA54FF53A, 0x510E527F, 0x9B05688C, 0x1F83D9AB, 0x5BE0CD19⟩,
            buf := Vector.replicate 64 0, bcnt := 0, bitlen := 0 } ∧
        t.slots.length = s.slots.length ∧ (∀ c, c ≠ h → t.slots[c]? = s.slots[c]?) ∧
        t = { s with status := t.status, slots := t.slots })

/-- R163, UPDATE c, whole: the four refusals in the order of the checks; the stuck step where a source byte does not answer; and
the success, in which the slot absorbs the SRC_LEN bytes at SRC_ADDR: BITLEN grows by 8 × SRC_LEN, floor((BCNT + len) / 64)
blocks are compressed, (BCNT + len) mod 64 bytes stay buffered and ST becomes Accumulating; no byte of the
slot but ST changes when SRC_LEN is 0. No other slot, no register but STATUS and no byte of memory changes. -/
def Obligations.UpdateAbsorbsTheSourceBytes : Prop :=
  (∀ w c, decode w = .ok (.update c) ↔ c < 256 ∧ w = BitVec.ofNat 32 (0x00000002 + 256 * c)) ∧
  ∀ (s : State) (c : Nat), faultedField s.status = 0 →
    (liveState s c = none → ∃ t, exec (.update c) s = .next t ∧ RaisedFault s t 1) ∧
    ∀ sl, s.slots[c]? = some sl → sl.alloc = true →
      (sl.st = .finalized → ∃ t, exec (.update c) s = .next t ∧ EndedWith s t 2 0 ∧ OnlyStatusChanged s t) ∧
      (sl.st ≠ .finalized → SourceRejected s →
        ∃ t, exec (.update c) s = .next t ∧ EndedWith s t 3 0 ∧ OnlyStatusChanged s t) ∧
      (sl.st ≠ .finalized → ¬ SourceRejected s → TotalOverflows s sl.bitlen.toNat →
        ∃ t, exec (.update c) s = .next t ∧ RaisedFault s t 2) ∧
      (sl.st ≠ .finalized → ¬ SourceRejected s → ¬ TotalOverflows s sl.bitlen.toNat → ¬ allAdmitted s.cfg s.src s.len →
        ∃ i, i < s.len ∧ exec (.update c) s = .fault (.hostMemNotAdmitted (s.src + i))) ∧
      (sl.st ≠ .finalized → ¬ SourceRejected s → ¬ TotalOverflows s sl.bitlen.toNat → allAdmitted s.cfg s.src s.len →
        ∃ t sl', exec (.update c) s = .next t ∧ EndedWith s t 0 0 ∧ t.slots[c]? = some sl' ∧
          sl'.alloc = true ∧ sl'.st = .accumulating ∧ sl'.bitlen.toNat = sl.bitlen.toNat + 8 * s.len ∧
          sl'.bcnt.toNat = (sl.bcnt.toNat + s.len) % 64 ∧
          sl'.h = compressBlocks ((sl.bcnt.toNat + s.len) / 64)
            (sl.buf.toList.take sl.bcnt.toNat ++ bytesAt s.mem s.src s.len) sl.h ∧
          sl'.buf.toList.take sl'.bcnt.toNat =
            (sl.buf.toList.take sl.bcnt.toNat ++ bytesAt s.mem s.src s.len).drop (64 * ((sl.bcnt.toNat + s.len) / 64)) ∧
          (s.len = 0 → sl' = { sl with st := .accumulating }) ∧
          t.slots.length = s.slots.length ∧ (∀ d, d ≠ c → t.slots[d]? = s.slots[d]?) ∧ t.mem = s.mem ∧
          t = { s with status := t.status, slots := t.slots })

/-- R164, FINAL c, whole: the three refusals in the order of the checks; the stuck step where a destination byte does not answer;
and the success, in which the buffered bytes and PAD are compressed, the 32 bytes of the resulting hash state are written
big-endian at DST_ADDR, and the slot is Finalized. No other slot, no register but STATUS and no byte of memory outside
DST_ADDR .. DST_ADDR + 31 changes. -/
def Obligations.FinalWritesTheDigest : Prop :=
  (∀ w c, decode w = .ok (.final c) ↔ c < 256 ∧ w = BitVec.ofNat 32 (0x00000003 + 256 * c)) ∧
  ∀ (s : State) (c : Nat), faultedField s.status = 0 →
    (liveState s c = none → ∃ t, exec (.final c) s = .next t ∧ RaisedFault s t 1) ∧
    ∀ sl, s.slots[c]? = some sl → sl.alloc = true →
      (sl.st = .finalized → ∃ t, exec (.final c) s = .next t ∧ EndedWith s t 2 0 ∧ OnlyStatusChanged s t) ∧
      (sl.st ≠ .finalized → DestinationRejected s →
        ∃ t, exec (.final c) s = .next t ∧ EndedWith s t 3 0 ∧ OnlyStatusChanged s t) ∧
      (sl.st ≠ .finalized → ¬ DestinationRejected s → ¬ allAdmitted s.cfg s.dst 32 →
        ∃ i, i < 32 ∧ exec (.final c) s = .fault (.hostMemNotAdmitted (s.dst + i))) ∧
      (sl.st ≠ .finalized → ¬ DestinationRejected s → allAdmitted s.cfg s.dst 32 →
        ∃ t sl', exec (.final c) s = .next t ∧ EndedWith s t 0 0 ∧ t.slots[c]? = some sl' ∧
          sl'.alloc = true ∧ sl'.st = .finalized ∧ sl'.bcnt = 0 ∧ sl'.bitlen = sl.bitlen ∧
          sl'.h = compressBlocks (closingBlocks sl.bcnt.toNat)
            (sl.buf.toList.take sl.bcnt.toNat ++ pad sl.bcnt.toNat sl.bitlen) sl.h ∧
          (Memory.wf s.mem = true → bytesAt t.mem s.dst 32 = serialize sl'.h) ∧ sameOutside s.mem t.mem s.dst 32 ∧
          t.slots.length = s.slots.length ∧ (∀ d, d ≠ c → t.slots[d]? = s.slots[d]?) ∧
          t = { s with status := t.status, slots := t.slots, mem := t.mem })

/-- R165, FREE c, whole: a BadHandle fault when c names no live Context; otherwise the slot is free, whichever state its Context
was in, and a second FREE of the handle faults. Nothing else changes (the released slot's other fields are unspecified, and the
model's counter of free values moves on). -/
def Obligations.FreeReleasesTheContext : Prop :=
  (∀ w c, decode w = .ok (.free c) ↔ c < 256 ∧ w = BitVec.ofNat 32 (0x00000004 + 256 * c)) ∧
  ∀ (s : State) (c : Nat), faultedField s.status = 0 →
    (liveState s c = none → ∃ t, exec (.free c) s = .next t ∧ RaisedFault s t 1) ∧
    ∀ sl, s.slots[c]? = some sl → sl.alloc = true →
      ∃ t sl', exec (.free c) s = .next t ∧ EndedWith s t 0 0 ∧ t.slots[c]? = some sl' ∧ sl'.alloc = false ∧
        t.slots.length = s.slots.length ∧ (∀ d, d ≠ c → t.slots[d]? = s.slots[d]?) ∧ t.mem = s.mem ∧
        t = { s with status := t.status, slots := t.slots, freeCount := t.freeCount } ∧
        ∃ u, exec (.free c) t = .next u ∧ RaisedFault t u 1

/-- R166, HASH, whole: the refusals in the order of the checks; the stuck step where a byte does not answer; and the success, in
which SHA256 of the SRC_LEN bytes at SRC_ADDR, as they stood before the command, is written at DST_ADDR. Every ALLOC is as it was,
only the least free slot's unspecified fields may differ, and no register but STATUS and no byte of memory outside
DST_ADDR .. DST_ADDR + 31 changes. That the written bytes are SHA256 of the source is R140's, which the spec derives from R166's
own steps. -/
def Obligations.HashWritesTheDigestOfItsSource : Prop :=
  (∀ w, decode w = .ok .hash ↔ w = 0x00000005) ∧
  ∀ s : State, faultedField s.status = 0 →
    ((∀ sl ∈ s.slots, sl.alloc = true) →
      ∃ t, exec .hash s = .next t ∧ EndedWith s t 1 0 ∧ OnlyStatusChanged s t) ∧
    ∀ h, IsLeastFree s h →
      (SourceRejected s → ∃ t, exec .hash s = .next t ∧ EndedWith s t 3 0 ∧ OnlyStatusChanged s t) ∧
      (¬ SourceRejected s → TotalOverflows s 0 → ∃ t, exec .hash s = .next t ∧ RaisedFault s t 2) ∧
      (¬ SourceRejected s → ¬ TotalOverflows s 0 → DestinationRejected s →
        ∃ t, exec .hash s = .next t ∧ EndedWith s t 3 0 ∧ OnlyStatusChanged s t) ∧
      (¬ SourceRejected s → ¬ TotalOverflows s 0 → ¬ DestinationRejected s →
        ¬ (allAdmitted s.cfg s.src s.len ∧ allAdmitted s.cfg s.dst 32) →
        ∃ a, exec .hash s = .fault (.hostMemNotAdmitted a) ∧
          ((s.src ≤ a ∧ a < s.src + s.len) ∨ (s.dst ≤ a ∧ a < s.dst + 32))) ∧
      (¬ SourceRejected s → ¬ TotalOverflows s 0 → ¬ DestinationRejected s →
        allAdmitted s.cfg s.src s.len → allAdmitted s.cfg s.dst 32 →
        ∃ t, exec .hash s = .next t ∧ EndedWith s t 0 0 ∧
          (Memory.wf s.mem = true → bytesAt t.mem s.dst 32 = sha256 (bytesAt s.mem s.src s.len)) ∧
          sameOutside s.mem t.mem s.dst 32 ∧
          t.slots.map (fun sl : Slot => sl.alloc) = s.slots.map (fun sl : Slot => sl.alloc) ∧
          (∀ c, c ≠ h → t.slots[c]? = s.slots[c]?) ∧
          t = { s with status := t.status, slots := t.slots, mem := t.mem, freeCount := t.freeCount })

/-- R161, the Context state machine: what each successful command does to ALLOC and ST, that every other outcome leaves them,
and what UPDATE, FINAL and FREE report on a Finalized Context and on a bad handle. -/
def Obligations.ContextStateMachine : Prop :=
  ∀ (i : Instr) (s t : State), exec i s = .next t →
    (i = .init → codeField t.status = 0 →
      ∃ c, c < s.numCtx ∧ liveState s c = none ∧ liveState t c = some .fresh ∧ ∀ d, d ≠ c → liveState t d = liveState s d) ∧
    (∀ c, i = .update c → codeField t.status = 0 →
      (liveState s c = some .fresh ∨ liveState s c = some .accumulating) ∧ liveState t c = some .accumulating ∧
      ∀ d, d ≠ c → liveState t d = liveState s d) ∧
    (∀ c, i = .final c → codeField t.status = 0 →
      (liveState s c = some .fresh ∨ liveState s c = some .accumulating) ∧ liveState t c = some .finalized ∧
      ∀ d, d ≠ c → liveState t d = liveState s d) ∧
    (∀ c, i = .free c → codeField t.status = 0 →
      liveState s c ≠ none ∧ liveState t c = none ∧ ∀ d, d ≠ c → liveState t d = liveState s d) ∧
    (i = .hash ∨ codeField t.status ≠ 0 → ∀ d, liveState t d = liveState s d) ∧
    (∀ c, i = .update c ∨ i = .final c → faultedField s.status = 0 → liveState s c = some .finalized →
      codeField t.status = 2) ∧
    (∀ c, i = .update c ∨ i = .final c ∨ i = .free c → faultedField s.status = 0 → liveState s c = none →
      codeField t.status = 5 ∧ fcauseField t.status = 1)

/-- Terminality: on a Finalized Context UPDATE and FINAL report InvalidState and change nothing but STATUS, and until a FREE of
the handle or reset no step changes the slot. -/
def Obligations.FinalizedContextIsTerminal : Prop :=
  ∀ (s : State) (c : Nat) (sl : Slot), s.slots[c]? = some sl → sl.alloc = true → sl.st = .finalized →
    (faultedField s.status = 0 → ∀ i, i = .update c ∨ i = .final c →
      ∃ t, exec i s = .next t ∧ EndedWith s t 2 0 ∧ OnlyStatusChanged s t) ∧
    (∀ t, step s = .next t → s.hostOps.head? ≠ some .reset →
      (∀ v, s.hostOps.head? = some (.regWrite s.cfg.mmioBase 32 v) → decode (v.setWidth 32) ≠ .ok (.free c)) →
      t.slots[c]? = some sl)

/-! ### Whole-machine rules -/

/-- No command writes SRC_ADDR, SRC_LEN or DST_ADDR (R26 to R28), the platform's parameters or the number of slots, and a command
on handle c changes no other slot. -/
def Obligations.CommandsKeepOperandsAndOtherSlots : Prop :=
  ∀ (i : Instr) (s t : State), exec i s = .next t →
    t.srcAddr = s.srcAddr ∧ t.srcLen = s.srcLen ∧ t.dstAddr = s.dstAddr ∧ t.cfg = s.cfg ∧ t.hostOps = s.hostOps ∧
    t.readData = s.readData ∧ t.slots.length = s.slots.length ∧
    (∀ c, i = .update c ∨ i = .final c ∨ i = .free c → ∀ d, d ≠ c → t.slots[d]? = s.slots[d]?) ∧
    (i = .init ∨ i = .hash → ∀ (d : Nat) (sl : Slot), s.slots[d]? = some sl → sl.alloc = true → t.slots[d]? = some sl)

/-- A command has no next state only at a host-memory address inside its own range, and inside the address space, that the
platform does not admit (R51 to R53): UPDATE and HASH in the source range, FINAL and HASH in the destination range. INIT and FREE
always complete. No command is refused. -/
def Obligations.CommandsStopOnlyAtUnadmittedAddresses : Prop :=
  ∀ (i : Instr) (s : State),
    (∃ t, exec i s = .next t) ∨
    ∃ a, exec i s = .fault (.hostMemNotAdmitted a) ∧ a < s.cfg.memSize ∧ admits s.cfg a = false ∧
      ((((∃ c, i = .update c) ∨ i = .hash) ∧ s.src ≤ a ∧ a < s.src + s.len) ∨
       (((∃ c, i = .final c) ∨ i = .hash) ∧ s.dst ≤ a ∧ a < s.dst + 32))

/-- UPDATE and HASH read no byte of host memory outside SRC_ADDR .. SRC_ADDR + SRC_LEN - 1, and INIT, FINAL (R58) and FREE read
none: in two states that differ only in bytes the command does not read it ends alike, in the same block state, and every byte is
either left as it was in both or written with one value. -/
def Obligations.ResultDependsOnlyOnTheSourceBytes : Prop :=
  ∀ (i : Instr) (s : State) (m : Memory), Memory.wf s.mem = true → Memory.wf m = true →
    ((∃ c, i = .update c) ∨ i = .hash → bytesAt m s.src s.len = bytesAt s.mem s.src s.len) →
    (∀ f, exec i s = .fault f ↔ exec i { s with mem := m } = .fault f) ∧
    ∀ t, exec i s = .next t → ∃ m', exec i { s with mem := m } = .next { t with mem := m' } ∧
      ∀ b, (Memory.read t.mem b = Memory.read s.mem b ∧ Memory.read m' b = Memory.read m b) ∨
        Memory.read m' b = Memory.read t.mem b

/-- What a rule leaves unspecified cannot be observed (R33, R41): two states that differ only in free slots' fields, stale buffer
bytes and the counter of free values take steps the host cannot tell apart. -/
def Obligations.UnspecifiedFieldsAreUnobservable : Prop :=
  ∀ s t : State, s.SameToHost t → SameOutcome (step s) (step t)

/-- Every step keeps the invariant of the machine: legal parameters and STATUS, canonical memory inside the address space, and
the counts of R38 to R40 in every live slot. -/
def Obligations.EveryStepKeepsTheInvariant : Prop :=
  ∀ s t : State, s.Inv → step s = .next t → t.Inv

/-- Every step keeps it that each live Context that is not Finalized stands for some message (R39): its BITLEN, BCNT, buffered
bytes and hash state are those of one message. Which message it is, `EveryStepKeepsTheAbsorbedBytes` says. -/
def Obligations.EveryStepKeepsTheMessages : Prop :=
  ∀ s t : State, s.TracksMessages → step s = .next t → t.TracksMessages

/-! ### Messages and digests (41_block_functions.md R140) -/

/-- A successful UPDATE extends the message of its Context by the source bytes. -/
def Obligations.UpdateExtendsTheMessage : Prop :=
  ∀ (s : State) (c : Nat) (sl : Slot) (m : List Byte), s.slots[c]? = some sl → sl.alloc = true → sl.Holds m →
    ∀ t, exec (.update c) s = .next t → codeField t.status = 0 →
      ∃ sl', t.slots[c]? = some sl' ∧ sl'.Holds (m ++ bytesAt s.mem s.src s.len)

/-- FINAL of a Context that stands for `m` writes SHA256(m) at DST_ADDR, whenever the destination answers. -/
def Obligations.FinalWritesSha256OfTheMessage : Prop :=
  ∀ (s : State) (c : Nat) (sl : Slot) (m : List Byte), faultedField s.status = 0 → s.slots[c]? = some sl → sl.alloc = true →
    sl.st ≠ .finalized → sl.Holds m → Memory.wf s.mem = true → ¬ DestinationRejected s → allAdmitted s.cfg s.dst 32 →
    ∃ t, exec (.final c) s = .next t ∧ codeField t.status = 0 ∧ bytesAt t.mem s.dst 32 = sha256 m

/-- The chunking invariance of R140, which the spec derives from its other rules: INIT, then successful UPDATEs whose source bytes concatenate to M, then a successful FINAL write
SHA256(M) at DST_ADDR, whatever the chunks, empty ones included; and so does a successful HASH of M. -/
def Obligations.EveryChunkingGivesTheSameDigest : Prop :=
  (∀ (s s₁ s₂ s₃ : State) (h : Nat) (chunks : List (DWord × DWord)) (dst : DWord), Memory.wf s.mem = true →
    IsLeastFree s h → exec .init s = .next s₁ → s₁.reportsOk = true →
    feed h chunks s₁ = some s₂ →
    exec (.final h) { s₂ with dstAddr := dst } = .next s₃ → s₃.reportsOk = true →
    bytesAt s₃.mem dst.toNat 32 = sha256 (chunkBytes s.mem chunks)) ∧
  (∀ s t : State, Memory.wf s.mem = true → exec .hash s = .next t → t.reportsOk = true →
    bytesAt t.mem s.dst 32 = sha256 (bytesAt s.mem s.src s.len))

/-- R77: HASH against the listing INIT; UPDATE h; FINAL h; FREE h. When every command of the sequence reports OK, HASH has the same
effect on host memory and reports OK; when one fails, HASH reports the first failing command's code and fault cause and writes no
host memory. In every case HASH leaves the ALLOC bits and writes HANDLE = 0. -/
def Obligations.HashIsInitUpdateFinalFree : Prop :=
  ∀ (s s₁ : State) (h : Nat), exec .init s = .next s₁ →
    (codeField s₁.status ≠ 0 → ∃ t, exec .hash s = .next t ∧ codeField t.status = codeField s₁.status ∧
      fcauseField t.status = fcauseField s₁.status ∧ t.mem = s.mem) ∧
    (∀ s₂, codeField s₁.status = 0 → IsLeastFree s h → exec (.update h) s₁ = .next s₂ → codeField s₂.status ≠ 0 →
      ∃ t, exec .hash s = .next t ∧ codeField t.status = codeField s₂.status ∧
        fcauseField t.status = fcauseField s₂.status ∧ t.mem = s.mem) ∧
    (∀ s₂ s₃, codeField s₁.status = 0 → IsLeastFree s h → exec (.update h) s₁ = .next s₂ → codeField s₂.status = 0 →
      exec (.final h) s₂ = .next s₃ → codeField s₃.status ≠ 0 →
      ∃ t, exec .hash s = .next t ∧ codeField t.status = codeField s₃.status ∧
        fcauseField t.status = fcauseField s₃.status ∧ t.mem = s.mem) ∧
    (∀ s₂ s₃ s₄, codeField s₁.status = 0 → IsLeastFree s h → exec (.update h) s₁ = .next s₂ → codeField s₂.status = 0 →
      exec (.final h) s₂ = .next s₃ → codeField s₃.status = 0 → exec (.free h) s₃ = .next s₄ → codeField s₄.status = 0 →
      ∃ t, exec .hash s = .next t ∧ codeField t.status = 0 ∧ t.mem = s₄.mem) ∧
    (∀ t, exec .hash s = .next t →
      t.slots.map (fun sl : Slot => sl.alloc) = s.slots.map (fun sl : Slot => sl.alloc) ∧ handleField t.status = 0)

/-! ### Block functions and primitives (40_primitives.md, 41_block_functions.md) -/

/-- R133: the schedule's first 16 words are the block's big-endian words, and each later one is the sum of R133's recurrence. -/
def Obligations.ScheduleFollowsItsRecurrence : Prop :=
  ∀ b : Block, ∃ W : Nat → Word, expand b = (List.range 64).map W ∧
    (∀ t, t < 16 → W t = be32 (b.toList.getD (4 * t) 0) (b.toList.getD (4 * t + 1) 0) (b.toList.getD (4 * t + 2) 0)
      (b.toList.getD (4 * t + 3) 0)) ∧
    ∀ t, 16 ≤ t → t < 64 → W t = smallSigma1 (W (t - 2)) + W (t - 7) + smallSigma0 (W (t - 15)) + W (t - 16)

/-- R135 and R136, whose assignments the spec marks as general knowledge: COMPRESS runs 64 rounds on the working variables, round t with K[t] and W[t], from a..h = H[0..7], and adds the
result to H. -/
def Obligations.CompressRunsSixtyFourRounds : Prop :=
  ∀ (H : HashState) (b : Block), ∃ v : Nat → WorkVars,
    v 0 = ⟨H.h0, H.h1, H.h2, H.h3, H.h4, H.h5, H.h6, H.h7⟩ ∧
    (∀ t, t < 64 →
      let T1 := (v t).h + bigSigma1 (v t).e + ch (v t).e (v t).f (v t).g + roundConstants.getD t 0 + (expand b).getD t 0
      let T2 := bigSigma0 (v t).a + maj (v t).a (v t).b (v t).c
      v (t + 1) = ⟨T1 + T2, (v t).a, (v t).b, (v t).c, (v t).d + T1, (v t).e, (v t).f, (v t).g⟩) ∧
    compress H b = ⟨H.h0 + (v 64).a, H.h1 + (v 64).b, H.h2 + (v 64).c, H.h3 + (v 64).d, H.h4 + (v 64).e, H.h5 + (v 64).f,
      H.h6 + (v 64).g, H.h7 + (v 64).h⟩

/-- The rotations, shifts and mixing functions, bit by bit (R100, R101, R103 to R108): ROTR moves bit i + n (modulo 32) to bit i, SHR
brings in zeros, Ch selects by its first argument, Maj takes the value of at least two of its arguments, and the four sigmas are the
exclusive or of their rotations and shift. The spec marks the formulas and amounts as general knowledge. -/
def Obligations.MixingFunctionsBitByBit : Prop :=
  ∀ (x y z : Word) (i : Nat), i < 32 →
    (∀ n, n < 32 → (rotr x n).getLsbD i = x.getLsbD ((i + n) % 32)) ∧
    (∀ n, n < 32 → (shr x n).toNat = x.toNat / 2 ^ n) ∧
    (ch x y z).getLsbD i = (if x.getLsbD i then y.getLsbD i else z.getLsbD i) ∧
    ((maj x y z).getLsbD i = true ↔
      2 ≤ (x.getLsbD i).toNat + (y.getLsbD i).toNat + (z.getLsbD i).toNat) ∧
    (bigSigma0 x).getLsbD i = ((x.getLsbD ((i + 2) % 32) ^^ x.getLsbD ((i + 13) % 32)) ^^ x.getLsbD ((i + 22) % 32)) ∧
    (bigSigma1 x).getLsbD i = ((x.getLsbD ((i + 6) % 32) ^^ x.getLsbD ((i + 11) % 32)) ^^ x.getLsbD ((i + 25) % 32)) ∧
    (smallSigma0 x).getLsbD i = ((x.getLsbD ((i + 7) % 32) ^^ x.getLsbD ((i + 18) % 32)) ^^ x.getLsbD (i + 3)) ∧
    (smallSigma1 x).getLsbD i = ((x.getLsbD ((i + 17) % 32) ^^ x.getLsbD ((i + 19) % 32)) ^^ x.getLsbD (i + 10))

/-- R112, R113, R114: the codecs are big-endian, and BE32 and BE32enc are inverse to each other. -/
def Obligations.CodecsAreBigEndian : Prop :=
  (∀ b0 b1 b2 b3 : Byte,
    (be32 b0 b1 b2 b3).toNat = b0.toNat * 2 ^ 24 + b1.toNat * 2 ^ 16 + b2.toNat * 2 ^ 8 + b3.toNat ∧
    be32enc (be32 b0 b1 b2 b3) = [b0, b1, b2, b3]) ∧
  (∀ w : Word, ∃ b0 b1 b2 b3, be32enc w = [b0, b1, b2, b3] ∧ be32 b0 b1 b2 b3 = w) ∧
  (∀ v : DWord, (be64 v).length = 8 ∧ (be64 v).foldl (fun acc b => acc * 256 + b.toNat) 0 = v.toNat)

/-- R109 and R110: K[t] is the first 32 bits of the fractional part of the cube root of the (t+1)-th prime, and IV[i] that of the
square root of the (i+1)-th prime, by exact integer arithmetic. The spec marks both as general knowledge. -/
def Obligations.ConstantsAreRootsOfPrimes : Prop :=
  roundConstants.length = 64 ∧
  (∀ t, t < 64 → ∃ r, r ^ 3 ≤ Nat.nth Nat.Prime t * 2 ^ 96 ∧ Nat.nth Nat.Prime t * 2 ^ 96 < (r + 1) ^ 3 ∧
    (roundConstants.getD t 0).toNat = r % 2 ^ 32) ∧
  ∀ i, i < 8 → ∃ r, r ^ 2 ≤ Nat.nth Nat.Prime i * 2 ^ 64 ∧ Nat.nth Nat.Prime i * 2 ^ 64 < (r + 1) ^ 2 ∧
    ([iv.h0, iv.h1, iv.h2, iv.h3, iv.h4, iv.h5, iv.h6, iv.h7].getD i 0).toNat = r % 2 ^ 32

/-- R130, and R131, which the spec derives from it: PAD is 0x80, the least number of zero bytes that brings the length to 56 modulo 64, and the length in bits,
big-endian; with the n buffered bytes it fills one block when n ≤ 55 and two when n ≥ 56. -/
def Obligations.PaddingFillsTheClosingBlocks : Prop :=
  ∀ (n : Nat) (l : DWord), n < 64 →
    (∃ z, pad n l = [0x80] ++ List.replicate z 0 ++ be64 l ∧ z ≤ 63 ∧ (n + 1 + z) % 64 = 56 ∧
      ∀ z', (n + 1 + z') % 64 = 56 → z ≤ z') ∧
    (n ≤ 55 → closingBlocks n = 1 ∧ n + (pad n l).length = 64) ∧
    (56 ≤ n → closingBlocks n = 2 ∧ n + (pad n l).length = 128)

/-- R132: FINALIZE compresses exactly BUF[0 .. BCNT-1] followed by PAD(BCNT, BITLEN), cut into 64-byte blocks, and leaves the last of
them in BUF and BCNT = 0; BITLEN, ALLOC and ST stay. The stale bytes of BUF have no effect on H. -/
def Obligations.FinalizeCompressesThePaddedBytes : Prop :=
  ∀ sl : Slot,
    (finalize sl).h = compressBlocks (closingBlocks sl.bcnt.toNat)
      (sl.buf.toList.take sl.bcnt.toNat ++ pad sl.bcnt.toNat sl.bitlen) sl.h ∧
    (finalize sl).buf.toList = (sl.buf.toList.take sl.bcnt.toNat ++ pad sl.bcnt.toNat sl.bitlen).drop
      (64 * (closingBlocks sl.bcnt.toNat - 1)) ∧
    (finalize sl).bcnt = 0 ∧ (finalize sl).bitlen = sl.bitlen ∧ (finalize sl).alloc = sl.alloc ∧ (finalize sl).st = sl.st ∧
    ∀ b : Block, b.toList.take sl.bcnt.toNat = sl.buf.toList.take sl.bcnt.toNat → (finalize { sl with buf := b }).h = (finalize sl).h

/-- R138: ABSORB stores one byte at BUF[BCNT]; the 64th byte compresses the buffer and returns BCNT to 0, any other advances BCNT
by one. BITLEN, ALLOC, ST and the other bytes of BUF stay. -/
def Obligations.AbsorbCompressesAtTheSixtyFourthByte : Prop :=
  ∀ (sl : Slot) (x : Byte),
    (absorb sl x).buf.toList = sl.buf.toList.set sl.bcnt.toNat x ∧
    (absorb sl x).bitlen = sl.bitlen ∧ (absorb sl x).alloc = sl.alloc ∧ (absorb sl x).st = sl.st ∧
    (sl.bcnt.toNat = 63 → (absorb sl x).bcnt = 0 ∧
      ∀ b : Block, b.toList = sl.buf.toList.take 63 ++ [x] → (absorb sl x).h = compress sl.h b) ∧
    (sl.bcnt.toNat ≠ 63 → (absorb sl x).bcnt.toNat = sl.bcnt.toNat + 1 ∧ (absorb sl x).h = sl.h)

/-- R139: digest byte D[4i + j] is H[i][31 - 8j : 24 - 8j], for i = 0..7 and j = 0..3, and there are 32 of them. -/
def Obligations.DigestIsTheBigEndianHashState : Prop :=
  ∀ H : HashState, (serialize H).length = 32 ∧
    ∀ i j, i < 8 → j < 4 →
      ((serialize H).getD (4 * i + j) 0).toNat =
        ([H.h0, H.h1, H.h2, H.h3, H.h4, H.h5, H.h6, H.h7].getD i 0).toNat / 2 ^ (24 - 8 * j) % 2 ^ 8

/-! ### Further statements about a step -/

/-- Every step keeps it that each live Context that is not Finalized stands for the bytes it has absorbed since its INIT (R39):
whatever the bytes `absorbed` so far, an UPDATE of the Context that reports OK appends the SRC_LEN bytes at SRC_ADDR to them, a
Context that the step creates has absorbed none, and no other step changes them. -/
def Obligations.EveryStepKeepsTheAbsorbedBytes : Prop :=
  ∀ (s t : State) (absorbed : Nat → List Byte), s.HoldsMessages absorbed → step s = .next t →
    t.HoldsMessages (absorbedAfter s t absorbed)

/-- A host access below MMIO_BASE, outside the window of which R59 speaks, has no step either. This is the model's reading
(notes/assumptions/10.md). -/
def Obligations.AccessBelowTheWindowHasNoStep : Prop :=
  ∀ (s : State) (rest : List HostOp) (addr width : Nat) (v : DWord), addr < s.cfg.mmioBase →
    s.hostOps = .regWrite addr width v :: rest ∨ s.hostOps = .regRead addr width :: rest →
    step s = .fault (.windowAccessNotAdmitted addr width)
end

