-- ==== Sys2Proof/Laws/State.lean ====
section
/-! SUPPORT. One lemma for each field of each update of the state, and the fields of a STATUS word, so that no later proof
unfolds a record update or a bit-field. -/

namespace Sys2Proof.Machine

/-! ### The fields of a STATUS word built from its fields -/

@[simp] theorem codeField_statusWord (code : BitVec 4) (handle : BitVec 8) (faulted : BitVec 1) (fcause : BitVec 2) :
    codeField (statusWord code handle faulted fcause) = code := by
  apply BitVec.eq_of_getLsbD_eq; intro i hi
  interval_cases i <;> simp [codeField, statusWord]

@[simp] theorem reservedLow_statusWord (code : BitVec 4) (handle : BitVec 8) (faulted : BitVec 1) (fcause : BitVec 2) :
    reservedLow (statusWord code handle faulted fcause) = 0 := by
  apply BitVec.eq_of_getLsbD_eq; intro i hi
  interval_cases i <;> simp [reservedLow, statusWord]

@[simp] theorem handleField_statusWord (code : BitVec 4) (handle : BitVec 8) (faulted : BitVec 1) (fcause : BitVec 2) :
    handleField (statusWord code handle faulted fcause) = handle := by
  apply BitVec.eq_of_getLsbD_eq; intro i hi
  interval_cases i <;> simp [handleField, statusWord]

@[simp] theorem faultedField_statusWord (code : BitVec 4) (handle : BitVec 8) (faulted : BitVec 1) (fcause : BitVec 2) :
    faultedField (statusWord code handle faulted fcause) = faulted := by
  apply BitVec.eq_of_getLsbD_eq; intro i hi
  interval_cases i; simp [faultedField, statusWord]

@[simp] theorem fcauseField_statusWord (code : BitVec 4) (handle : BitVec 8) (faulted : BitVec 1) (fcause : BitVec 2) :
    fcauseField (statusWord code handle faulted fcause) = fcause := by
  apply BitVec.eq_of_getLsbD_eq; intro i hi
  interval_cases i <;> simp [fcauseField, statusWord]

@[simp] theorem reservedHigh_statusWord (code : BitVec 4) (handle : BitVec 8) (faulted : BitVec 1) (fcause : BitVec 2) :
    reservedHigh (statusWord code handle faulted fcause) = 0 := by
  apply BitVec.eq_of_getLsbD_eq; intro i hi
  interval_cases i <;> simp [reservedHigh, statusWord]

/-! ### `ctx[c] <- sl` -/

@[simp] theorem setSlot_status (s : State) (c : Nat) (sl : Slot) : (s.setSlot c sl).status = s.status := rfl
@[simp] theorem setSlot_srcAddr (s : State) (c : Nat) (sl : Slot) : (s.setSlot c sl).srcAddr = s.srcAddr := rfl
@[simp] theorem setSlot_srcLen (s : State) (c : Nat) (sl : Slot) : (s.setSlot c sl).srcLen = s.srcLen := rfl
@[simp] theorem setSlot_dstAddr (s : State) (c : Nat) (sl : Slot) : (s.setSlot c sl).dstAddr = s.dstAddr := rfl
@[simp] theorem setSlot_slots (s : State) (c : Nat) (sl : Slot) : (s.setSlot c sl).slots = s.slots.set c sl := rfl
@[simp] theorem setSlot_mem (s : State) (c : Nat) (sl : Slot) : (s.setSlot c sl).mem = s.mem := rfl
@[simp] theorem setSlot_cfg (s : State) (c : Nat) (sl : Slot) : (s.setSlot c sl).cfg = s.cfg := rfl
@[simp] theorem setSlot_hostOps (s : State) (c : Nat) (sl : Slot) : (s.setSlot c sl).hostOps = s.hostOps := rfl
@[simp] theorem setSlot_readData (s : State) (c : Nat) (sl : Slot) : (s.setSlot c sl).readData = s.readData := rfl
@[simp] theorem setSlot_freeCount (s : State) (c : Nat) (sl : Slot) : (s.setSlot c sl).freeCount = s.freeCount := rfl

/-! ### A slot left free -/

@[simp] theorem releaseSlot_status (s : State) (c : Nat) : (s.releaseSlot c).status = s.status := rfl
@[simp] theorem releaseSlot_srcAddr (s : State) (c : Nat) : (s.releaseSlot c).srcAddr = s.srcAddr := rfl
@[simp] theorem releaseSlot_srcLen (s : State) (c : Nat) : (s.releaseSlot c).srcLen = s.srcLen := rfl
@[simp] theorem releaseSlot_dstAddr (s : State) (c : Nat) : (s.releaseSlot c).dstAddr = s.dstAddr := rfl
@[simp] theorem releaseSlot_slots (s : State) (c : Nat) :
    (s.releaseSlot c).slots = s.slots.set c (unspecifiedSlot s.freeCount) := rfl
@[simp] theorem releaseSlot_mem (s : State) (c : Nat) : (s.releaseSlot c).mem = s.mem := rfl
@[simp] theorem releaseSlot_cfg (s : State) (c : Nat) : (s.releaseSlot c).cfg = s.cfg := rfl
@[simp] theorem releaseSlot_hostOps (s : State) (c : Nat) : (s.releaseSlot c).hostOps = s.hostOps := rfl
@[simp] theorem releaseSlot_readData (s : State) (c : Nat) : (s.releaseSlot c).readData = s.readData := rfl
@[simp] theorem releaseSlot_freeCount (s : State) (c : Nat) : (s.releaseSlot c).freeCount = s.freeCount + 1 := rfl

/-- All that is known of a slot whose fields are unspecified. -/
@[simp] theorem unspecifiedSlot_alloc (k : Nat) : (unspecifiedSlot k).alloc = false := rfl

@[simp] theorem freshContext_alloc (a : Bool) : (freshContext a).alloc = a := rfl
@[simp] theorem freshContext_st (a : Bool) : (freshContext a).st = .fresh := rfl
@[simp] theorem freshContext_h (a : Bool) : (freshContext a).h = iv := rfl
@[simp] theorem freshContext_bcnt (a : Bool) : (freshContext a).bcnt = 0 := rfl
@[simp] theorem freshContext_bitlen (a : Bool) : (freshContext a).bitlen = 0 := rfl

/-! ### `finish` -/

@[simp] theorem finish_status (s : State) (code : StatusCode) (handle : BitVec 8) : (s.finish code handle).status =
    statusWord (codeBits code) handle (faultedField s.status) (fcauseField s.status) := rfl
@[simp] theorem finish_srcAddr (s : State) (code : StatusCode) (handle : BitVec 8) :
    (s.finish code handle).srcAddr = s.srcAddr := rfl
@[simp] theorem finish_srcLen (s : State) (code : StatusCode) (handle : BitVec 8) :
    (s.finish code handle).srcLen = s.srcLen := rfl
@[simp] theorem finish_dstAddr (s : State) (code : StatusCode) (handle : BitVec 8) :
    (s.finish code handle).dstAddr = s.dstAddr := rfl
@[simp] theorem finish_slots (s : State) (code : StatusCode) (handle : BitVec 8) :
    (s.finish code handle).slots = s.slots := rfl
@[simp] theorem finish_mem (s : State) (code : StatusCode) (handle : BitVec 8) : (s.finish code handle).mem = s.mem := rfl
@[simp] theorem finish_cfg (s : State) (code : StatusCode) (handle : BitVec 8) : (s.finish code handle).cfg = s.cfg := rfl
@[simp] theorem finish_hostOps (s : State) (code : StatusCode) (handle : BitVec 8) :
    (s.finish code handle).hostOps = s.hostOps := rfl
@[simp] theorem finish_readData (s : State) (code : StatusCode) (handle : BitVec 8) :
    (s.finish code handle).readData = s.readData := rfl
@[simp] theorem finish_freeCount (s : State) (code : StatusCode) (handle : BitVec 8) :
    (s.finish code handle).freeCount = s.freeCount := rfl

/-! ### `raise Fault` -/

@[simp] theorem raiseFault_status (s : State) (cause : FaultCause) : (s.raiseFault cause).status =
    statusWord (codeBits .fault) 0 1 (if faultedField s.status = 0 then causeBits cause else fcauseField s.status) := rfl
@[simp] theorem raiseFault_srcAddr (s : State) (cause : FaultCause) : (s.raiseFault cause).srcAddr = s.srcAddr := rfl
@[simp] theorem raiseFault_srcLen (s : State) (cause : FaultCause) : (s.raiseFault cause).srcLen = s.srcLen := rfl
@[simp] theorem raiseFault_dstAddr (s : State) (cause : FaultCause) : (s.raiseFault cause).dstAddr = s.dstAddr := rfl
@[simp] theorem raiseFault_slots (s : State) (cause : FaultCause) : (s.raiseFault cause).slots = s.slots := rfl
@[simp] theorem raiseFault_mem (s : State) (cause : FaultCause) : (s.raiseFault cause).mem = s.mem := rfl
@[simp] theorem raiseFault_cfg (s : State) (cause : FaultCause) : (s.raiseFault cause).cfg = s.cfg := rfl
@[simp] theorem raiseFault_hostOps (s : State) (cause : FaultCause) : (s.raiseFault cause).hostOps = s.hostOps := rfl
@[simp] theorem raiseFault_readData (s : State) (cause : FaultCause) : (s.raiseFault cause).readData = s.readData := rfl
@[simp] theorem raiseFault_freeCount (s : State) (cause : FaultCause) : (s.raiseFault cause).freeCount = s.freeCount := rfl

/-! ### The reset event -/

@[simp] theorem resetBlock_status (s : State) : (resetBlock s).status = 0 := rfl
@[simp] theorem resetBlock_srcAddr (s : State) : (resetBlock s).srcAddr = 0 := rfl
@[simp] theorem resetBlock_srcLen (s : State) : (resetBlock s).srcLen = 0 := rfl
@[simp] theorem resetBlock_dstAddr (s : State) : (resetBlock s).dstAddr = 0 := rfl
@[simp] theorem resetBlock_slots (s : State) : (resetBlock s).slots = s.slots.map fun _ => Slot.reset := rfl
@[simp] theorem resetBlock_mem (s : State) : (resetBlock s).mem = s.mem := rfl
@[simp] theorem resetBlock_cfg (s : State) : (resetBlock s).cfg = s.cfg := rfl
@[simp] theorem resetBlock_hostOps (s : State) : (resetBlock s).hostOps = s.hostOps := rfl
@[simp] theorem resetBlock_readData (s : State) : (resetBlock s).readData = s.readData := rfl
@[simp] theorem resetBlock_freeCount (s : State) : (resetBlock s).freeCount = s.freeCount := rfl

end Sys2Proof.Machine
end

