-- ==== Sys2Proof/Laws/Memory.lean ====
section
/-! SUPPORT. The laws of host memory: a read after a write, and that every memory operation keeps the canonical form. -/

namespace Sys2Proof.Machine

theorem Memory.read_write_other (m : Memory) {a b : Nat} (v : Byte) (h : b ≠ a) :
    Memory.read (Memory.write m a v) b = Memory.read m b := by
  induction m with
  | nil => by_cases hv : v = Memory.unlisted <;> simp [Memory.write, Memory.read, hv, h]
  | cons kv m ih =>
    obtain ⟨k, x⟩ := kv
    unfold Memory.write
    split
    · split <;> simp [Memory.read, h]
    · split
      · next hk => subst hk; split <;> simp [Memory.read, h]
      · simp [Memory.read, ih]

/-- A listed address is at least `lo`; below it, every address reads as an unlisted one. -/
theorem Memory.read_below {lo : Nat} {m : Memory} (hm : Memory.risesFrom lo m = true) {a : Nat} (h : a < lo) :
    Memory.read m a = Memory.unlisted := by
  induction m generalizing lo with
  | nil => rfl
  | cons kv m ih =>
    obtain ⟨k, x⟩ := kv
    simp [Memory.risesFrom] at hm
    have : a ≠ k := by omega
    simp [Memory.read, this, ih hm.2 (by omega : a < k + 1)]

theorem Memory.read_write_same {lo : Nat} {m : Memory} (hm : Memory.risesFrom lo m = true) (a : Nat) (v : Byte) :
    Memory.read (Memory.write m a v) a = v := by
  induction m generalizing lo with
  | nil => by_cases hv : v = Memory.unlisted <;> simp [Memory.write, Memory.read, hv]
  | cons kv m ih =>
    obtain ⟨k, x⟩ := kv
    simp [Memory.risesFrom] at hm
    unfold Memory.write
    split
    · next hlt =>
      split
      · next hv => rw [hv]; simp [Memory.read, Nat.ne_of_lt hlt, Memory.read_below hm.2 (by omega : a < k + 1)]
      · simp [Memory.read]
    · split
      · next hk =>
        subst hk
        split
        · next hv => rw [hv]; exact Memory.read_below hm.2 (by omega)
        · simp [Memory.read]
      · next hk => simp [Memory.read, hk, ih hm.2]

theorem Memory.risesFrom_mono {lo lo' : Nat} {m : Memory} (hm : Memory.risesFrom lo m = true) (h : lo' ≤ lo) :
    Memory.risesFrom lo' m = true := by
  cases m with
  | nil => rfl
  | cons kv m => obtain ⟨k, x⟩ := kv; simp [Memory.risesFrom] at hm ⊢; exact ⟨⟨by omega, hm.1.2⟩, hm.2⟩

theorem Memory.risesFrom_write {lo : Nat} {m : Memory} (hm : Memory.risesFrom lo m = true) {a : Nat} (h : lo ≤ a) (v : Byte) :
    Memory.risesFrom lo (Memory.write m a v) = true := by
  induction m generalizing lo with
  | nil => by_cases hv : v = Memory.unlisted <;> simp [Memory.write, Memory.risesFrom, hv, h]
  | cons kv m ih =>
    obtain ⟨k, x⟩ := kv
    simp [Memory.risesFrom] at hm
    unfold Memory.write
    split
    · split <;> simp [Memory.risesFrom, *]
    · split
      · next hk =>
        subst hk
        split
        · exact Memory.risesFrom_mono hm.2 (by omega)
        · simp [Memory.risesFrom, *]
      · simp [Memory.risesFrom, hm.1]; exact ih hm.2 (by omega)

/-- A write keeps the canonical form. -/
theorem Memory.wf_write {m : Memory} (hm : Memory.wf m = true) (a : Nat) (v : Byte) :
    Memory.wf (Memory.write m a v) = true :=
  Memory.risesFrom_write hm (Nat.zero_le a) v

theorem Memory.wf_nil : Memory.wf [] = true := rfl

/-- The memory of the machine right after reset is in canonical form. -/
theorem Memory.wf_resetOf (n : Nat) (cfg : Config) : Memory.wf (State.resetOf n cfg).mem = true := rfl

/-- Canonical memories that read alike are the same list: equal memories are equal data. -/
theorem Memory.ext_of_wf {lo : Nat} {m m' : Memory} (hm : Memory.risesFrom lo m = true) (hm' : Memory.risesFrom lo m' = true)
    (h : ∀ a, Memory.read m a = Memory.read m' a) : m = m' := by
  induction m generalizing lo m' with
  | nil =>
    cases m' with
    | nil => rfl
    | cons kv m' =>
      obtain ⟨k, x⟩ := kv
      have := h k
      simp [Memory.read] at this
      simp [Memory.risesFrom] at hm'
      exact absurd this.symm hm'.1.2
  | cons kv m ih =>
    obtain ⟨k, x⟩ := kv
    have hm0 := hm
    simp [Memory.risesFrom] at hm
    cases m' with
    | nil => have := h k; simp [Memory.read] at this; exact absurd this hm.1.2
    | cons kv' m' =>
      obtain ⟨k', x'⟩ := kv'
      have hm0' := hm'
      simp [Memory.risesFrom] at hm'
      have hk : k = k' := by
        rcases Nat.lt_trichotomy k k' with hlt | heq | hlt
        · have := h k
          simp [Memory.read, Nat.ne_of_lt hlt, Memory.read_below hm'.2 (by omega : k < k' + 1)] at this
          exact absurd this hm.1.2
        · exact heq
        · have := h k'
          simp [Memory.read, Nat.ne_of_lt hlt, Memory.read_below hm.2 (by omega : k' < k + 1)] at this
          exact absurd this.symm hm'.1.2
      subst hk
      have hx : x = x' := by have := h k; simpa [Memory.read] using this
      subst hx
      congr 1
      refine ih hm.2 hm'.2 fun a => ?_
      by_cases ha : a = k
      · subst ha; rw [Memory.read_below hm.2 (by omega), Memory.read_below hm'.2 (by omega)]
      · have := h a; simpa [Memory.read, ha] using this

end Sys2Proof.Machine
end

