-- ==== Sys2Proof/Laws/Ops.lean ====
section
/-! SUPPORT. One lemma for each shared operation that says all it can do; the proofs about commands cite these and unfold
none of the operations. -/

namespace Sys2Proof.Machine

/-! ### Host memory -/

theorem checkAddress_ok_iff {cfg : Config} {a : Nat} {u : Unit} :
    checkAddress cfg a = .ok u ↔ a < cfg.memSize ∧ admits cfg a = true := by
  unfold checkAddress
  split
  · next h => simp [h]
  · next h =>
    have h' : a < cfg.memSize := Nat.lt_of_not_le h
    split <;> simp_all

/-- A check that fails names its own address, and why. -/
theorem checkAddress_error {cfg : Config} {a : Nat} {f : Fault} (h : checkAddress cfg a = .error f) :
    (f = .hostMemNoSuchAddress a ∧ cfg.memSize ≤ a) ∨ (f = .hostMemNotAdmitted a ∧ a < cfg.memSize ∧ admits cfg a = false) := by
  unfold checkAddress at h
  split at h
  · next hle => cases h; exact .inl ⟨rfl, hle⟩
  · next hle =>
    split at h
    · cases h
    · next ha => cases h; exact .inr ⟨rfl, by omega, by simpa using ha⟩

theorem memRead_eq {s : State} {a : Nat} (h : checkAddress s.cfg a = .ok ()) : memRead s a = .ok (Memory.read s.mem a) := by
  simp [memRead, h]

theorem bytesAt_succ (m : Memory) (a n : Nat) : bytesAt m a (n + 1) = Memory.read m a :: bytesAt m (a + 1) n := by
  simp [bytesAt, List.range_succ_eq_map, Function.comp_def, Nat.add_comm, Nat.add_left_comm]

@[simp] theorem length_bytesAt (m : Memory) (a n : Nat) : (bytesAt m a n).length = n := by simp [bytesAt]

theorem allAdmitted_succ {cfg : Config} {a n : Nat} :
    allAdmitted cfg a (n + 1) ↔ (a < cfg.memSize ∧ admits cfg a = true) ∧ allAdmitted cfg (a + 1) n := by
  constructor
  · intro h
    refine ⟨h 0 (by omega), fun i hi => ?_⟩
    have := h (i + 1) (by omega)
    rwa [show a + (i + 1) = a + 1 + i by omega] at this
  · rintro ⟨h0, h⟩ i hi
    cases i with
    | zero => exact h0
    | succ i => rw [show a + (i + 1) = a + 1 + i by omega]; exact h i (by omega)

/-- Where every address answers, a range is read whole. -/
theorem readBytes_ok (s : State) {a n : Nat} (h : allAdmitted s.cfg a n) : readBytes s a n = .ok (bytesAt s.mem a n) := by
  induction n generalizing a with
  | zero => rfl
  | succ n ih =>
    have ⟨h0, h1⟩ := allAdmitted_succ.1 h
    have hc : checkAddress s.cfg a = .ok () := checkAddress_ok_iff.2 h0
    simp [readBytes, memRead_eq hc, ih h1, bytesAt_succ]

/-- All that reading a range can do: the bytes of a range that answers whole, or the first address that does not answer. -/
theorem readBytes_cases (s : State) (a n : Nat) :
    (allAdmitted s.cfg a n ∧ readBytes s a n = .ok (bytesAt s.mem a n)) ∨
    (∃ i f, i < n ∧ checkAddress s.cfg (a + i) = .error f ∧ readBytes s a n = .error f) := by
  induction n generalizing a with
  | zero => exact .inl ⟨fun i hi => by omega, rfl⟩
  | succ n ih =>
    cases hc : checkAddress s.cfg a with
    | error f => exact .inr ⟨0, f, by omega, hc, by simp [readBytes, memRead, hc]⟩
    | ok u =>
      rcases ih (a + 1) with ⟨h, hr⟩ | ⟨i, f, hi, hf, hr⟩
      · have := allAdmitted_succ.2 ⟨checkAddress_ok_iff.1 hc, h⟩
        exact .inl ⟨this, readBytes_ok s this⟩
      · refine .inr ⟨i + 1, f, by omega, by rwa [show a + (i + 1) = a + 1 + i by omega], ?_⟩
        simp [readBytes, memRead, hc, hr]

/-- The memory after bytes are stored from an address on. Proofs use its two equations, never its body. -/
@[irreducible] def Memory.writeAll : Nat → List Byte → Memory → Memory
  | _, [], m => m
  | a, x :: xs, m => Memory.writeAll (a + 1) xs (Memory.write m a x)

theorem Memory.writeAll_nil (a : Nat) (m : Memory) : Memory.writeAll a [] m = m := by rw [Memory.writeAll]
theorem Memory.writeAll_cons (a : Nat) (x : Byte) (xs : List Byte) (m : Memory) :
    Memory.writeAll a (x :: xs) m = Memory.writeAll (a + 1) xs (Memory.write m a x) := by rw [Memory.writeAll]

theorem Memory.wf_writeAll {a : Nat} {bytes : List Byte} {m : Memory} (hm : Memory.wf m = true) :
    Memory.wf (Memory.writeAll a bytes m) = true := by
  induction bytes generalizing a m with
  | nil => rwa [Memory.writeAll_nil]
  | cons x xs ih => rw [Memory.writeAll_cons]; exact ih (Memory.wf_write hm a x)

/-- A store leaves every byte outside its range as it was. -/
theorem Memory.read_writeAll_outside (m : Memory) (a : Nat) (bytes : List Byte) :
    sameOutside m (Memory.writeAll a bytes m) a bytes.length := by
  intro b
  induction bytes generalizing a m with
  | nil => intro _; rw [Memory.writeAll_nil]
  | cons x xs ih =>
    intro hb
    simp only [List.length_cons] at hb
    rw [Memory.writeAll, ih _ (a + 1) (by omega), Memory.read_write_other m x (by omega)]

/-- A store in canonical memory is read back. -/
theorem Memory.bytesAt_writeAll {m : Memory} (hm : Memory.wf m = true) (a : Nat) (bytes : List Byte) :
    bytesAt (Memory.writeAll a bytes m) a bytes.length = bytes := by
  induction bytes generalizing a m with
  | nil => rfl
  | cons x xs ih =>
    rw [List.length_cons, bytesAt_succ, Memory.writeAll, ih (Memory.wf_write hm a x),
      Memory.read_writeAll_outside _ (a + 1) xs a (by omega), Memory.read_write_same hm]

/-- All that storing a range can do: the bytes stored where every address answers, and nothing else changed; or the first
address that does not answer. -/
theorem writeBytes_cases (a : Nat) (bytes : List Byte) (s : State) :
    (allAdmitted s.cfg a bytes.length ∧ writeBytes a bytes s = .ok { s with mem := Memory.writeAll a bytes s.mem }) ∨
    (∃ i f, i < bytes.length ∧ checkAddress s.cfg (a + i) = .error f ∧ writeBytes a bytes s = .error f) := by
  induction bytes generalizing a s with
  | nil => exact .inl ⟨fun i hi => by simp at hi, by rw [writeBytes, Memory.writeAll_nil]⟩
  | cons x xs ih =>
    cases hc : checkAddress s.cfg a with
    | error f => exact .inr ⟨0, f, by simp, hc, by simp [writeBytes, memWrite, hc]⟩
    | ok u =>
      rcases ih (a + 1) { s with mem := Memory.write s.mem a x } with ⟨h, hw⟩ | ⟨i, f, hi, hf, hw⟩
      · exact .inl ⟨allAdmitted_succ.2 ⟨checkAddress_ok_iff.1 hc, h⟩, by simp [writeBytes, memWrite, hc, hw, Memory.writeAll]⟩
      · refine .inr ⟨i + 1, f, by simpa using hi, by rw [show a + (i + 1) = a + 1 + i by omega]; exact hf, ?_⟩
        simp [writeBytes, memWrite, hc, hw]

theorem writeBytes_ok {a : Nat} {bytes : List Byte} {s : State} (h : allAdmitted s.cfg a bytes.length) :
    writeBytes a bytes s = .ok { s with mem := Memory.writeAll a bytes s.mem } := by
  rcases writeBytes_cases a bytes s with ⟨_, hw⟩ | ⟨i, f, hi, hf, _⟩
  · exact hw
  · rw [checkAddress_ok_iff (u := ()).2 (h i hi)] at hf; cases hf

/-- The check of a whole range: the first of its `n` addresses that does not answer, if there is one. It reads the
platform's parameters alone, so that what a range access stops with depends on no byte of memory. -/
def checkRange (cfg : Config) : Nat → Nat → Except Fault Unit
  | _, 0 => .ok ()
  | a, n + 1 =>
    match checkAddress cfg a with
    | .error f => .error f
    | .ok _ => checkRange cfg (a + 1) n

/-- Reading a range is its check and the bytes it holds. -/
theorem readBytes_eq (s : State) (a n : Nat) :
    readBytes s a n = (checkRange s.cfg a n).map fun _ => bytesAt s.mem a n := by
  induction n generalizing a with
  | zero => rfl
  | succ n ih =>
    rw [readBytes, checkRange, memRead]
    cases hc : checkAddress s.cfg a with
    | error f => rfl
    | ok u =>
      rw [ih]
      cases hr : checkRange s.cfg (a + 1) n with
      | error f => simp [Except.map]
      | ok u => simp [Except.map, bytesAt_succ]

/-- Storing a range is its check and the memory after the stores. -/
theorem writeBytes_eq (a : Nat) (bytes : List Byte) (s : State) :
    writeBytes a bytes s =
      (checkRange s.cfg a bytes.length).map fun _ => { s with mem := Memory.writeAll a bytes s.mem } := by
  induction bytes generalizing a s with
  | nil => simp [writeBytes, checkRange, Except.map, Memory.writeAll_nil]
  | cons x xs ih =>
    rw [writeBytes, List.length_cons, checkRange, memWrite]
    cases hc : checkAddress s.cfg a with
    | error f => rfl
    | ok u => simp only [ih, Memory.writeAll_cons]

/-- A memory write keeps the canonical form and changes nothing but memory. -/
theorem memWrite_ok {s s' : State} {a : Nat} {v : Byte} (h : memWrite s a v = .ok s') :
    s' = { s with mem := Memory.write s.mem a v } ∧ a < s.cfg.memSize ∧ admits s.cfg a = true := by
  unfold memWrite at h
  split at h
  · cases h
  · next hc => cases h; exact ⟨rfl, checkAddress_ok_iff.1 hc⟩

/-! ### Operands (R163, R164, R205) -/

/-- The source check of UPDATE and HASH is the spec's condition. -/
theorem badSource_eq_true (s : State) : s.badSource = true ↔ SourceRejected s := by
  unfold State.badSource SourceRejected inRange State.src State.len Config.memSize
  simp only [Bool.and_eq_true, Bool.or_eq_true, decide_eq_true_eq, Bool.not_eq_true', decide_eq_false_iff_not, Nat.not_le]

theorem badSource_eq_false (s : State) : s.badSource = false ↔ ¬ SourceRejected s := by
  rw [← badSource_eq_true]; simp

/-- The destination check of FINAL and HASH is the spec's condition. -/
theorem badDestination_eq_true (s : State) : s.badDestination = true ↔ DestinationRejected s := by
  unfold State.badDestination DestinationRejected inRange State.dst Config.memSize
  simp only [Bool.or_eq_true, decide_eq_true_eq, Bool.not_eq_true', decide_eq_false_iff_not, Nat.not_le]

theorem badDestination_eq_false (s : State) : s.badDestination = false ↔ ¬ DestinationRejected s := by
  rw [← badDestination_eq_true]; simp

/-- The length check of UPDATE and HASH is the spec's condition. -/
theorem lengthOverflows_eq_true (s : State) (bits : Nat) : s.lengthOverflows bits = true ↔ TotalOverflows s bits := by
  unfold State.lengthOverflows TotalOverflows State.len
  exact decide_eq_true_iff

theorem lengthOverflows_eq_false (s : State) (bits : Nat) : s.lengthOverflows bits = false ↔ ¬ TotalOverflows s bits := by
  rw [← lengthOverflows_eq_true]; simp

/-- A source byte of a command that passed its source check lies inside host memory, so that it can only be not admitted. -/
theorem source_fault {s : State} (h : ¬ SourceRejected s) {i : Nat} {f : Fault} (hi : i < s.len)
    (hf : checkAddress s.cfg (s.src + i) = .error f) :
    f = .hostMemNotAdmitted (s.src + i) ∧ s.src + i < s.cfg.memSize ∧ admits s.cfg (s.src + i) = false := by
  have hlt : s.src + i < s.cfg.memSize := by
    unfold SourceRejected at h; unfold State.src State.len Config.memSize at *; omega
  rcases checkAddress_error hf with ⟨_, h⟩ | h
  · omega
  · exact h

/-- The same of a destination byte. -/
theorem destination_fault {s : State} (h : ¬ DestinationRejected s) {i : Nat} {f : Fault} (hi : i < 32)
    (hf : checkAddress s.cfg (s.dst + i) = .error f) :
    f = .hostMemNotAdmitted (s.dst + i) ∧ s.dst + i < s.cfg.memSize ∧ admits s.cfg (s.dst + i) = false := by
  have hlt : s.dst + i < s.cfg.memSize := by
    unfold DestinationRejected at h; unfold State.dst Config.memSize at *; omega
  rcases checkAddress_error hf with ⟨_, h⟩ | h
  · omega
  · exact h

/-! ### Slots -/

/-- A handle has no live state exactly when it is invalid (R204). -/
theorem liveState_eq_none (s : State) (c : Nat) : liveState s c = none ↔ s.context c = none := by
  unfold liveState State.context
  cases s.slots[c]? with
  | none => simp
  | some sl => cases h : sl.alloc <;> simp [h]

theorem context_eq_some {s : State} {c : Nat} {sl : Slot} :
    s.context c = some sl ↔ s.slots[c]? = some sl ∧ sl.alloc = true := by
  unfold State.context
  split
  · next h => simp [h]
  · next sl' h =>
    split
    · next ha => simp only [h, Option.some.injEq]; exact ⟨fun e => ⟨e, e ▸ ha⟩, fun e => e.1⟩
    · next ha => simp only [h, Option.some.injEq, reduceCtorEq, false_iff]; rintro ⟨rfl, h⟩; exact ha h

/-- An invalid handle is one that names no slot, or a free one (R204). -/
theorem context_eq_none {s : State} {c : Nat} :
    s.context c = none ↔ s.numCtx ≤ c ∨ ∃ sl, s.slots[c]? = some sl ∧ sl.alloc = false := by
  unfold State.context State.numCtx
  split
  · next h => exact ⟨fun _ => .inl (List.getElem?_eq_none_iff.1 h), fun _ => rfl⟩
  · next sl h =>
    have hlt : c < s.slots.length := by
      rcases Nat.lt_or_ge c s.slots.length with h' | h'
      · exact h'
      · rw [List.getElem?_eq_none h'] at h; cases h
    have hc : ¬ s.slots.length ≤ c := by omega
    split <;> simp_all

/-- The least free slot is free, and every slot below it is taken (R162). -/
theorem leastFree_eq_some {s : State} {h : Nat} :
    s.leastFree = some h ↔
      (∃ sl, s.slots[h]? = some sl ∧ sl.alloc = false) ∧ ∀ c sl, c < h → s.slots[c]? = some sl → sl.alloc = true := by
  unfold State.leastFree
  rw [List.findIdx?_eq_some_iff_getElem]
  constructor
  · rintro ⟨hlt, hp, hmin⟩
    refine ⟨⟨s.slots[h], by simp [hlt], by simpa using hp⟩, fun c sl hc hsl => ?_⟩
    have hcl : c < s.slots.length := by omega
    have := hmin c hc
    rw [List.getElem?_eq_getElem hcl] at hsl
    cases hsl
    simpa using this
  · rintro ⟨⟨sl, hsl, ha⟩, hmin⟩
    obtain ⟨hlt, rfl⟩ := List.getElem?_eq_some_iff.1 hsl
    refine ⟨hlt, by simpa using ha, fun c hc => ?_⟩
    simpa using hmin c _ hc (List.getElem?_eq_getElem (by omega))

/-- No slot is free exactly when every slot is taken. -/
theorem leastFree_eq_none {s : State} : s.leastFree = none ↔ ∀ sl ∈ s.slots, sl.alloc = true := by
  simp [State.leastFree, List.findIdx?_eq_none_iff]

/-! ### The guard -/

theorem unlessFaulted_of_faulted {s : State} (h : s.faulted = true) (o : Host.Outcome State Fault Refusal) :
    unlessFaulted s o = .next (s.finish .fault) := by
  simp [unlessFaulted, h, endWith]

theorem unlessFaulted_of_not {s : State} (h : s.faulted = false) (o : Host.Outcome State Fault Refusal) :
    unlessFaulted s o = o := by
  simp [unlessFaulted, h]

/-- FAULTED = 0 or FAULTED = 1. -/
theorem faulted_eq_false {s : State} : s.faulted = false ↔ faultedField s.status = 0 := by
  unfold State.faulted
  have : ∀ b : BitVec 1, (b == 1) = false ↔ b = 0 := by decide
  exact this _

theorem faulted_eq_true {s : State} : s.faulted = true ↔ faultedField s.status = 1 := by
  unfold State.faulted; simp

end Sys2Proof.Machine
end

