-- ==== Sys2Proof/Laws/Block.lean ====
section
/-! SUPPORT. The small lemmas of the block functions: what a run of stores leaves in the buffer, the lengths of the
schedule, the padding and the digest, and what absorbing bytes and finalizing make of a slot. -/

namespace Sys2Proof.Machine

/-- A run of stores writes its own indices and leaves every other byte. -/
theorem getElem_storeBuf (n : Nat) (bytes : List Byte) (b : Block) (i : Nat) (hi : i < 64) :
    (storeBuf n bytes b)[i] = if n ≤ i ∧ i < n + bytes.length then bytes.getD (i - n) 0 else b[i] := by
  induction bytes generalizing n b with
  | nil => simp [storeBuf]
  | cons x xs ih =>
    rw [storeBuf, ih]
    by_cases h1 : n + 1 ≤ i ∧ i < n + 1 + xs.length
    · have h2 : n ≤ i ∧ i < n + (x :: xs).length := by simp only [List.length_cons]; omega
      rw [if_pos h1, if_pos h2, show i - n = (i - (n + 1)) + 1 by omega, List.getD_cons_succ]
    · rw [if_neg h1]
      by_cases hin : i = n
      · subst hin; simp
      · have h2 : ¬ (n ≤ i ∧ i < n + (x :: xs).length) := by simp only [List.length_cons]; omega
        rw [if_neg h2, Vector.getElem_setIfInBounds_ne]; omega

theorem length_extendSchedule (n : Nat) (w : List Word) : (extendSchedule n w).length = n + w.length := by
  induction n generalizing w with
  | zero => simp [extendSchedule]
  | succ n ih => rw [extendSchedule, ih, List.length_cons]; omega

theorem length_wordsOf (l : List Byte) : (wordsOf l).length = l.length / 4 := by
  induction l using wordsOf.induct with
  | case1 b0 b1 b2 b3 rest ih => simp [wordsOf, ih]; omega
  | case2 l h =>
    have : l.length < 4 := by
      match l, h with
      | [], _ | [_], _ | [_, _], _ | [_, _, _], _ => simp
      | b0 :: b1 :: b2 :: b3 :: rest, h => exact (h b0 b1 b2 b3 rest rfl).elim
    rw [wordsOf.eq_2 l h]; simp; omega

/-- The schedule has 64 words (R7, R133). -/
@[simp] theorem length_expand (b : Block) : (expand b).length = 64 := by
  simp [expand, length_extendSchedule, length_wordsOf]

/-- K has 64 words (R7, R109). -/
@[simp] theorem length_roundConstants : roundConstants.length = 64 := rfl

@[simp] theorem length_be32enc (w : Word) : (be32enc w).length = 4 := rfl

@[simp] theorem length_be64 (v : DWord) : (be64 v).length = 8 := rfl

/-- PAD is 1 + z + 8 bytes long (R130). -/
theorem length_pad (n : Nat) (l : DWord) : (pad n l).length = 1 + padZeros n + 8 := by
  simp [pad]; omega

/-- The buffered bytes and PAD fill the closing blocks exactly (R130, R131). -/
theorem length_buffered_add_pad {n : Nat} (h : n < 64) (l : DWord) :
    n + (pad n l).length = 64 * closingBlocks n := by
  rw [length_pad]
  unfold padZeros closingBlocks
  split <;> omega

@[simp] theorem absorb_alloc (sl : Slot) (x : Byte) : (absorb sl x).alloc = sl.alloc := by
  unfold absorb compressSlot; dsimp only; split <;> rfl

@[simp] theorem absorb_st (sl : Slot) (x : Byte) : (absorb sl x).st = sl.st := by
  unfold absorb compressSlot; dsimp only; split <;> rfl

/-- ABSORB does not change BITLEN (R138). -/
@[simp] theorem absorb_bitlen (sl : Slot) (x : Byte) : (absorb sl x).bitlen = sl.bitlen := by
  unfold absorb compressSlot; dsimp only; split <;> rfl

@[simp] theorem absorbAll_alloc (bytes : List Byte) (sl : Slot) : (absorbAll bytes sl).alloc = sl.alloc := by
  induction bytes generalizing sl with
  | nil => rfl
  | cons x xs ih => rw [absorbAll, ih, absorb_alloc]

@[simp] theorem absorbAll_st (bytes : List Byte) (sl : Slot) : (absorbAll bytes sl).st = sl.st := by
  induction bytes generalizing sl with
  | nil => rfl
  | cons x xs ih => rw [absorbAll, ih, absorb_st]

@[simp] theorem absorbAll_bitlen (bytes : List Byte) (sl : Slot) : (absorbAll bytes sl).bitlen = sl.bitlen := by
  induction bytes generalizing sl with
  | nil => rfl
  | cons x xs ih => rw [absorbAll, ih, absorb_bitlen]

/-- Absorbing a list and then another is absorbing both in order. -/
theorem absorbAll_append (xs ys : List Byte) (sl : Slot) :
    absorbAll (xs ++ ys) sl = absorbAll ys (absorbAll xs sl) := by
  induction xs generalizing sl with
  | nil => rfl
  | cons x xs ih => rw [List.cons_append, absorbAll, ih]; rfl

/-! COMPRESS_SLOT writes H alone (R132, R137). -/

@[simp] theorem compressSlot_alloc (sl : Slot) : (compressSlot sl).alloc = sl.alloc := rfl
@[simp] theorem compressSlot_st (sl : Slot) : (compressSlot sl).st = sl.st := rfl
@[simp] theorem compressSlot_buf (sl : Slot) : (compressSlot sl).buf = sl.buf := rfl
@[simp] theorem compressSlot_bcnt (sl : Slot) : (compressSlot sl).bcnt = sl.bcnt := rfl
@[simp] theorem compressSlot_bitlen (sl : Slot) : (compressSlot sl).bitlen = sl.bitlen := rfl
@[simp] theorem compressSlot_h (sl : Slot) : (compressSlot sl).h = compress sl.h sl.buf := rfl

/-! FINALIZE leaves ALLOC, ST and BITLEN, and BCNT = 0 (R132). -/

@[simp] theorem finalize_alloc (sl : Slot) : (finalize sl).alloc = sl.alloc := by
  simp only [finalize, closeLastBlock, closeFullBlock, compressSlot]; split <;> rfl

@[simp] theorem finalize_st (sl : Slot) : (finalize sl).st = sl.st := by
  simp only [finalize, closeLastBlock, closeFullBlock, compressSlot]; split <;> rfl

@[simp] theorem finalize_bitlen (sl : Slot) : (finalize sl).bitlen = sl.bitlen := by
  simp only [finalize, closeLastBlock, closeFullBlock, compressSlot]; split <;> rfl

@[simp] theorem finalize_bcnt (sl : Slot) : (finalize sl).bcnt = 0 := rfl

/-! ### Blocks as lists of bytes, and what ABSORB and FINALIZE make of them -/

/-- A run of stores that fits, as a list: the bytes before it, the bytes stored, the bytes after it. -/
theorem toList_storeBuf (n : Nat) (xs : List Byte) (b : Block) (h : n + xs.length ≤ 64) :
    (storeBuf n xs b).toList = b.toList.take n ++ xs ++ b.toList.drop (n + xs.length) := by
  apply List.ext_getElem
  · simp; omega
  · intro i h1 h2
    have hi : i < 64 := by simpa using h1
    rw [Vector.getElem_toList, getElem_storeBuf n xs b i hi]
    simp only [List.getElem_append, List.length_append, List.length_take, Vector.length_toList, List.getElem_take,
      List.getElem_drop, Vector.getElem_toList]
    have hm : min n 64 = n := by omega
    simp only [hm]
    split_ifs <;> first | omega | rfl | skip
    · rw [List.getD_eq_getElem]
    · congr 1; omega

/-- A block is its list of bytes. -/
theorem block_eq_of_toList {a b : Block} (h : a.toList = b.toList) : a = b := by
  apply Vector.toList_inj.1 h

/-- The block of a list of 64 bytes or more is its first 64. -/
theorem toList_blockOf {l : List Byte} (h : 64 ≤ l.length) : (blockOf l).toList = l.take 64 := by
  rw [blockOf, toList_storeBuf _ _ _ (by simp)]
  simp; omega

/-- A buffer whose bytes are the first 64 of a list is that list's block. -/
theorem block_eq_blockOf {b : Block} {l : List Byte} (h : b.toList = l.take 64) : b = blockOf l := by
  have : 64 ≤ l.length := by have := congrArg List.length h; simp at this; omega
  exact block_eq_of_toList (by rw [h, toList_blockOf this])

theorem compressBlocks_zero (l : List Byte) (h : HashState) : compressBlocks 0 l h = h := rfl

theorem compressBlocks_succ (k : Nat) (l : List Byte) (h : HashState) :
    compressBlocks (k + 1) l h = compressBlocks k (l.drop 64) (compress h (blockOf l)) := rfl

/-- Only the first `k` blocks are read. -/
theorem compressBlocks_append (k : Nat) (l m : List Byte) (h : HashState) (hl : 64 * k ≤ l.length) :
    compressBlocks k (l ++ m) h = compressBlocks k l h := by
  induction k generalizing l h with
  | zero => rfl
  | succ k ih =>
    rw [compressBlocks_succ, compressBlocks_succ]
    have hb : blockOf (l ++ m) = blockOf l := by
      apply block_eq_of_toList
      rw [toList_blockOf (by simp; omega), toList_blockOf (by omega), List.take_append_of_le_length (by omega)]
    rw [hb, List.drop_append_of_le_length (by omega), ih _ _ (by simp; omega)]

/-- The blocks in two runs. -/
theorem compressBlocks_add (j k : Nat) (l : List Byte) (h : HashState) :
    compressBlocks (j + k) l h = compressBlocks k (l.drop (64 * j)) (compressBlocks j l h) := by
  induction j generalizing l h with
  | zero => simp [compressBlocks_zero]
  | succ j ih =>
    rw [show j + 1 + k = j + k + 1 by omega, compressBlocks_succ, ih, compressBlocks_succ, List.drop_drop]
    congr 2; omega

/-- ABSORB stores its byte at BUF[BCNT] (R138). -/
theorem absorb_buf (sl : Slot) (x : Byte) : (absorb sl x).buf = sl.buf.set sl.bcnt.toNat x sl.bcnt.isLt := by
  unfold absorb; dsimp only; split <;> rfl

/-- The 64th byte compresses the buffer and empties it (R138). -/
theorem absorb_full {sl : Slot} {x : Byte} (h : sl.bcnt.toNat = 63) :
   (absorb sl x).bcnt = 0 ∧ (absorb sl x).h = compress sl.h (sl.buf.set sl.bcnt.toNat x sl.bcnt.isLt) := by
  have : sl.bcnt = 63 := BitVec.eq_of_toNat_eq (by simpa using h)
  unfold absorb; dsimp only; rw [if_pos this]; exact ⟨rfl, rfl⟩

/-- Any other byte only advances BCNT (R138). -/
theorem absorb_part {sl : Slot} {x : Byte} (h : sl.bcnt.toNat ≠ 63) :
   (absorb sl x).bcnt.toNat = sl.bcnt.toNat + 1 ∧ (absorb sl x).h = sl.h := by
  have : sl.bcnt ≠ 63 := fun e => h (by rw [e]; rfl)
  have hlt := sl.bcnt.isLt
  unfold absorb; dsimp only; rw [if_neg this]
  refine ⟨?_, rfl⟩
  simp only [BitVec.toNat_add]; simp; omega

/-- What the absorbing of `xs` makes of a slot: the full blocks of the buffered bytes and `xs` compressed, the rest buffered. -/
structure Absorbed (sl sl' : Slot) (xs : List Byte) : Prop where
  bcnt : sl'.bcnt.toNat = (sl.bcnt.toNat + xs.length) % 64
  h : sl'.h = compressBlocks ((sl.bcnt.toNat + xs.length) / 64) (sl.buf.toList.take sl.bcnt.toNat ++ xs) sl.h
  buf : sl'.buf.toList.take sl'.bcnt.toNat = (sl.buf.toList.take sl.bcnt.toNat ++ xs).drop (64 * ((sl.bcnt.toNat + xs.length) / 64))

/-- All that absorbing bytes one after the other does to BCNT, H and the buffered bytes (R138, R163). -/
theorem absorbAll_absorbed (xs : List Byte) (sl : Slot) : Absorbed sl (absorbAll xs sl) xs := by
  induction xs generalizing sl with
  | nil =>
    have := sl.bcnt.isLt
    have h0 : sl.bcnt.toNat / 64 = 0 := by omega
    constructor
    · simp only [absorbAll, List.length_nil]; omega
    · simp [absorbAll, h0, compressBlocks]
    · simp [absorbAll, h0]
  | cons x xs ih =>
    have hlt := sl.bcnt.isLt
    rw [absorbAll]
    obtain ⟨i1, i2, i3⟩ := ih (absorb sl x)
    have hset : (sl.buf.set sl.bcnt.toNat x sl.bcnt.isLt).toList = sl.buf.toList.set sl.bcnt.toNat x := by simp [Vector.toList_set]
    have hpre : (sl.buf.toList.set sl.bcnt.toNat x).take (sl.bcnt.toNat + 1) = sl.buf.toList.take sl.bcnt.toNat ++ [x] := by
      rw [List.take_succ_eq_append_getElem (by simpa using hlt), List.take_set, List.set_eq_of_length_le (by simp)]
      simp
    by_cases hf : sl.bcnt.toNat = 63
    · obtain ⟨a1, a2⟩ := absorb_full (x := x) hf
      have e1 : (sl.bcnt.toNat + (x :: xs).length) / 64 = xs.length / 64 + 1 := by simp only [List.length_cons]; omega
      have e2 : (sl.bcnt.toNat + (x :: xs).length) % 64 = xs.length % 64 := by simp only [List.length_cons]; omega
      have hz : (absorb sl x).bcnt.toNat = 0 := by rw [a1]; rfl
      have hlen : (sl.buf.toList.take sl.bcnt.toNat ++ [x]).length = 64 := by simp; omega
      have hB : sl.buf.toList.take sl.bcnt.toNat ++ x :: xs = (sl.buf.toList.take sl.bcnt.toNat ++ [x]) ++ xs := by simp
      have hdrop : (sl.buf.toList.take sl.bcnt.toNat ++ x :: xs).drop 64 = xs := by
        rw [hB, List.drop_append_of_le_length (by omega), List.drop_of_length_le (by omega)]; rfl
      have hblk : sl.buf.set sl.bcnt.toNat x sl.bcnt.isLt = blockOf (sl.buf.toList.take sl.bcnt.toNat ++ x :: xs) := by
        apply block_eq_blockOf
        rw [hset, hB, List.take_append_of_le_length (by omega), List.take_of_length_le (by omega), ← hpre, List.take_of_length_le (by simp; omega)]
      rw [hz] at i1 i2 i3
      simp only [List.take_zero, List.nil_append, Nat.zero_add] at i1 i2 i3
      constructor
      · rw [i1, e2]
      · rw [i2, e1, compressBlocks, hdrop, a2, hblk]
      · rw [i3, e1, show 64 * (xs.length / 64 + 1) = 64 + 64 * (xs.length / 64) by omega, ← List.drop_drop, hdrop]
    · obtain ⟨a1, a2⟩ := absorb_part (x := x) hf
      have e : (absorb sl x).bcnt.toNat + xs.length = sl.bcnt.toNat + (x :: xs).length := by rw [a1]; simp only [List.length_cons]; omega
      have hb : (absorb sl x).buf.toList.take (absorb sl x).bcnt.toNat ++ xs = sl.buf.toList.take sl.bcnt.toNat ++ x :: xs := by
        rw [absorb_buf, hset, a1, hpre]; simp
      rw [e] at i1 i2 i3
      rw [hb] at i2 i3
      exact ⟨i1, by rw [i2, a2], i3⟩

/-- FINALIZE compresses the buffered bytes followed by PAD, block by block (R132). -/
theorem finalize_h (sl : Slot) : (finalize sl).h = compressBlocks (closingBlocks sl.bcnt.toNat)
      (sl.buf.toList.take sl.bcnt.toNat ++ pad sl.bcnt.toNat sl.bitlen) sl.h := by
  have hlt := sl.bcnt.isLt
  unfold finalize
  dsimp only
  generalize sl.bcnt.toNat = n at *
  have h1 : (storeBuf n [0x80] sl.buf).toList = sl.buf.toList.take n ++ [0x80] ++ sl.buf.toList.drop (n + 1) := by
    rw [toList_storeBuf _ _ _ (by simp; omega)]; rfl
  have hpre : (sl.buf.toList.take n ++ [(0x80 : Byte)]).length = n + 1 := by simp; omega
  by_cases hc : n + 1 > 56
  · have hk : closingBlocks n = 1 + 1 := by unfold closingBlocks; rw [if_neg (by omega)]
    have hz : padZeros n = (64 - (n + 1)) + 56 := by unfold padZeros; omega
    have hlist : sl.buf.toList.take n ++ pad n sl.bitlen =
        (sl.buf.toList.take n ++ [(0x80 : Byte)] ++ List.replicate (64 - (n + 1)) 0) ++ (List.replicate 56 0 ++ be64 sl.bitlen) := by
      rw [pad, hz, List.replicate_add]; simp
    have hl64 : (sl.buf.toList.take n ++ [(0x80 : Byte)] ++ List.replicate (64 - (n + 1)) 0).length = 64 := by
      rw [List.length_append, hpre, List.length_replicate]; omega
    have hb1 : storeBuf (n + 1) (List.replicate (64 - (n + 1)) 0) (storeBuf n [0x80] sl.buf) =
        blockOf (sl.buf.toList.take n ++ pad n sl.bitlen) := by
      apply block_eq_blockOf
      rw [hlist, List.take_append_of_le_length (by omega), List.take_of_length_le (by omega),
        toList_storeBuf _ _ _ (by simp; omega), h1, List.take_append_of_le_length (by omega),
        List.take_of_length_le (l := _ ++ [_]) (by omega), List.drop_of_length_le (by simp; omega), List.append_nil]
    have hb2 : ∀ b : Block, storeBuf 56 (be64 sl.bitlen) (storeBuf 0 (List.replicate (56 - 0) 0) b) =
        blockOf ((sl.buf.toList.take n ++ pad n sl.bitlen).drop 64) := by
      intro b
      apply block_eq_blockOf
      rw [hlist, List.drop_append_of_le_length (by omega), List.drop_of_length_le (by omega), List.nil_append,
        toList_storeBuf _ _ _ (by simp), toList_storeBuf _ _ _ (by simp)]
      rw [List.drop_of_length_le (i := 56 + _) (by simp), List.append_nil, List.take_of_length_le (l := _ ++ be64 _) (by simp)]
      simp
    rw [closeFullBlock, if_pos hc, hk, compressBlocks_succ, compressBlocks_succ, compressBlocks_zero]
    simp only [closeLastBlock, compressSlot_h, compressSlot_buf, compressSlot_bitlen, hb1, hb2]
  · have hk : closingBlocks n = 0 + 1 := by unfold closingBlocks; rw [if_pos (by omega)]
    have hz : padZeros n = 56 - (n + 1) := by unfold padZeros; omega
    have hin : (storeBuf (n + 1) (List.replicate (56 - (n + 1)) 0) (storeBuf n [0x80] sl.buf)).toList.take 56 =
        sl.buf.toList.take n ++ [(0x80 : Byte)] ++ List.replicate (56 - (n + 1)) 0 := by
      rw [toList_storeBuf _ _ _ (by simp; omega), h1, List.take_append_of_le_length (l₁ := _ ++ [_]) (by omega),
        List.take_of_length_le (l := _ ++ [_]) (by omega), List.take_append_of_le_length, List.take_of_length_le]
      all_goals rw [List.length_append, hpre, List.length_replicate]; omega
    have hb : storeBuf 56 (be64 sl.bitlen) (storeBuf (n + 1) (List.replicate (56 - (n + 1)) 0) (storeBuf n [0x80] sl.buf)) =
        blockOf (sl.buf.toList.take n ++ pad n sl.bitlen) := by
      apply block_eq_blockOf
      rw [toList_storeBuf _ _ _ (by simp), hin, pad, hz, List.drop_of_length_le (by simp), List.append_nil]
      rw [List.take_of_length_le (i := 64)]
      · simp
      · simp; omega
    rw [closeFullBlock, if_neg hc, hk, compressBlocks_succ, compressBlocks_zero]
    simp only [closeLastBlock, compressSlot_h, hb]

end Sys2Proof.Machine
end

