-- ==== Sys2Proof/Laws/Exec.lean ====
section
/-! SUPPORT. All that each command can do: one lemma for each command, and the lemma of its successful case. Later proofs
cite these instead of unfolding a command. -/

namespace Sys2Proof.Machine

/-- A command in the faulted condition (R206). -/
theorem exec_of_faulted (i : Instr) {s : State} (h : s.faulted = true) : exec i s = .next (s.finish .fault) := by
  cases i <;> exact unlessFaulted_of_faulted h _

/-! ### INIT -/

theorem execInit_none {s : State} (hf : s.faulted = false) (h : s.leastFree = none) :
    execInit s = .next (s.finish .allocationFailure) := by
  simp [execInit, unlessFaulted_of_not hf, h, endWith]

theorem execInit_some {s : State} {h : Nat} (hf : s.faulted = false) (hh : s.leastFree = some h) :
    execInit s = .next ((s.setSlot h (freshContext true)).finish .ok (BitVec.ofNat 8 h)) := by
  simp [execInit, unlessFaulted_of_not hf, hh]

/-- INIT: the faulted condition, no free slot, or the least free slot taken. -/
theorem execInit_cases (s : State) :
    (s.faulted = true ∧ execInit s = .next (s.finish .fault)) ∨
    (s.faulted = false ∧ s.leastFree = none ∧ execInit s = .next (s.finish .allocationFailure)) ∨
    (s.faulted = false ∧ ∃ h, s.leastFree = some h ∧
      execInit s = .next ((s.setSlot h (freshContext true)).finish .ok (BitVec.ofNat 8 h))) := by
  cases hf : s.faulted with
  | true => exact .inl ⟨rfl, unlessFaulted_of_faulted hf _⟩
  | false =>
    cases hh : s.leastFree with
    | none => exact .inr (.inl ⟨rfl, rfl, execInit_none hf hh⟩)
    | some h => exact .inr (.inr ⟨rfl, h, rfl, execInit_some hf hh⟩)

/-! ### UPDATE -/

/-- The slot an UPDATE leaves behind. -/
def updatedSlot (s : State) (sl : Slot) : Slot :=
  { absorbAll (bytesAt s.mem s.src s.len) sl with bitlen := sl.bitlen + BitVec.ofNat 64 (8 * s.len), st := .accumulating }

@[simp] theorem updatedSlot_alloc (s : State) (sl : Slot) : (updatedSlot s sl).alloc = sl.alloc :=
  absorbAll_alloc (bytesAt s.mem s.src s.len) sl
@[simp] theorem updatedSlot_st (s : State) (sl : Slot) : (updatedSlot s sl).st = .accumulating := rfl
@[simp] theorem updatedSlot_bitlen (s : State) (sl : Slot) :
    (updatedSlot s sl).bitlen = sl.bitlen + BitVec.ofNat 64 (8 * s.len) := rfl
@[simp] theorem updatedSlot_h (s : State) (sl : Slot) :
    (updatedSlot s sl).h = (absorbAll (bytesAt s.mem s.src s.len) sl).h := rfl
@[simp] theorem updatedSlot_buf (s : State) (sl : Slot) :
    (updatedSlot s sl).buf = (absorbAll (bytesAt s.mem s.src s.len) sl).buf := rfl
@[simp] theorem updatedSlot_bcnt (s : State) (sl : Slot) :
    (updatedSlot s sl).bcnt = (absorbAll (bytesAt s.mem s.src s.len) sl).bcnt := rfl

/-- UPDATE c: the faulted condition, a bad handle, a Finalized Context, a bad source, an overflow, a source byte that does
not answer, or the bytes absorbed. The cases are in the order of the checks, each with the earlier ones passed. -/
theorem execUpdate_cases (c : Nat) (s : State) :
    (s.faulted = true ∧ execUpdate c s = .next (s.finish .fault)) ∨
    (s.faulted = false ∧ ((s.context c = none ∧ execUpdate c s = .next (s.raiseFault .badHandle)) ∨
    ∃ sl, s.context c = some sl ∧
    ((sl.st = .finalized ∧ execUpdate c s = .next (s.finish .invalidState)) ∨
    (sl.st ≠ .finalized ∧ s.badSource = true ∧ execUpdate c s = .next (s.finish .invalidArgument)) ∨
    (sl.st ≠ .finalized ∧ s.badSource = false ∧ s.lengthOverflows sl.bitlen.toNat = true ∧
      execUpdate c s = .next (s.raiseFault .lengthOverflow)) ∨
    (sl.st ≠ .finalized ∧ s.badSource = false ∧ s.lengthOverflows sl.bitlen.toNat = false ∧
      ((∃ i f, i < s.len ∧ checkAddress s.cfg (s.src + i) = .error f ∧ execUpdate c s = .fault f) ∨
      (allAdmitted s.cfg s.src s.len ∧
        execUpdate c s = .next ((s.setSlot c (updatedSlot s sl)).finish .ok))))))) := by
  cases hf : s.faulted with
  | true => exact .inl ⟨rfl, unlessFaulted_of_faulted hf _⟩
  | false =>
    refine .inr ⟨rfl, ?_⟩
    rw [execUpdate, unlessFaulted_of_not hf]
    cases hc : s.context c with
    | none => exact .inl ⟨rfl, rfl⟩
    | some sl =>
      refine .inr ⟨sl, rfl, ?_⟩
      by_cases hst : sl.st = .finalized
      · exact .inl ⟨hst, by simp [hst, endWith]⟩
      cases hb : s.badSource with
      | true => exact .inr (.inl ⟨hst, rfl, by simp [hst, endWith]⟩)
      | false =>
        cases ho : s.lengthOverflows sl.bitlen.toNat with
        | true => exact .inr (.inr (.inl ⟨hst, rfl, rfl, by simp [hst, ho, endWithFault]⟩))
        | false =>
          refine .inr (.inr (.inr ⟨hst, rfl, rfl, ?_⟩))
          rcases readBytes_cases s s.src s.len with ⟨ha, hr⟩ | ⟨i, f, hi, hf, hr⟩
          · exact .inr ⟨ha, by simp [hst, ho, hr, updatedSlot]⟩
          · exact .inl ⟨i, f, hi, hf, by simp [hst, ho, hr]⟩

/-- A successful UPDATE (R163). -/
theorem execUpdate_ok {c : Nat} {s : State} {sl : Slot} (hf : s.faulted = false) (hc : s.context c = some sl)
    (hst : sl.st ≠ .finalized) (hb : s.badSource = false) (ho : s.lengthOverflows sl.bitlen.toNat = false)
    (ha : allAdmitted s.cfg s.src s.len) :
    execUpdate c s = .next ((s.setSlot c (updatedSlot s sl)).finish .ok) := by
  rw [execUpdate, unlessFaulted_of_not hf]
  simp [hc, hst, hb, ho, readBytes_ok s ha, updatedSlot]

/-! ### FINAL -/

/-- The state a successful FINAL leaves behind. -/
def finalState (c : Nat) (s : State) (sl : Slot) : State :=
  (State.setSlot { s with mem := Memory.writeAll s.dst (serialize (finalize sl).h) s.mem } c
    { finalize sl with st := .finalized }).finish .ok

@[simp] theorem finalState_status (c : Nat) (s : State) (sl : Slot) : (finalState c s sl).status =
    statusWord (codeBits .ok) 0 (faultedField s.status) (fcauseField s.status) := rfl
@[simp] theorem finalState_srcAddr (c : Nat) (s : State) (sl : Slot) : (finalState c s sl).srcAddr = s.srcAddr := rfl
@[simp] theorem finalState_srcLen (c : Nat) (s : State) (sl : Slot) : (finalState c s sl).srcLen = s.srcLen := rfl
@[simp] theorem finalState_dstAddr (c : Nat) (s : State) (sl : Slot) : (finalState c s sl).dstAddr = s.dstAddr := rfl
@[simp] theorem finalState_cfg (c : Nat) (s : State) (sl : Slot) : (finalState c s sl).cfg = s.cfg := rfl
@[simp] theorem finalState_hostOps (c : Nat) (s : State) (sl : Slot) : (finalState c s sl).hostOps = s.hostOps := rfl
@[simp] theorem finalState_readData (c : Nat) (s : State) (sl : Slot) : (finalState c s sl).readData = s.readData := rfl
@[simp] theorem finalState_freeCount (c : Nat) (s : State) (sl : Slot) : (finalState c s sl).freeCount = s.freeCount := rfl
@[simp] theorem finalState_slots (c : Nat) (s : State) (sl : Slot) :
    (finalState c s sl).slots = s.slots.set c { finalize sl with st := .finalized } := rfl
@[simp] theorem finalState_mem (c : Nat) (s : State) (sl : Slot) :
    (finalState c s sl).mem = Memory.writeAll s.dst (serialize (finalize sl).h) s.mem := by
  rw [finalState, finish_mem, setSlot_mem]

/-- FINAL changes STATUS, its slot and host memory, and nothing else (R164). -/
theorem finalState_eq (c : Nat) (s : State) (sl : Slot) : finalState c s sl =
    { s with status := (finalState c s sl).status, slots := (finalState c s sl).slots, mem := (finalState c s sl).mem } := by
  unfold finalState
  generalize Memory.writeAll s.dst (serialize (finalize sl).h) s.mem = m
  rfl

@[simp] theorem length_serialize (h : HashState) : (serialize h).length = 32 := rfl

/-- FINAL c: the faulted condition, a bad handle, a Finalized Context, a bad destination, a destination byte that does not
answer, or the digest written. -/
theorem execFinal_cases (c : Nat) (s : State) :
    (s.faulted = true ∧ execFinal c s = .next (s.finish .fault)) ∨
    (s.faulted = false ∧ ((s.context c = none ∧ execFinal c s = .next (s.raiseFault .badHandle)) ∨
    ∃ sl, s.context c = some sl ∧
    ((sl.st = .finalized ∧ execFinal c s = .next (s.finish .invalidState)) ∨
    (sl.st ≠ .finalized ∧ s.badDestination = true ∧ execFinal c s = .next (s.finish .invalidArgument)) ∨
    (sl.st ≠ .finalized ∧ s.badDestination = false ∧
      ((∃ i f, i < 32 ∧ checkAddress s.cfg (s.dst + i) = .error f ∧ execFinal c s = .fault f) ∨
      (allAdmitted s.cfg s.dst 32 ∧ execFinal c s = .next (finalState c s sl))))))) := by
  cases hf : s.faulted with
  | true => exact .inl ⟨rfl, unlessFaulted_of_faulted hf _⟩
  | false =>
    refine .inr ⟨rfl, ?_⟩
    rw [execFinal, unlessFaulted_of_not hf]
    cases hc : s.context c with
    | none => exact .inl ⟨rfl, rfl⟩
    | some sl =>
      refine .inr ⟨sl, rfl, ?_⟩
      by_cases hst : sl.st = .finalized
      · exact .inl ⟨hst, by simp [hst, endWith]⟩
      cases hb : s.badDestination with
      | true => exact .inr (.inl ⟨hst, rfl, by simp [hst, endWith]⟩)
      | false =>
        refine .inr (.inr ⟨hst, rfl, ?_⟩)
        rcases writeBytes_cases s.dst (serialize (finalize sl).h) s with ⟨ha, hw⟩ | ⟨i, f, hi, hf, hw⟩
        · exact .inr ⟨ha, by simp [hst, hw, finalState]⟩
        · exact .inl ⟨i, f, hi, hf, by simp [hst, hw]⟩

/-- A successful FINAL (R164). -/
theorem execFinal_ok {c : Nat} {s : State} {sl : Slot} (hf : s.faulted = false) (hc : s.context c = some sl)
    (hst : sl.st ≠ .finalized) (hb : s.badDestination = false) (ha : allAdmitted s.cfg s.dst 32) :
    execFinal c s = .next (finalState c s sl) := by
  rw [execFinal, unlessFaulted_of_not hf]
  have hw := writeBytes_ok (s := s) (a := s.dst) (bytes := serialize (finalize sl).h) (by simpa using ha)
  simp [hc, hst, hb, hw, finalState]

/-! ### FREE -/

/-- FREE c: the faulted condition, a bad handle, or the slot released. -/
theorem execFree_cases (c : Nat) (s : State) :
    (s.faulted = true ∧ execFree c s = .next (s.finish .fault)) ∨
    (s.faulted = false ∧ s.context c = none ∧ execFree c s = .next (s.raiseFault .badHandle)) ∨
    (s.faulted = false ∧ ∃ sl, s.context c = some sl ∧ execFree c s = .next ((s.releaseSlot c).finish .ok)) := by
  cases hf : s.faulted with
  | true => exact .inl ⟨rfl, unlessFaulted_of_faulted hf _⟩
  | false =>
    rw [execFree, unlessFaulted_of_not hf]
    cases hc : s.context c with
    | none => exact .inr (.inl ⟨rfl, rfl, rfl⟩)
    | some sl => exact .inr (.inr ⟨rfl, sl, rfl, rfl⟩)

/-! ### HASH -/

/-- The state a successful HASH leaves behind. -/
def hashState (h : Nat) (s : State) : State :=
  (State.releaseSlot { s with
    mem := Memory.writeAll s.dst (serialize (hashedContext (bytesAt s.mem s.src s.len)).h) s.mem } h).finish .ok

@[simp] theorem hashState_status (h : Nat) (s : State) : (hashState h s).status =
    statusWord (codeBits .ok) 0 (faultedField s.status) (fcauseField s.status) := rfl
@[simp] theorem hashState_srcAddr (h : Nat) (s : State) : (hashState h s).srcAddr = s.srcAddr := rfl
@[simp] theorem hashState_srcLen (h : Nat) (s : State) : (hashState h s).srcLen = s.srcLen := rfl
@[simp] theorem hashState_dstAddr (h : Nat) (s : State) : (hashState h s).dstAddr = s.dstAddr := rfl
@[simp] theorem hashState_cfg (h : Nat) (s : State) : (hashState h s).cfg = s.cfg := rfl
@[simp] theorem hashState_hostOps (h : Nat) (s : State) : (hashState h s).hostOps = s.hostOps := rfl
@[simp] theorem hashState_readData (h : Nat) (s : State) : (hashState h s).readData = s.readData := rfl
@[simp] theorem hashState_freeCount (h : Nat) (s : State) : (hashState h s).freeCount = s.freeCount + 1 := rfl
@[simp] theorem hashState_slots (h : Nat) (s : State) :
    (hashState h s).slots = s.slots.set h (unspecifiedSlot s.freeCount) := rfl
@[simp] theorem hashState_mem (h : Nat) (s : State) :
    (hashState h s).mem = Memory.writeAll s.dst (serialize (hashedContext (bytesAt s.mem s.src s.len)).h) s.mem := by
  rw [hashState, finish_mem, releaseSlot_mem]

/-- HASH changes STATUS, its scratch slot, host memory and the counter of free values, and nothing else (R166). -/
theorem hashState_eq (h : Nat) (s : State) : hashState h s =
    { s with status := (hashState h s).status, slots := (hashState h s).slots, mem := (hashState h s).mem,
             freeCount := (hashState h s).freeCount } := by
  unfold hashState
  generalize Memory.writeAll s.dst (serialize (hashedContext (bytesAt s.mem s.src s.len)).h) s.mem = m
  rfl

/-- HASH: the faulted condition, no free slot, a bad source, an overflow, a bad destination, a byte that does not answer, or
the digest written. -/
theorem execHash_cases (s : State) :
    (s.faulted = true ∧ execHash s = .next (s.finish .fault)) ∨
    (s.faulted = false ∧ ((s.leastFree = none ∧ execHash s = .next (s.finish .allocationFailure)) ∨
    ∃ h, s.leastFree = some h ∧
    ((s.badSource = true ∧ execHash s = .next (s.finish .invalidArgument)) ∨
    (s.badSource = false ∧ s.lengthOverflows 0 = true ∧ execHash s = .next (s.raiseFault .lengthOverflow)) ∨
    (s.badSource = false ∧ s.lengthOverflows 0 = false ∧ s.badDestination = true ∧
      execHash s = .next (s.finish .invalidArgument)) ∨
    (s.badSource = false ∧ s.lengthOverflows 0 = false ∧ s.badDestination = false ∧
      ((∃ i f, i < s.len ∧ checkAddress s.cfg (s.src + i) = .error f ∧ execHash s = .fault f) ∨
      (allAdmitted s.cfg s.src s.len ∧
        ((∃ i f, i < 32 ∧ checkAddress s.cfg (s.dst + i) = .error f ∧ execHash s = .fault f) ∨
        (allAdmitted s.cfg s.dst 32 ∧ execHash s = .next (hashState h s))))))))) := by
  cases hf : s.faulted with
  | true => exact .inl ⟨rfl, unlessFaulted_of_faulted hf _⟩
  | false =>
    refine .inr ⟨rfl, ?_⟩
    rw [execHash, unlessFaulted_of_not hf]
    cases hl : s.leastFree with
    | none => exact .inl ⟨rfl, rfl⟩
    | some h =>
      refine .inr ⟨h, rfl, ?_⟩
      cases hb : s.badSource with
      | true => exact .inl ⟨rfl, by simp [endWith]⟩
      | false =>
        cases ho : s.lengthOverflows 0 with
        | true => exact .inr (.inl ⟨rfl, rfl, by simp [endWithFault]⟩)
        | false =>
          cases hd : s.badDestination with
          | true => exact .inr (.inr (.inl ⟨rfl, rfl, rfl, by simp [endWith]⟩))
          | false =>
            refine .inr (.inr (.inr ⟨rfl, rfl, rfl, ?_⟩))
            rcases readBytes_cases s s.src s.len with ⟨ha, hr⟩ | ⟨i, f, hi, hf, hr⟩
            · refine .inr ⟨ha, ?_⟩
              rcases writeBytes_cases s.dst (serialize (hashedContext (bytesAt s.mem s.src s.len)).h) s with
                ⟨hwa, hw⟩ | ⟨i, f, hi, hf, hw⟩
              · exact .inr ⟨hwa, by simp [hr, hw, hashState]⟩
              · exact .inl ⟨i, f, hi, hf, by simp [hr, hw]⟩
            · exact .inl ⟨i, f, hi, hf, by simp [hr]⟩

/-- A successful HASH (R166). -/
theorem execHash_ok {s : State} {h : Nat} (hf : s.faulted = false) (hl : s.leastFree = some h) (hb : s.badSource = false)
    (ho : s.lengthOverflows 0 = false) (hd : s.badDestination = false) (ha : allAdmitted s.cfg s.src s.len)
    (hw : allAdmitted s.cfg s.dst 32) : execHash s = .next (hashState h s) := by
  rw [execHash, unlessFaulted_of_not hf]
  have hwr := writeBytes_ok (s := s) (a := s.dst) (bytes := serialize (hashedContext (bytesAt s.mem s.src s.len)).h)
    (by simpa using hw)
  simp [hl, hb, ho, hd, readBytes_ok s ha, hwr, hashState]

/-! ### An illegal word -/

/-- An illegal word: the faulted condition, or IllegalCommand (R207). -/
theorem execIllegal_cases (s : State) :
    (s.faulted = true ∧ execIllegal s = .next (s.finish .fault)) ∨
    (s.faulted = false ∧ execIllegal s = .next (s.finish .illegalCommand)) := by
  cases hf : s.faulted with
  | true => exact .inl ⟨rfl, unlessFaulted_of_faulted hf _⟩
  | false => exact .inr ⟨rfl, unlessFaulted_of_not hf _⟩

end Sys2Proof.Machine
end

