-- ==== Sys2Proof/Laws/Message.lean ====
section
/-! SUPPORT. The message a slot stands for (Safety.lean `Slot.Holds`): how it begins, how it grows, what FINALIZE makes of it, and
how the bytes of each Context follow a step. -/

namespace Sys2Proof.Machine

/-- A Fresh Context stands for the empty message. -/
theorem freshContext_holds (a) : (freshContext a).Holds [] := by
  constructor
  · simp
  · rfl
  · rfl
  · rfl
  · rfl

/-- A slot that stands for `m` and absorbs `xs` stands for `m ++ xs`. -/
theorem absorbAll_holds {sl : Slot} {m xs : List Byte} (h : sl.Holds m) (hs : 8 * (m ++ xs).length < 2 ^ 64) (st) :
    Slot.Holds { absorbAll xs sl with bitlen := sl.bitlen + BitVec.ofNat 64 (8 * xs.length), st := st } (m ++ xs) := by
  obtain ⟨h1, h2, h3, h4, h5⟩ := h
  obtain ⟨a1, a2, a3⟩ := absorbAll_absorbed xs sl
  rw [List.length_append] at hs
  have hm : (m ++ xs).length / 64 = m.length / 64 + (m.length % 64 + xs.length) / 64 := by rw [List.length_append]; omega
  have hm2 : (m ++ xs).length % 64 = (m.length % 64 + xs.length) % 64 := by rw [List.length_append]; omega
  rw [h3, h4] at a2 a3
  rw [h3] at a1
  have hd : (m ++ xs).drop (64 * (m.length / 64)) = m.drop (64 * (m.length / 64)) ++ xs := by
    rw [List.drop_append_of_le_length (by omega)]
  constructor
  · rw [List.length_append]; exact hs
  · show (sl.bitlen + _).toNat = _
    rw [BitVec.toNat_add, BitVec.toNat_ofNat, h2, List.length_append]; omega
  · show (absorbAll xs sl).bcnt.toNat = _
    rw [a1, hm2]
  · show (absorbAll xs sl).buf.toList.take _ = _
    rw [hm2, ← a1, a3, hm, Nat.mul_add, ← List.drop_drop, hd]
  · show (absorbAll xs sl).h = _
    rw [a2, hm, compressBlocks_add, hd, h5, compressBlocks_append _ m xs _ (by omega)]

/-- The hash state FINALIZE leaves in a slot that stands for `m` is that of SHA256(m). -/
theorem serialize_finalize {sl : Slot} {m : List Byte} (h : sl.Holds m) : serialize (finalize sl).h = sha256 m := by
  obtain ⟨h1, h2, h3, h4, h5⟩ := h
  rw [finalize_h, sha256, h3, h4, h5]
  have hb : sl.bitlen = BitVec.ofNat 64 (8 * m.length) := by
    apply BitVec.eq_of_toNat_eq; rw [h2, BitVec.toNat_ofNat]; omega
  rw [hb]
  congr 1
  generalize BitVec.ofNat 64 (8 * m.length) = L
  rw [compressBlocks_add, compressBlocks_append _ m _ _ (by omega), List.drop_append_of_le_length (by omega)]

/-- HASH's scratch Context ends with the digest of its bytes (R166). -/
theorem serialize_hashedContext (xs : List Byte) (hs : 8 * xs.length < 2 ^ 64) : serialize (hashedContext xs).h = sha256 xs := by
  have := absorbAll_holds (freshContext_holds false) (xs := xs) (by simpa using hs) .fresh
  rw [← serialize_finalize (m := xs) (by simpa using this)]
  unfold hashedContext
  dsimp only
  rw [show (absorbAll xs (freshContext false)).st = .fresh by rw [absorbAll_st]; rfl]
  simp

/-! ### The bytes each Context has absorbed -/

/-- A slot that was not live before the step begins with no bytes. -/
theorem absorbedAfter_of_not_live {s : State} {c : Nat} (h : liveState s c = none) (t : State) (absorbed : Nat → List Byte) :
    absorbedAfter s t absorbed c = [] := by simp [absorbedAfter, h]

/-- A successful UPDATE of a live Context appends its source bytes. -/
theorem absorbedAfter_of_update {s t : State} {c : Nat} {st : CtxState} (h : liveState s c = some st)
    (hu : s.nextCommand = some (.update c)) (ht : t.reportsOk = true) (absorbed : Nat → List Byte) :
    absorbedAfter s t absorbed c = absorbed c ++ bytesAt s.mem s.src s.len := by simp [absorbedAfter, h, hu, ht]

/-- Any other step leaves the bytes of a live Context. -/
theorem absorbedAfter_of_other {s t : State} {c : Nat} {st : CtxState} (h : liveState s c = some st)
    (hu : s.nextCommand = some (.update c) → t.reportsOk = false) (absorbed : Nat → List Byte) :
    absorbedAfter s t absorbed c = absorbed c := by
  simp only [absorbedAfter, h]
  exact if_neg fun ⟨h1, h2⟩ => by simp [hu h1] at h2

/-- Where each Context stands for given bytes, each stands for some message. -/
theorem State.HoldsMessages.tracks {s : State} {absorbed : Nat → List Byte} (h : s.HoldsMessages absorbed) :
    s.TracksMessages := by
  intro sl hsl ha hf
  obtain ⟨c, hc⟩ := List.getElem?_of_mem hsl
  exact ⟨absorbed c, h c sl hc ha hf⟩

end Sys2Proof.Machine
end

