-- ==== Sys2Proof/Laws/PerInstr.lean ====
section
/-! SUPPORT. The family EncodedFields: the encoded word of a well-formed command holds its opcode and its handle, and its
reserved fields are 0 (30_encoding.md R71, R73). One lemma for each constructor. -/

namespace Sys2Proof.Laws.EncodedFields

/-- The opcode of a command (R73). -/
def opcode : Instr → BitVec 4
  | .init => 1
  | .update _ => 2
  | .final _ => 3
  | .free _ => 4
  | .hash => 5

/-- The handle a command's word carries; 0 where the field is fixed (R73). -/
def handle : Instr → Nat
  | .init => 0
  | .update c => c
  | .final c => c
  | .free c => c
  | .hash => 0

/-- The fields of the word of a well-formed command. -/
def Statement (i : Instr) : Prop :=
  i.wellFormed = true →
    opcField (encode i) = opcode i ∧ (ctxField (encode i)).toNat = handle i ∧
    rsv0Field (encode i) = 0 ∧ rsv1Field (encode i) = 0

/-- The fields of a command word. -/
theorem fields_commandWord (opc : BitVec 4) (ctx : BitVec 8) :
    opcField (commandWord opc ctx) = opc ∧ ctxField (commandWord opc ctx) = ctx ∧
    rsv0Field (commandWord opc ctx) = 0 ∧ rsv1Field (commandWord opc ctx) = 0 := by
  refine ⟨?_, ?_, ?_, ?_⟩ <;> apply BitVec.eq_of_getLsbD_eq <;> intro i hi <;>
    interval_cases i <;> simp [opcField, ctxField, rsv0Field, rsv1Field, commandWord]

/-- A command word whose CTX is a well-formed handle. -/
theorem fields_of_handle (opc : BitVec 4) {c : Nat} (h : c < 256) :
    opcField (commandWord opc (BitVec.ofNat 8 c)) = opc ∧ (ctxField (commandWord opc (BitVec.ofNat 8 c))).toNat = c ∧
    rsv0Field (commandWord opc (BitVec.ofNat 8 c)) = 0 ∧ rsv1Field (commandWord opc (BitVec.ofNat 8 c)) = 0 := by
  obtain ⟨h1, h2, h3, h4⟩ := fields_commandWord opc (BitVec.ofNat 8 c)
  exact ⟨h1, by rw [h2, BitVec.toNat_ofNat, Nat.mod_eq_of_lt h], h3, h4⟩

theorem init : Statement .init := fun _ => by decide

theorem update (c : Nat) : Statement (.update c) := fun h => fields_of_handle 2 (by simpa [Instr.wellFormed] using h)

theorem final (c : Nat) : Statement (.final c) := fun h => fields_of_handle 3 (by simpa [Instr.wellFormed] using h)

theorem free (c : Nat) : Statement (.free c) := fun h => fields_of_handle 4 (by simpa [Instr.wellFormed] using h)

theorem hash : Statement .hash := fun _ => by decide

end Sys2Proof.Laws.EncodedFields
end

