-- ==== Sys2Proof/Laws/Step.lean ====
section
/-! SUPPORT. All that one step can do: what each action of the outside world makes of a state, and what every command leaves
alone. -/

namespace Sys2Proof.Machine

theorem step_idle {s : State} (h : s.hostOps = []) : step s = .next s := by simp [step, h]

theorem step_cons {s : State} {op : HostOp} {rest : List HostOp} (h : s.hostOps = op :: rest) :
    step s = hostStep op { s with hostOps := rest } := by
  simp [step, h]

theorem windowReg_cmd (cfg : Config) : windowReg cfg cfg.mmioBase 32 = some .cmd := by simp [windowReg]

/-- A CMD write runs its word (R160). -/
theorem step_cmd {s : State} {w : Word} {rest : List HostOp} (h : s.hostOps = cmdWrite s.cfg w :: rest) :
    step s = execute w { s with hostOps := rest } := by
  simp [step, h, cmdWrite, hostStep, hostRegWrite, windowReg_cmd]

/-- The command of a step whose CMD write decodes (R24). -/
theorem nextCommand_cmd {s : State} {v : DWord} {rest : List HostOp} {i : Instr}
    (h : s.hostOps = .regWrite s.cfg.mmioBase 32 v :: rest) (hd : decode (v.setWidth 32) = .ok i) : s.nextCommand = some i := by
  simp [State.nextCommand, h, hd, Except.toOption]

theorem execute_of_ok {w : Word} {i : Instr} (h : decode w = .ok i) (s : State) : execute w s = exec i s := by
  simp [execute, h]

theorem execute_of_error {w : Word} {e : DecodeError} (h : decode w = .error e) (s : State) : execute w s = execIllegal s := by
  simp [execute, h]

/-- What no command changes: the operand registers, the platform, the host's actions and the number of slots. -/
theorem exec_keeps {i : Instr} {s t : State} (h : exec i s = .next t) :
    t.srcAddr = s.srcAddr ∧ t.srcLen = s.srcLen ∧ t.dstAddr = s.dstAddr ∧ t.cfg = s.cfg ∧ t.hostOps = s.hostOps ∧
    t.readData = s.readData ∧ t.slots.length = s.slots.length := by
  cases i with
  | init =>
    rcases execInit_cases s with ⟨_, he⟩ | ⟨_, _, he⟩ | ⟨_, h', _, he⟩ <;> (rw [exec, he] at h; cases h; simp)
  | update c =>
    rcases execUpdate_cases c s with ⟨_, he⟩ | ⟨_, ⟨_, he⟩ | ⟨sl, _, ⟨_, he⟩ | ⟨_, _, he⟩ | ⟨_, _, _, he⟩ | ⟨_, _, _, ⟨_, _, _, _, he⟩ | ⟨_, he⟩⟩⟩⟩ <;>
      (rw [exec, he] at h; cases h; try simp)
  | final c =>
    rcases execFinal_cases c s with ⟨_, he⟩ | ⟨_, ⟨_, he⟩ | ⟨sl, _, ⟨_, he⟩ | ⟨_, _, he⟩ | ⟨_, _, ⟨_, _, _, _, he⟩ | ⟨_, he⟩⟩⟩⟩ <;>
      (rw [exec, he] at h; cases h; try simp [finalState])
  | free c =>
    rcases execFree_cases c s with ⟨_, he⟩ | ⟨_, _, he⟩ | ⟨_, sl, _, he⟩ <;> (rw [exec, he] at h; cases h; simp)
  | hash =>
    rcases execHash_cases s with ⟨_, he⟩ | ⟨_, ⟨_, he⟩ | ⟨sl, _, ⟨_, he⟩ | ⟨_, _, he⟩ | ⟨_, _, _, he⟩ | ⟨_, _, _, ⟨_, _, _, _, he⟩ | ⟨_, ⟨_, _, _, _, he⟩ | ⟨_, he⟩⟩⟩⟩⟩ <;>
      (rw [exec, he] at h; cases h; try simp [hashState])

/-- The register window has the five registers and nothing else (R59). -/
theorem windowReg_cases (cfg : Config) (a w : Nat) :
    (windowReg cfg a w = some .cmd ∧ a = cfg.mmioBase ∧ w = 32) ∨
    (windowReg cfg a w = some .status ∧ a = cfg.mmioBase + 4 ∧ w = 32) ∨
    (windowReg cfg a w = some .srcAddr ∧ a = cfg.mmioBase + 8 ∧ w = 64) ∨
    (windowReg cfg a w = some .srcLen ∧ a = cfg.mmioBase + 16 ∧ w = 64) ∨
    (windowReg cfg a w = some .dstAddr ∧ a = cfg.mmioBase + 24 ∧ w = 64) ∨
    (windowReg cfg a w = none ∧ (a, w) ∉ [(cfg.mmioBase, 32), (cfg.mmioBase + 0x04, 32), (cfg.mmioBase + 0x08, 64),
        (cfg.mmioBase + 0x10, 64), (cfg.mmioBase + 0x18, 64)]) := by
  unfold windowReg
  split_ifs with h1 h2 h3 h4 h5 <;> simp_all

/-- All that a step with a next state can have done. -/
theorem step_cases {s t : State} (h : step s = .next t) :
    (s.hostOps = [] ∧ t = s) ∨
    ∃ op rest, s.hostOps = op :: rest ∧
     ((∃ v, op = .regWrite s.cfg.mmioBase 32 v ∧ execute (v.setWidth 32) {s with hostOps := rest} = .next t) ∨
      (∃ v, op = .regWrite (s.cfg.mmioBase + 4) 32 v ∧ t = {s with hostOps := rest}) ∨
      (∃ v, op = .regWrite (s.cfg.mmioBase + 8) 64 v ∧ t = {s with hostOps := rest, srcAddr := v}) ∨
      (∃ v, op = .regWrite (s.cfg.mmioBase + 16) 64 v ∧ t = {s with hostOps := rest, srcLen := v}) ∨
      (∃ v, op = .regWrite (s.cfg.mmioBase + 24) 64 v ∧ t = {s with hostOps := rest, dstAddr := v}) ∨
      (∃ a w v, op = .regRead a w ∧ t = {s with hostOps := rest, readData := some v}) ∨
      (∃ a v, op = .memWrite a v ∧ a < s.cfg.memSize ∧ t = {s with hostOps := rest, mem := Memory.write s.mem a v}) ∨
      (op = .reset ∧ t = resetBlock {s with hostOps := rest})) := by
  cases hs : s.hostOps with
  | nil => left; simp [step, hs] at h; exact ⟨rfl, h.symm⟩
  | cons op rest =>
    right; refine ⟨op, rest, rfl, ?_⟩
    rw [step_cons hs] at h
    cases op with
    | regWrite a w v =>
      simp only [hostStep, hostRegWrite] at h
      rcases windowReg_cases s.cfg a w with ⟨hw, ha, hb⟩ | ⟨hw, ha, hb⟩ | ⟨hw, ha, hb⟩ | ⟨hw, ha, hb⟩ | ⟨hw, ha, hb⟩ | ⟨hw, _⟩
      · subst ha hb; left; simp only [hw] at h; exact ⟨v, rfl, h⟩
      · subst ha hb; right; left; simp only [hw] at h; cases h; exact ⟨v, rfl, rfl⟩
      · subst ha hb; right; right; left; simp only [hw] at h; cases h; exact ⟨v, rfl, rfl⟩
      · subst ha hb; right; right; right; left; simp only [hw] at h; cases h; exact ⟨v, rfl, rfl⟩
      · subst ha hb; right; right; right; right; left; simp only [hw] at h; cases h; exact ⟨v, rfl, rfl⟩
      · simp only [hw] at h; cases h
    | regRead a w =>
      simp only [hostStep, hostRegRead] at h
      right; right; right; right; right; left
      split at h
      · cases h
      · cases h; exact ⟨a, w, _, rfl, rfl⟩
    | memWrite a v =>
      simp only [hostStep, hostMemWrite] at h
      right; right; right; right; right; right; left
      split at h
      · cases h
      · next s' hm => cases h; obtain ⟨e, h1, _⟩ := memWrite_ok hm; exact ⟨a, v, rfl, h1, e⟩
    | reset => simp only [hostStep] at h; cases h; simp

end Sys2Proof.Machine
end

