-- ==== Sys2Proof/Tests/Slice0.lean ====
section
/-! SUPPORT. Tests, with expected results from 95_test_vectors.md (the section is named at each) or written out from the
encodings; and, for every statement that has hypotheses, a concrete state and operands that meet them. -/

namespace Sys2Proof.Tests

open Sys2Proof.Machine

/-! ### States and outcomes the tests use -/

/-- The bytes of "abc". -/
def abc : List Byte := [0x61, 0x62, 0x63]

/-- SHA256("abc") (95_test_vectors.md section 5.3, V-H1, and program P1). -/
def abcDigest : List Byte :=
  [0xba, 0x78, 0x16, 0xbf, 0x8f, 0x01, 0xcf, 0xea, 0x41, 0x41, 0x40, 0xde, 0x5d, 0xae, 0x22, 0x23] ++
  [0xb0, 0x03, 0x61, 0xa3, 0x96, 0x17, 0x7a, 0x9c, 0xb4, 0x10, 0xff, 0x61, 0xf2, 0x00, 0x15, 0xad]

/-- A Context slot with these counts; the first three bytes of BUF are "abc". -/
def slot (st : CtxState) (bcnt : BitVec 6) (bitlen : DWord) : Slot :=
  { alloc := true, st := st, h := iv, buf := storeBuf 0 abc (Vector.replicate 64 0), bcnt := bcnt, bitlen := bitlen }

/-- A state of the vectors' platform: "abc" at 0x1000, these slots, and the operand registers set. -/
def sys (slots : List Slot) (src len dst : DWord) : State :=
  { State.reset with slots := slots, mem := [(0x1000, 0x61), (0x1001, 0x62), (0x1002, 0x63)],
                     srcAddr := src, srcLen := len, dstAddr := dst }

/-- The state in the faulted condition that FREE 0 with no Context leaves (95_test_vectors.md V-R3). -/
def faultedSys : State := { sys [Slot.reset, Slot.reset] 0x1000 3 0x2000 with status := 0x00030005 }

/-- The vectors' platform with host memory only below 0x2000. -/
def smallMemory : Config := { addrW := 64, mmioBase := 0, hostMem := [⟨0, 0x2000⟩] }

/-- Whether an outcome is a next state with a property. -/
def nextWith (o : Host.Outcome State Fault Refusal) (p : State → Bool) : Bool :=
  match o with
  | .next t => p t
  | .fault _ => false
  | .refused _ => false

/-- Whether an outcome is a given fault. -/
def isFault (o : Host.Outcome State Fault Refusal) (f : Fault) : Bool :=
  match o with
  | .next _ => false
  | .fault g => decide (g = f)
  | .refused _ => false

/-- The step in which the host writes a command word. -/
def runWord (s : State) (w : Nat) : Host.Outcome State Fault Refusal := step (s.withFetchWord 32 w)

theorem exists_next {o : Host.Outcome State Fault Refusal} {p : State → Bool} (h : nextWith o p = true) :
    ∃ t, o = .next t ∧ p t = true := by
  cases o with
  | next t => exact ⟨t, rfl, h⟩
  | fault f => cases h
  | refused r => cases h

/-! ### WellFormed: a handle outside the 8-bit CTX field is refused (R71) -/

theorem test_wellFormed_update : (Instr.update 256).wellFormed = false ∧ (Instr.update 255).wellFormed = true := by decide
theorem test_wellFormed_final : (Instr.final 256).wellFormed = false ∧ (Instr.final 255).wellFormed = true := by decide
theorem test_wellFormed_free : (Instr.free 256).wellFormed = false ∧ (Instr.free 255).wellFormed = true := by decide

/-! ### Decoding (95_test_vectors.md section 4): bits 31-16 RSV1, 15-8 CTX, 7-4 RSV0, 3-0 OPC -/

theorem test_decode_init : decode 0b00000000000000000000000000000001 = .ok .init := by decide
theorem test_decode_update :
    decode 0b00000000000000000000000100000010 = .ok (.update 1) ∧
    decode 0b00000000000000001111111100000010 = .ok (.update 255) := by decide
theorem test_decode_final : decode 0b00000000000000000010101000000011 = .ok (.final 42) := by decide
theorem test_decode_free : decode 0b00000000000000000000011100000100 = .ok (.free 7) := by decide
theorem test_decode_hash : decode 0b00000000000000000000000000000101 = .ok .hash := by decide
theorem test_decode_illegal :
    decode 0x00000000 = .error .reservedOpcode ∧ decode 0x00000006 = .error .reservedOpcode ∧
    decode 0x0000000F = .error .reservedOpcode ∧ decode 0xFFFFFFFF = .error .reservedOpcode ∧
    decode 0x00000012 = .error .rsv0NotZero ∧ decode 0x00010002 = .error .rsv1NotZero ∧
    decode 0x80000003 = .error .rsv1NotZero ∧ decode 0x00000101 = .error .ctxNotZero ∧
    decode 0x00000105 = .error .ctxNotZero := by decide
theorem test_encode_handle : encode (.update 255) = 0x0000FF02 ∧ encode (.free 7) = 0x00000704 := by decide

/-! ### Primitives (section 2) -/

theorem test_rotr_shr :
    rotr 0x00000001 1 = 0x80000000 ∧ rotr 0x12345678 4 = 0x81234567 ∧ rotr 0x12345678 0 = 0x12345678 ∧
    shr 0x80000000 3 = 0x10000000 ∧ shr 0xFFFFFFFF 10 = 0x003FFFFF := by decide
theorem test_ch_maj :
    ch 0x510E527F 0x9B05688C 0x1F83D9AB = 0x1F85C98C ∧ ch 0xF0F0F0F0 0x12345678 0x9ABCDEF0 = 0x1A3C5E70 ∧
    maj 0x6A09E667 0xBB67AE85 0x3C6EF372 = 0x3A6FE667 ∧ maj 0xF0F0F0F0 0x12345678 0x9ABCDEF0 = 0x92B4D6F0 := by decide
theorem test_sigmas :
    bigSigma0 0x6A09E667 = 0xCE20B47E ∧ bigSigma0 1 = 0x40080400 ∧ bigSigma1 0x510E527F = 0x3587272B ∧
    bigSigma1 1 = 0x04200080 ∧ smallSigma0 1 = 0x02004000 ∧ smallSigma0 0x80000000 = 0x11002000 ∧
    smallSigma1 1 = 0x0000A000 ∧ smallSigma1 0x80000000 = 0x00205000 := by decide
theorem test_codecs :
    be32 0x61 0x62 0x63 0x80 = 0x61626380 ∧ be32enc 0xBA7816BF = [0xBA, 0x78, 0x16, 0xBF] ∧
    be64 24 = [0, 0, 0, 0, 0, 0, 0, 0x18] ∧ be64 0xFFFFFFFFFFFFFFF8 = [0xFF, 0xFF, 0xFF, 0xFF, 0xFF, 0xFF, 0xFF, 0xF8] := by
  decide

/-! ### Block functions (section 3) -/

/-- The closing block of "abc" (section 3.1). -/
def abcBlock : Block := blockOf (abc ++ pad 3 24)

theorem test_expand_abc :
    (expand abcBlock).take 18 = 0x61626380 :: (List.replicate 14 0 ++ [0x18, 0x61626380, 0x000F0000]) ∧
    (expand abcBlock).drop 60 = [0xA43FCF15, 0x668B2FF8, 0xEEABA2CC, 0x12B1EDEB] := by decide +kernel
theorem test_round_0 :
    round 0x428A2F98 0x61626380 (HashState.workVars iv) =
      ⟨0x5D6AEBCD, 0x6A09E667, 0xBB67AE85, 0x3C6EF372, 0xFA2A4622, 0x510E527F, 0x9B05688C, 0x1F83D9AB⟩ := by decide
theorem test_compress_abc :
    compress iv abcBlock =
      ⟨0xBA7816BF, 0x8F01CFEA, 0x414140DE, 0x5DAE2223, 0xB00361A3, 0x96177A9C, 0xB410FF61, 0xF20015AD⟩ := by decide +kernel
theorem test_compress_zeros :
    compress iv (Vector.replicate 64 0) =
      ⟨0xDA5698BE, 0x17B9B469, 0x62335799, 0x779FBECA, 0x8CE5D491, 0xC0D26243, 0xBAFEF9EA, 0x1837A9D8⟩ := by decide +kernel
theorem test_pad :
    [0, 3, 55, 56, 63].map padZeros = [55, 52, 0, 63, 56] ∧ [0, 3, 55, 56, 63].map closingBlocks = [1, 1, 1, 2, 2] ∧
    [0, 3, 55, 56, 63].map (fun n => (pad n 0).length) = [64, 61, 9, 72, 65] := by decide

/-- Section 3.5: 55 bytes of 'a' close in one block. -/
theorem test_sha256_55 :
    (sha256 (List.replicate 55 0x61)).take 8 = [0x9f, 0x43, 0x90, 0xf8, 0xd3, 0x0c, 0x2d, 0xd9] := by decide +kernel
/-- Section 3.5: 56 bytes of 'a' close in two. -/
theorem test_sha256_56 :
    (sha256 (List.replicate 56 0x61)).take 8 = [0xb3, 0x54, 0x39, 0xa4, 0xac, 0x6f, 0x09, 0x48] := by decide +kernel
/-- Section 3.5: 64 bytes of 'a', a full block and a closing one, absorbed byte by byte. -/
theorem test_hashed_64 :
    (serialize (hashedContext (List.replicate 64 0x61)).h).take 8 = [0xff, 0xe0, 0x54, 0xfe, 0x7a, 0xe0, 0xcb, 0x6d] := by
  decide +kernel

/-! ### Commands (section 5) -/

/-- V-I2. -/
theorem test_init_second : nextWith (runWord (sys [slot .fresh 0 0, Slot.reset] 0 0 0) 0x00000001)
    (fun t => t.status == 0x00000100 && t.slots[1]? == some (freshContext true)) = true := by decide +kernel
/-- V-I3. -/
theorem test_init_full : nextWith (runWord (sys [slot .fresh 0 0, slot .fresh 0 0] 0 0 0) 0x00000001)
    (fun t => t.status == 0x00000001) = true := by decide +kernel
/-- V-U1. -/
theorem test_update_abc : nextWith (runWord (sys [freshContext true, Slot.reset] 0x1000 3 0) 0x00000002)
    (fun t => t.status == 0x00000000 && t.slots[0]? == some (slot .accumulating 3 24)) = true := by decide +kernel
/-- V-U5 and V-U4: the top of host memory. -/
theorem test_update_top :
    nextWith (runWord (sys [freshContext true] 0xFFFFFFFFFFFFFFFD 3 0) 0x00000002) (fun t => t.status == 0x00000000) = true ∧
    nextWith (runWord (sys [freshContext true] 0xFFFFFFFFFFFFFFFE 3 0) 0x00000002) (fun t => t.status == 0x00000003) = true := by
  decide +kernel
/-- V-F1. -/
theorem test_final_abc : nextWith (runWord (sys [slot .accumulating 3 24] 0 0 0x2000) 0x00000003)
    (fun t => t.status == 0x00000000 && bytesAt t.mem 0x2000 32 == abcDigest && liveState t 0 == some .finalized) = true := by
  decide +kernel
/-- V-F4 and V-F3: a destination that passes the top of host memory, and a null one. -/
theorem test_final_bad_destination :
    nextWith (runWord (sys [slot .fresh 0 0] 0 0 0xFFFFFFFFFFFFFFE1) 0x00000003) (fun t => t.status == 0x00000003) = true ∧
    nextWith (runWord (sys [slot .fresh 0 0] 0 0 0) 0x00000003) (fun t => t.status == 0x00000003) = true := by decide +kernel
/-- V-R1. -/
theorem test_free_finalized : nextWith (runWord (sys [slot .finalized 0 0] 0 0 0) 0x00000004)
    (fun t => t.status == 0x00000000 && liveState t 0 == none) = true := by decide +kernel
/-- V-R3. -/
theorem test_free_never_allocated : nextWith (runWord (sys [Slot.reset, Slot.reset] 0 0 0) 0x00000004)
    (fun t => t.status == 0x00030005) = true := by decide +kernel
/-- V-H3: the ranges overlap, and the source is read first. -/
theorem test_hash_overlap : nextWith (runWord (sys [Slot.reset, Slot.reset] 0x1000 3 0x1001) 0x00000005)
    (fun t => t.status == 0x00000000 && bytesAt t.mem 0x1001 32 == abcDigest && t.slots.all (fun sl => !sl.alloc)) = true := by
  decide +kernel
/-- V-H7 and V-H8: the order of HASH's checks. -/
theorem test_hash_order :
    nextWith (runWord (sys [Slot.reset] 0 0x2000000000000000 0x2000) 0x00000005) (fun t => t.status == 0x00000003) = true ∧
    nextWith (runWord (sys [Slot.reset] 1 0x2000000000000000 0) 0x00000005) (fun t => t.status == 0x00050005) = true := by
  decide +kernel
/-- V-X1 and V-X4: an illegal word, and one in the faulted condition. -/
theorem test_illegal_word :
    nextWith (runWord (sys [slot .fresh 0 0] 0 0 0) 0x00000006) (fun t => t.status == 0x00000004) = true ∧
    nextWith (runWord { sys [slot .fresh 0 0] 0 0 0 with status := 0x00050005 } 0x00000006)
      (fun t => t.status == 0x00050005) = true := by decide +kernel
/-- V-X8: the operand registers work in the faulted condition. -/
theorem test_operand_register_faulted :
    nextWith (step { faultedSys with hostOps := [.regWrite 0x08 64 0x55] })
      (fun t => t.status == 0x00030005 && t.srcAddr == 0x55) = true := by decide +kernel
/-- V-X7: reset clears the fault. -/
theorem test_reset_clears_fault :
    nextWith (step { faultedSys with hostOps := [.reset] }) (fun t => t.status == 0 && t.slots.all (fun sl => !sl.alloc)) = true := by
  decide +kernel
/-- Writing the byte an unlisted address reads as unlists it, so that equal memories are equal data. -/
theorem test_memory_canonical :
    Memory.write [(1, 0x61), (3, 0x63)] 2 0x62 = [(1, 0x61), (2, 0x62), (3, 0x63)] ∧
    Memory.write [(1, 0x61), (3, 0x63)] 1 0 = [(3, 0x63)] := by decide

/-! ### Witnesses: states and operands that meet the hypotheses of each statement, clause by clause -/

/-- Slot 0 stands for "abc" and is Accumulating; slot 1 is free. -/
def busySys : State := sys [slot .accumulating 3 24, Slot.reset] 0x1000 3 0x2000

/-- A Finalized Context in slot 0, a free slot 1. -/
def finalizedSys : State := sys [slot .finalized 0 24, Slot.reset] 0x1000 3 0x2000

/-- Every slot taken. -/
def fullSys : State := sys [slot .fresh 0 0, slot .fresh 0 0] 0x1000 3 0x2000

/-- `s` with one action of the host to come. -/
def withOp (s : State) (op : HostOp) : State := { s with hostOps := [op] }

theorem witness_DecodeOfEncodeIsTheCommand : (Instr.update 255).wellFormed = true ∧ (Instr.free 0).wellFormed = true := by decide

theorem witness_EncodeOfDecodeIsTheWord : decode 0x0000FF02 = .ok (.update 255) := by decide

theorem witness_IllegalWordReportsIllegalCommand :
    IllegalWord 0x00010002 ∧ IllegalWord 0x00000000 ∧ IllegalWord 0x00000006 ∧ IllegalWord 0x00000012 ∧ IllegalWord 0x00000105 ∧
    faultedField (withOp busySys (cmdWrite busySys.cfg 0x00010002)).status = 0 ∧
    (withOp busySys (cmdWrite busySys.cfg 0x00010002)).hostOps = cmdWrite busySys.cfg 0x00010002 :: [] := by
  unfold IllegalWord; decide

theorem witness_StepRunsTheDecodedCommand :
    (withOp busySys (cmdWrite busySys.cfg 0x00000002)).hostOps = cmdWrite busySys.cfg 0x00000002 :: [] ∧
    decode 0x00000002 = .ok (.update 0) ∧ State.reset.hostOps = [] := by decide

theorem witness_RegisterWindowAccesses :
    (∀ op ∈ [HostOp.regWrite 0x04 32 7, .regWrite 0x08 64 7, .regWrite 0x10 64 7, .regWrite 0x18 64 7, .regRead 0 32,
        .regRead 0x04 32, .regRead 0x08 64, .regRead 0x10 64, .regRead 0x18 64, .regWrite 0x04 64 7, .regRead 0x20 32, .reset],
      (withOp busySys op).hostOps = op :: []) ∧
    (∀ a ∈ [(0x04, 64), (0x20, 32), (0x01, 32), (0x0c, 32)],
      busySys.cfg.mmioBase ≤ a.1 ∧ a ∉ [(0, 32), (0x04, 32), (0x08, 64), (0x10, 64), ((0x18 : Nat), (64 : Nat))]) ∧
    ∃ t, step (withOp busySys (.regWrite 0x10 64 7)) = .next t ∧
      (t.srcLen == 7 && decide ((withOp busySys (.regWrite 0x10 64 7)).hostOps.head? ≠ some .reset)) = true := by
  refine ⟨by decide, by decide, ?_⟩
  exact exists_next (p := fun t => t.srcLen == 7 &&
    decide ((withOp busySys (.regWrite 0x10 64 7)).hostOps.head? ≠ some .reset)) (by decide +kernel)

theorem witness_HostMemoryWriteStoresOneByte :
    (withOp busySys (.memWrite (2 ^ 64 - 1) 5)).hostOps = .memWrite (2 ^ 64 - 1) 5 :: [] ∧
    allAdmitted busySys.cfg (2 ^ 64 - 1) 1 ∧ ¬ allAdmitted busySys.cfg (2 ^ 64) 1 ∧ ¬ allAdmitted smallMemory 0x2000 1 ∧
    Memory.wf busySys.mem = true := by
  unfold allAdmitted; decide

theorem witness_ListingLineRunsItsCommand : (255 : Nat) < 256 := by decide

theorem witness_FinishRewritesWholeStatus :
    (∃ t, exec .init busySys = .next t ∧ (codeField t.status == 0) = true) ∧
    (∃ t, exec .init fullSys = .next t ∧ (codeField t.status == 1) = true) :=
  ⟨exists_next (p := fun t => codeField t.status == 0) (by decide +kernel),
   exists_next (p := fun t => codeField t.status == 1) (by decide +kernel)⟩

theorem witness_RaisingAFaultLatchesTheFirstCause :
    (faultedField busySys.status = 0 ∧ ∃ t, exec (.free 1) busySys = .next t ∧ (codeField t.status == 5) = true) ∧
    (faultedField faultedSys.status = 1 ∧ ∃ t, exec .init faultedSys = .next t ∧ (codeField t.status == 5) = true) :=
  ⟨⟨by decide, exists_next (p := fun t => codeField t.status == 5) (by decide +kernel)⟩,
   ⟨by decide, exists_next (p := fun t => codeField t.status == 5) (by decide +kernel)⟩⟩

theorem witness_FaultedBlockRefusesEveryCommand :
    (∀ op ∈ [cmdWrite Config.standard 6, srcAddrWrite Config.standard 7, srcLenWrite Config.standard 7,
        dstAddrWrite Config.standard 7, .regRead 0x08 64, .regRead 0x10 64, .regRead 0x18 64, .reset],
      faultedField (withOp faultedSys op).status = 1 ∧ (withOp faultedSys op).hostOps = op :: []) ∧
    (withOp faultedSys (cmdWrite Config.standard 6)).hostOps.head? ≠ some .reset ∧
    ∃ t, step (withOp faultedSys (cmdWrite Config.standard 6)) = .next t ∧ (faultedField t.status == 1) = true :=
  ⟨by decide, by decide, exists_next (p := fun t => faultedField t.status == 1) (by decide +kernel)⟩

theorem witness_FailedCommandChangesOnlyStatus :
    ∃ t, exec (.final 0) finalizedSys = .next t ∧ (codeField t.status == 2) = true :=
  exists_next (p := fun t => codeField t.status == 2) (by decide +kernel)

theorem witness_ResetEventFreesEverySlot : (withOp busySys .reset).hostOps = .reset :: [] := rfl

theorem witness_ResetStateMeetsTheInvariants :
    1 ≤ 256 ∧ 256 ≤ 256 ∧ Config.Legal ⟨64, 8, []⟩ ∧ Config.Legal ⟨1, 0, [⟨0, 2⟩]⟩ ∧ ¬ Config.Legal ⟨65, 0, []⟩ := by decide

theorem isLeastFree_of {s : State} {h : Nat} (hl : s.leastFree = some h) : IsLeastFree s h := leastFree_eq_some.1 hl

theorem witness_InitTakesTheLeastFreeSlot :
    faultedField fullSys.status = 0 ∧ (∀ sl ∈ fullSys.slots, sl.alloc = true) ∧
    faultedField busySys.status = 0 ∧ IsLeastFree busySys 1 ∧ IsLeastFree State.reset 0 :=
  ⟨by decide, by decide, by decide, isLeastFree_of (by decide), isLeastFree_of (by decide)⟩

/-- UPDATE: a bad handle beyond the slots and one of a free slot; a Finalized Context; a source that is null and one that ends one
byte above the top; a total of 2^64 bits from the largest source; a source byte that does not answer; and the plain case, at the
top of memory too. -/
theorem witness_UpdateAbsorbsTheSourceBytes :
    (liveState busySys 1 = none ∧ liveState busySys 2 = none ∧ faultedField busySys.status = 0) ∧
    (finalizedSys.slots[0]? = some (slot .finalized 0 24) ∧ (slot .finalized 0 24).alloc = true) ∧
    ((slot .fresh 0 0).st ≠ .finalized ∧ SourceRejected { fullSys with srcAddr := 0 } ∧
      SourceRejected { fullSys with srcAddr := 0xFFFFFFFFFFFFFFFE }) ∧
    (¬ SourceRejected { fullSys with srcAddr := 1, srcLen := 0x2000000000000000 } ∧
      TotalOverflows { fullSys with srcAddr := 1, srcLen := 0x2000000000000000 } 0) ∧
    (¬ SourceRejected { fullSys with srcAddr := 0x1FFF, srcLen := 2, cfg := smallMemory } ∧
      ¬ allAdmitted smallMemory 0x1FFF 2) ∧
    (busySys.slots[0]? = some (slot .accumulating 3 24) ∧ ¬ SourceRejected busySys ∧ ¬ TotalOverflows busySys 24 ∧
      allAdmitted busySys.cfg busySys.src busySys.len) ∧
    (¬ SourceRejected { busySys with srcAddr := 0xFFFFFFFFFFFFFFFD } ∧ ¬ TotalOverflows busySys (2 ^ 64 - 32) ∧
      allAdmitted busySys.cfg 0xFFFFFFFFFFFFFFFD 3) := by
  unfold SourceRejected TotalOverflows allAdmitted; decide

/-- FINAL: as for UPDATE; a null destination and one that ends one byte above the top; one whose last byte does not answer; and
the plain case, with the highest destination there is. -/
theorem witness_FinalWritesTheDigest :
    (liveState busySys 1 = none ∧ liveState busySys 2 = none ∧ faultedField busySys.status = 0) ∧
    (finalizedSys.slots[0]? = some (slot .finalized 0 24) ∧ (slot .finalized 0 24).alloc = true) ∧
    ((slot .accumulating 3 24).st ≠ .finalized ∧ DestinationRejected { busySys with dstAddr := 0 } ∧
      DestinationRejected { busySys with dstAddr := 0xFFFFFFFFFFFFFFE1 }) ∧
    (¬ DestinationRejected { busySys with dstAddr := 0x1FE1, cfg := smallMemory } ∧ ¬ allAdmitted smallMemory 0x1FE1 32) ∧
    (busySys.slots[0]? = some (slot .accumulating 3 24) ∧ ¬ DestinationRejected { busySys with dstAddr := 0xFFFFFFFFFFFFFFE0 } ∧
      allAdmitted busySys.cfg 0xFFFFFFFFFFFFFFE0 32 ∧ Memory.wf busySys.mem = true) := by
  unfold DestinationRejected allAdmitted; decide

theorem witness_FreeReleasesTheContext :
    liveState busySys 1 = none ∧ faultedField busySys.status = 0 ∧
    busySys.slots[0]? = some (slot .accumulating 3 24) ∧ (slot .accumulating 3 24).alloc = true := by decide

/-- HASH: no slot; a bad source; an overflow; a bad destination; a byte of either range that does not answer; the plain case. -/
theorem witness_HashWritesTheDigestOfItsSource :
    (faultedField fullSys.status = 0 ∧ ∀ sl ∈ fullSys.slots, sl.alloc = true) ∧
    IsLeastFree busySys 1 ∧ SourceRejected { busySys with srcAddr := 0 } ∧
    (¬ SourceRejected { busySys with srcAddr := 1, srcLen := 0x2000000000000000 } ∧
      TotalOverflows { busySys with srcAddr := 1, srcLen := 0x2000000000000000 } 0) ∧
    (¬ SourceRejected busySys ∧ ¬ TotalOverflows busySys 0 ∧ DestinationRejected { busySys with dstAddr := 0 }) ∧
    (¬ DestinationRejected { busySys with dstAddr := 0x1FE1, cfg := smallMemory } ∧ ¬ allAdmitted smallMemory 0x1FE1 32) ∧
    (¬ DestinationRejected busySys ∧ allAdmitted busySys.cfg busySys.src busySys.len ∧ allAdmitted busySys.cfg busySys.dst 32 ∧
      Memory.wf busySys.mem = true) := by
  refine ⟨by decide, isLeastFree_of (by decide), ?_⟩
  unfold SourceRejected TotalOverflows DestinationRejected allAdmitted; decide

/-- One command for each clause of the state machine. -/
theorem witness_ContextStateMachine :
    (∃ t, exec .init busySys = .next t ∧ (codeField t.status == 0) = true) ∧
    (∃ t, exec (.update 0) busySys = .next t ∧ (codeField t.status == 0) = true) ∧
    (∃ t, exec (.final 0) busySys = .next t ∧ (codeField t.status == 0) = true) ∧
    (∃ t, exec (.free 0) busySys = .next t ∧ (codeField t.status == 0) = true) ∧
    (∃ t, exec .hash busySys = .next t ∧ (codeField t.status == 0) = true) ∧
    (∃ t, exec (.update 0) finalizedSys = .next t ∧ (liveState finalizedSys 0 == some .finalized) = true) ∧
    (∃ t, exec (.final 1) finalizedSys = .next t ∧ (liveState finalizedSys 1 == none) = true) :=
  ⟨exists_next (p := fun t => codeField t.status == 0) (by decide +kernel),
   exists_next (p := fun t => codeField t.status == 0) (by decide +kernel),
   exists_next (p := fun t => codeField t.status == 0) (by decide +kernel),
   exists_next (p := fun t => codeField t.status == 0) (by decide +kernel),
   exists_next (p := fun t => codeField t.status == 0) (by decide +kernel),
   exists_next (p := fun _ => liveState finalizedSys 0 == some .finalized) (by decide +kernel),
   exists_next (p := fun _ => liveState finalizedSys 1 == none) (by decide +kernel)⟩

/-- A Finalized Context, and a step that is neither reset nor a FREE of it: an INIT. -/
theorem witness_FinalizedContextIsTerminal :
    finalizedSys.slots[0]? = some (slot .finalized 0 24) ∧ (slot .finalized 0 24).alloc = true ∧
    (slot .finalized 0 24).st = .finalized ∧ faultedField finalizedSys.status = 0 ∧
    (withOp finalizedSys (.regWrite 0 32 1)).hostOps.head? ≠ some .reset ∧
    decode ((1 : DWord).setWidth 32) ≠ .ok (.free 0) ∧
    ∃ t, step (withOp finalizedSys (.regWrite 0 32 1)) = .next t ∧ (liveState t 1 == some .fresh) = true :=
  ⟨by decide, by decide, by decide, by decide, by decide, by decide,
   exists_next (p := fun t => liveState t 1 == some .fresh) (by decide +kernel)⟩

theorem witness_CommandsKeepOperandsAndOtherSlots :
    (∃ t, exec (.update 0) fullSys = .next t ∧ (codeField t.status == 0) = true) ∧
    (∃ t, exec .hash busySys = .next t ∧ (codeField t.status == 0) = true) ∧
    busySys.slots[0]? = some (slot .accumulating 3 24) ∧ (slot .accumulating 3 24).alloc = true :=
  ⟨exists_next (p := fun t => codeField t.status == 0) (by decide +kernel),
   exists_next (p := fun t => codeField t.status == 0) (by decide +kernel), by decide, by decide⟩

/-- Two canonical memories that differ outside the source range, and, for a command that reads none, one that differs in it. -/
theorem witness_ResultDependsOnlyOnTheSourceBytes :
    Memory.wf busySys.mem = true ∧ Memory.wf (busySys.mem ++ [(0x1003, 0x64)]) = true ∧
    busySys.mem ≠ busySys.mem ++ [(0x1003, 0x64)] ∧
    bytesAt (busySys.mem ++ [(0x1003, 0x64)]) busySys.src busySys.len = bytesAt busySys.mem busySys.src busySys.len ∧
    Memory.wf [(0x1001, 7)] = true ∧ bytesAt [(0x1001, 7)] busySys.src busySys.len ≠ bytesAt busySys.mem busySys.src busySys.len ∧
    ¬ ((∃ c, Instr.final 0 = .update c) ∨ Instr.final 0 = .hash) := by
  refine ⟨by decide, by decide, by decide, by decide, by decide, by decide, by simp⟩

/-- Two states that differ in a free slot, in a stale byte and in the counter of free values. -/
theorem witness_UnspecifiedFieldsAreUnobservable :
    State.SameToHost (sys [slot .accumulating 2 16, Slot.reset] 0 0 0)
      { sys [{ slot .accumulating 2 16 with buf := storeBuf 0 [0x61, 0x62] (Vector.replicate 64 9) }, unspecifiedSlot 4] 0 0 0
        with freeCount := 5 } := by
  refine ⟨rfl, rfl, rfl, rfl, .cons ⟨rfl, fun _ => rfl, fun _ => rfl, fun _ => rfl, fun _ => rfl, fun _ => by decide⟩
    (.cons ⟨rfl, ?_, ?_, ?_, ?_, ?_⟩ .nil), rfl, rfl, rfl, rfl⟩ <;> (intro h; cases h)

theorem witness_EveryStepKeepsTheInvariant :
    (withOp busySys (cmdWrite busySys.cfg 0x00000003)).Inv ∧
    ∃ t, step (withOp busySys (cmdWrite busySys.cfg 0x00000003)) = .next t ∧ (codeField t.status == 0) = true := by
  refine ⟨⟨by decide, by decide, by decide, ?_, by decide, by decide, ?_, ?_⟩, ?_⟩
  · constructor <;> decide
  · decide
  · intro sl hsl
    have h : sl = slot .accumulating 3 24 ∨ sl = Slot.reset := by simpa [withOp, busySys, sys] using hsl
    rcases h with rfl | rfl <;> constructor <;> decide
  · exact exists_next (p := fun t => codeField t.status == 0) (by decide +kernel)

/-- The slot of the witnesses stands for "abc". -/
theorem abc_holds : (slot .accumulating 3 24).Holds abc := by
  constructor <;> decide

theorem witness_EveryStepKeepsTheMessages :
    (withOp busySys (cmdWrite busySys.cfg 0x00000002)).TracksMessages ∧
    ∃ t, step (withOp busySys (cmdWrite busySys.cfg 0x00000002)) = .next t ∧ (codeField t.status == 0) = true := by
  refine ⟨fun sl hsl => ?_, exists_next (p := fun t => codeField t.status == 0) (by decide +kernel)⟩
  have h : sl = slot .accumulating 3 24 ∨ sl = Slot.reset := by simpa [withOp, busySys, sys] using hsl
  rcases h with rfl | rfl
  · exact fun _ _ => ⟨abc, abc_holds⟩
  · intro h; cases h

/-- A step that appends to a Context's bytes, and one that creates a Context beside it. -/
theorem witness_EveryStepKeepsTheAbsorbedBytes :
    (∀ op, (withOp busySys op).HoldsMessages fun _ => abc) ∧
    (∃ t, step (withOp busySys (.regWrite 0 32 2)) = .next t ∧
      (absorbedAfter (withOp busySys (.regWrite 0 32 2)) t (fun _ => abc) 0 == abc ++ abc) = true) ∧
    ∃ t, step (withOp busySys (.regWrite 0 32 1)) = .next t ∧
      (liveState t 1 == some .fresh && absorbedAfter (withOp busySys (.regWrite 0 32 1)) t (fun _ => abc) 1 == []) = true := by
  refine ⟨fun op c sl hs => ?_,
    exists_next (p := fun t => absorbedAfter (withOp busySys (.regWrite 0 32 2)) t (fun _ => abc) 0 == abc ++ abc) (by decide +kernel),
    exists_next (p := fun t => liveState t 1 == some .fresh &&
      absorbedAfter (withOp busySys (.regWrite 0 32 1)) t (fun _ => abc) 1 == []) (by decide +kernel)⟩
  have h : sl = slot .accumulating 3 24 ∨ sl = Slot.reset := by
    simpa [withOp, busySys, sys] using List.mem_of_getElem? hs
  rcases h with rfl | rfl
  · exact fun _ _ => abc_holds
  · intro h; cases h

/-- A platform whose window has addresses below it. -/
theorem witness_AccessBelowTheWindowHasNoStep :
    0x7FFF < ({ State.reset with cfg := { smallMemory with mmioBase := 0x8000 } } : State).cfg.mmioBase ∧
    ∀ op ∈ [HostOp.regWrite 0x7FFF 32 1, .regRead 0x7FFF 32],
      (withOp { State.reset with cfg := { smallMemory with mmioBase := 0x8000 } } op).hostOps = op :: [] := by decide

theorem witness_UpdateExtendsTheMessage :
    busySys.slots[0]? = some (slot .accumulating 3 24) ∧ (slot .accumulating 3 24).alloc = true ∧
    (slot .accumulating 3 24).Holds abc ∧
    ∃ t, exec (.update 0) busySys = .next t ∧ (codeField t.status == 0) = true :=
  ⟨by decide, by decide, abc_holds, exists_next (p := fun t => codeField t.status == 0) (by decide +kernel)⟩

theorem witness_FinalWritesSha256OfTheMessage :
    faultedField busySys.status = 0 ∧ busySys.slots[0]? = some (slot .accumulating 3 24) ∧
    (slot .accumulating 3 24).alloc = true ∧ (slot .accumulating 3 24).st ≠ .finalized ∧
    (slot .accumulating 3 24).Holds abc ∧ Memory.wf busySys.mem = true ∧ ¬ DestinationRejected busySys ∧
    allAdmitted busySys.cfg busySys.dst 32 := by
  refine ⟨by decide, by decide, by decide, by decide, abc_holds, by decide, ?_⟩
  unfold DestinationRejected allAdmitted; decide

/-- What a command leaves, where it completes. -/
def after (i : Instr) (s : State) : State :=
  match exec i s with
  | .next t => t
  | .fault _ => s
  | .refused _ => s

theorem exec_after {i : Instr} {s : State} (h : nextWith (exec i s) (fun _ => true) = true) : exec i s = .next (after i s) := by
  unfold after
  cases hs : exec i s with
  | next t => rfl
  | fault f => rw [hs] at h; cases h
  | refused r => rw [hs] at h; cases h

/-- "abc" fed as its first byte, no byte, and its last two. -/
def abcChunks : List (DWord × DWord) := [(0x1000, 1), (0, 0), (0x1001, 2)]

theorem witness_EveryChunkingGivesTheSameDigest :
    Memory.wf busySys.mem = true ∧ IsLeastFree busySys 1 ∧ exec .init busySys = .next (after .init busySys) ∧
    (after .init busySys).reportsOk = true ∧
    (∃ s₂, feed 1 abcChunks (after .init busySys) = some s₂ ∧
      ∃ s₃, exec (.final 1) { s₂ with dstAddr := 0x2000 } = .next s₃ ∧ s₃.reportsOk = true) ∧
    ∃ t, exec .hash busySys = .next t ∧ t.reportsOk = true := by
  refine ⟨by decide, isLeastFree_of (by decide), exec_after (by decide +kernel), by decide +kernel, ?_,
    exists_next (p := State.reportsOk) (by decide +kernel)⟩
  have h : (feed 1 abcChunks (after .init busySys)).any (fun s₂ =>
      nextWith (exec (.final 1) { s₂ with dstAddr := 0x2000 }) State.reportsOk) = true := by decide +kernel
  cases hf : feed 1 abcChunks (after .init busySys) with
  | none => rw [hf] at h; cases h
  | some s₂ => rw [hf] at h; exact ⟨s₂, rfl, exists_next h⟩

/-- The sequence of R77, failing at its first, its second and its third command, and succeeding. -/
theorem witness_HashIsInitUpdateFinalFree :
    (exec .init fullSys = .next (after .init fullSys) ∧ codeField (after .init fullSys).status ≠ 0) ∧
    (let s : State := { busySys with srcAddr := 0 }
     let s₁ := after .init s
     exec .init s = .next s₁ ∧ codeField s₁.status = 0 ∧ IsLeastFree s 1 ∧
     exec (.update 1) s₁ = .next (after (.update 1) s₁) ∧ codeField (after (.update 1) s₁).status ≠ 0) ∧
    (let s : State := { busySys with dstAddr := 0 }
     let s₁ := after .init s
     let s₂ := after (.update 1) s₁
     exec .init s = .next s₁ ∧ codeField s₁.status = 0 ∧ IsLeastFree s 1 ∧ exec (.update 1) s₁ = .next s₂ ∧
     codeField s₂.status = 0 ∧ exec (.final 1) s₂ = .next (after (.final 1) s₂) ∧
     codeField (after (.final 1) s₂).status ≠ 0) ∧
    (let s₁ := after .init busySys
     let s₂ := after (.update 1) s₁
     let s₃ := after (.final 1) s₂
     exec .init busySys = .next s₁ ∧ codeField s₁.status = 0 ∧ IsLeastFree busySys 1 ∧ exec (.update 1) s₁ = .next s₂ ∧
     codeField s₂.status = 0 ∧ exec (.final 1) s₂ = .next s₃ ∧ codeField s₃.status = 0 ∧
     exec (.free 1) s₃ = .next (after (.free 1) s₃) ∧ codeField (after (.free 1) s₃).status = 0) := by
  refine ⟨⟨exec_after (by decide +kernel), by decide +kernel⟩, ?_, ?_, ?_⟩
  · exact ⟨exec_after (by decide +kernel), by decide +kernel, isLeastFree_of (by decide), exec_after (by decide +kernel),
      by decide +kernel⟩
  · exact ⟨exec_after (by decide +kernel), by decide +kernel, isLeastFree_of (by decide), exec_after (by decide +kernel),
      by decide +kernel, exec_after (by decide +kernel), by decide +kernel⟩
  · exact ⟨exec_after (by decide +kernel), by decide +kernel, isLeastFree_of (by decide), exec_after (by decide +kernel),
      by decide +kernel, exec_after (by decide +kernel), by decide +kernel, exec_after (by decide +kernel), by decide +kernel⟩

theorem witness_MixingFunctionsBitByBit : (31 : Nat) < 32 := by decide

theorem witness_PaddingFillsTheClosingBlocks : 55 < 64 ∧ 55 ≤ 55 ∧ 56 < 64 ∧ 56 ≤ 56 ∧ 63 < 64 := by decide

/-- A second buffer that agrees in the three buffered bytes only. -/
theorem witness_FinalizeCompressesThePaddedBytes :
    (storeBuf 0 abc (Vector.replicate 64 9)).toList.take (slot .accumulating 3 24).bcnt.toNat =
      (slot .accumulating 3 24).buf.toList.take (slot .accumulating 3 24).bcnt.toNat ∧
    storeBuf 0 abc (Vector.replicate 64 9) ≠ (slot .accumulating 3 24).buf := by decide

/-- Byte 63 and byte 62. -/
theorem witness_AbsorbCompressesAtTheSixtyFourthByte :
    (slot .accumulating 63 504).bcnt.toNat = 63 ∧ (slot .accumulating 62 496).bcnt.toNat ≠ 63 ∧
    (blockOf ((slot .accumulating 63 504).buf.toList.take 63 ++ [7])).toList =
      (slot .accumulating 63 504).buf.toList.take 63 ++ [7] := by decide +kernel

theorem witness_DigestIsTheBigEndianHashState : (7 : Nat) < 8 ∧ (3 : Nat) < 4 := by decide

/-- Every condition of R208 is the first that applies to some command, where another condition later in the order applies too
whenever one can; and none applies to a plain UPDATE. -/
theorem witness_FirstConditionInOrderIsReported :
    (Condition.Applies faultedSys 0x00000000 .faulted ∧ Condition.Applies faultedSys 0x00000000 .illegalWord) ∧
    (¬ Condition.Applies busySys 0x00000006 .faulted ∧ Condition.Applies busySys 0x00000006 .illegalWord) ∧
    (¬ Condition.Applies busySys 0x00000102 .illegalWord ∧ Condition.Applies busySys 0x00000102 .badHandle) ∧
    (¬ Condition.Applies fullSys 0x00000005 .badHandle ∧ Condition.Applies fullSys 0x00000005 .noFreeSlot) ∧
    (¬ Condition.Applies finalizedSys 0x00000002 .badHandle ∧ ¬ Condition.Applies finalizedSys 0x00000002 .noFreeSlot ∧
      Condition.Applies finalizedSys 0x00000002 .finalizedContext) ∧
    (¬ Condition.Applies { busySys with srcAddr := 0 } 0x00000002 .finalizedContext ∧
      Condition.Applies { busySys with srcAddr := 0 } 0x00000002 .badSource) ∧
    (¬ Condition.Applies { busySys with srcAddr := 1, srcLen := 0x2000000000000000 } 0x00000005 .badSource ∧
      Condition.Applies { busySys with srcAddr := 1, srcLen := 0x2000000000000000 } 0x00000005 .lengthOverflow) ∧
    (¬ Condition.Applies { busySys with dstAddr := 0 } 0x00000005 .badHandle ∧
      ¬ Condition.Applies { busySys with dstAddr := 0 } 0x00000005 .noFreeSlot ∧
      ¬ Condition.Applies { busySys with dstAddr := 0 } 0x00000005 .finalizedContext ∧
      ¬ Condition.Applies { busySys with dstAddr := 0 } 0x00000005 .badSource ∧
      ¬ Condition.Applies { busySys with dstAddr := 0 } 0x00000005 .lengthOverflow ∧
      Condition.Applies { busySys with dstAddr := 0 } 0x00000005 .badDestination) ∧
    (∀ k ∈ Condition.order, ¬ Condition.Applies busySys 0x00000002 k) := by
  have d102 : decode 258#32 = .ok (.update 1) := by decide
  have d2 : decode 2#32 = .ok (.update 0) := by decide
  have d5 : decode 5#32 = .ok .hash := by decide
  have f1 : faultedField faultedSys.status = 1 := by decide
  have f0 : faultedField busySys.status = 0 := by decide
  have i0 : IllegalWord 0x00000000 := by unfold IllegalWord; decide
  have i6 : IllegalWord 0x00000006 := by unfold IllegalWord; decide
  have i102 : ¬ IllegalWord 0x00000102 := by unfold IllegalWord; decide
  have i2 : ¬ IllegalWord 0x00000002 := by unfold IllegalWord; decide
  have l0 : liveState busySys 0 = some .accumulating := by decide
  have l1 : liveState busySys 1 = none := by decide
  have m0 : liveState finalizedSys 0 = some .finalized := by decide
  have s0 : busySys.slots[0]? = some (slot .accumulating 3 24) := by decide
  refine ⟨⟨f1, i0⟩, ⟨by simp [Condition.Applies, f0], i6⟩, ⟨i102, 1, .inl d102, l1⟩,
    ⟨by simp [Condition.Applies, d5], .inr d5, by decide⟩,
    ⟨by simp [Condition.Applies, d2, m0], by simp [Condition.Applies, d2], 0, .inl d2, m0⟩, ⟨?_, .inl ⟨0, d2⟩, ?_⟩, ⟨?_, ?_⟩, ?_, ?_⟩
  · rintro ⟨c, h, hl⟩
    have e : 0 = c := by simpa [d2] using h.symm
    subst e
    exact absurd hl (by decide)
  · unfold SourceRejected; decide
  · exact fun h => absurd h.2 (by unfold SourceRejected; decide)
  · exact .inr ⟨d5, by unfold TotalOverflows; decide⟩
  · refine ⟨by simp [Condition.Applies, d5], fun h => absurd h.2 (by decide), by simp [Condition.Applies, d5],
      fun h => absurd h.2 (by unfold SourceRejected; decide), ?_, .inr d5, by unfold DestinationRejected; decide⟩
    rintro (⟨c, sl, h, -⟩ | ⟨-, h⟩)
    · cases d5.symm.trans h
    · exact absurd h (by unfold TotalOverflows; decide)
  · intro k hk
    cases k with
    | faulted => simp [Condition.Applies, f0]
    | illegalWord => exact i2
    | badHandle => simp [Condition.Applies, d2, l0]
    | noFreeSlot => simp [Condition.Applies, d2]
    | finalizedContext => simp [Condition.Applies, d2, l0]
    | badSource => exact fun h => absurd h.2 (by unfold SourceRejected; decide)
    | lengthOverflow =>
      rintro (⟨c, sl, h, hs, ht⟩ | ⟨h, -⟩)
      · have e : c = 0 := by simpa [d2] using h.symm
        subst e
        rw [s0] at hs
        cases hs
        exact absurd ht (by unfold TotalOverflows; decide)
      · cases d2.symm.trans h
    | badDestination => simp [Condition.Applies, d2]

end Sys2Proof.Tests
end

section
/-! PROOF. The register window of 20_memory.md R59: where each register is reached, what a step of each access is, and that an
operand register is changed by its own write and by reset alone. -/

namespace Sys2Proof.Machine

/-! ### Where the registers stand -/

theorem windowReg_status (cfg : Config) : windowReg cfg (cfg.mmioBase + 0x04) 32 = some .status := by simp [windowReg]
theorem windowReg_srcAddr (cfg : Config) : windowReg cfg (cfg.mmioBase + 0x08) 64 = some .srcAddr := by simp [windowReg]
theorem windowReg_srcLen (cfg : Config) : windowReg cfg (cfg.mmioBase + 0x10) 64 = some .srcLen := by simp [windowReg]
theorem windowReg_dstAddr (cfg : Config) : windowReg cfg (cfg.mmioBase + 0x18) 64 = some .dstAddr := by simp [windowReg]

/-- An offset and width of none of the five registers reaches no register. -/
theorem windowReg_eq_none {cfg : Config} {a w : Nat}
    (h : (a, w) ∉ [(cfg.mmioBase, 32), (cfg.mmioBase + 0x04, 32), (cfg.mmioBase + 0x08, 64),
      (cfg.mmioBase + 0x10, 64), (cfg.mmioBase + 0x18, 64)]) : windowReg cfg a w = none := by
  rcases windowReg_cases cfg a w with ⟨_, rfl, rfl⟩ | ⟨_, rfl, rfl⟩ | ⟨_, rfl, rfl⟩ | ⟨_, rfl, rfl⟩ | ⟨_, rfl, rfl⟩ | ⟨hn, _⟩
  on_goal 6 => exact hn
  all_goals exact absurd h (by simp)

/-! ### The step of each access -/

/-- The state once a value is stored in a register: CMD holds no state and STATUS ignores a write (R24, R25, R59). It is what
`windowValue` is for a read; `step_regWrite` ties it to the step. -/
def State.storeWindowReg (s : State) (r : WindowReg) (v : DWord) : State :=
  match r with
  | .cmd | .status => s
  | .srcAddr => { s with srcAddr := v }
  | .srcLen => { s with srcLen := v }
  | .dstAddr => { s with dstAddr := v }

section
variable {s : State} {rest : List HostOp} {a w : Nat} {v : DWord}

/-- A write to a register other than CMD stores the value where the register holds one (R59). -/
theorem step_regWrite {r : WindowReg} (hs : s.hostOps = .regWrite a w v :: rest) (hr : windowReg s.cfg a w = some r)
    (hcmd : r ≠ .cmd) : step s = .next ({ s with hostOps := rest }.storeWindowReg r v) := by
  cases r with
  | cmd => exact absurd rfl hcmd
  | status | srcAddr | srcLen | dstAddr => simp [step_cons hs, hostStep, hostRegWrite, hr, State.storeWindowReg]

/-- A read returns the register's value and does nothing else, whichever register it is. -/
theorem step_regRead {r : WindowReg} (hs : s.hostOps = .regRead a w :: rest) (hr : windowReg s.cfg a w = some r) :
    step s = .next { s with hostOps := rest, readData := some (windowValue s r) } := by
  cases r <;> simp [step_cons hs, hostStep, hostRegRead, hr, windowValue]

/-- An access that reaches no register has no step. -/
theorem step_access_of_windowReg_none (hs : s.hostOps = .regWrite a w v :: rest ∨ s.hostOps = .regRead a w :: rest)
    (hr : windowReg s.cfg a w = none) : step s = .fault (.windowAccessNotAdmitted a w) := by
  rcases hs with hs | hs
  · simp [step_cons hs, hostStep, hostRegWrite, hr]
  · simp [step_cons hs, hostStep, hostRegRead, hr]

theorem step_reset (hs : s.hostOps = .reset :: rest) : step s = .next (resetBlock { s with hostOps := rest }) := by
  rw [step_cons hs]; rfl

end

/-! ### What changes an operand register -/

/-- Running a command word, a legal or an illegal one, leaves the operand registers. -/
theorem execute_keeps_operands {w : Word} {s t : State} (h : execute w s = .next t) :
    t.srcAddr = s.srcAddr ∧ t.srcLen = s.srcLen ∧ t.dstAddr = s.dstAddr := by
  cases hd : decode w with
  | ok i =>
    rw [execute_of_ok hd] at h
    obtain ⟨hsrc, hlen, hdst, _⟩ := exec_keeps h
    exact ⟨hsrc, hlen, hdst⟩
  | error e =>
    rw [execute_of_error hd] at h
    rcases execIllegal_cases s with ⟨_, he⟩ | ⟨_, he⟩ <;> (rw [he] at h; cases h; simp)

/-- Short of reset, an operand register keeps its value over a step that is not a write to it. -/
theorem step_keeps_operands {s t : State} (h : step s = .next t) (hreset : s.hostOps.head? ≠ some .reset) :
    ((∀ x, s.hostOps.head? ≠ some (.regWrite (s.cfg.mmioBase + 0x08) 64 x)) → t.srcAddr = s.srcAddr) ∧
    ((∀ x, s.hostOps.head? ≠ some (.regWrite (s.cfg.mmioBase + 0x10) 64 x)) → t.srcLen = s.srcLen) ∧
    ((∀ x, s.hostOps.head? ≠ some (.regWrite (s.cfg.mmioBase + 0x18) 64 x)) → t.dstAddr = s.dstAddr) := by
  rcases step_cases h with ⟨_, rfl⟩ | ⟨op, rest, hs, hop⟩
  · simp
  · have hhead : s.hostOps.head? = some op := by rw [hs]; rfl
    rcases hop with ⟨v, rfl, he⟩ | ⟨v, rfl, rfl⟩ | ⟨v, rfl, rfl⟩ | ⟨v, rfl, rfl⟩ | ⟨v, rfl, rfl⟩ | ⟨a, w, v, rfl, rfl⟩ |
      ⟨a, v, rfl, _, rfl⟩ | ⟨rfl, _⟩
    · obtain ⟨hsrc, hlen, hdst⟩ := execute_keeps_operands he
      exact ⟨fun _ => hsrc, fun _ => hlen, fun _ => hdst⟩
    · simp
    · exact ⟨fun hno => absurd hhead (hno v), fun _ => rfl, fun _ => rfl⟩
    · exact ⟨fun _ => rfl, fun hno => absurd hhead (hno v), fun _ => rfl⟩
    · exact ⟨fun _ => rfl, fun _ => rfl, fun hno => absurd hhead (hno v)⟩
    · simp
    · simp
    · exact absurd hhead hreset

/-- Settles O8: each admitted access is the step of the register it reaches, any other reaches none, and the cases of a step
that change an operand register are its own write and reset. -/
theorem registerWindowAccesses : Obligations.RegisterWindowAccesses := by
  unfold Obligations.RegisterWindowAccesses
  intro s rest v
  refine ⟨fun hs => step_regWrite hs (windowReg_status _) nofun, fun hs => step_regWrite hs (windowReg_srcAddr _) nofun,
    fun hs => step_regWrite hs (windowReg_srcLen _) nofun, fun hs => step_regWrite hs (windowReg_dstAddr _) nofun,
    fun hs => step_regRead hs (windowReg_cmd _), fun hs => step_regRead hs (windowReg_status _),
    fun hs => step_regRead hs (windowReg_srcAddr _), fun hs => step_regRead hs (windowReg_srcLen _),
    fun hs => step_regRead hs (windowReg_dstAddr _), ?_, fun _ h hreset => step_keeps_operands h hreset, ?_⟩
  · intro addr width _ hother hs
    exact step_access_of_windowReg_none hs (windowReg_eq_none hother)
  · intro hs
    exact ⟨_, step_reset hs, by simp⟩

end Sys2Proof.Machine
end

section
/-! PROOF. The opcode map of 30_encoding.md R73 and R74: which row a word selects, that it selects at most one, and so which words
decode to each command and which decode to none; and what the host's write of an illegal word does (R207). -/

namespace Sys2Proof.Machine

/-! ### A word and its fields -/

/-- A word is its four fields (R71). -/
theorem word_eq_of_fields {v w : Word} (hopc : opcField v = opcField w) (hrsv0 : rsv0Field v = rsv0Field w)
    (hctx : ctxField v = ctxField w) (hrsv1 : rsv1Field v = rsv1Field w) : v = w := by
  apply BitVec.eq_of_getLsbD_eq
  intro i hi
  by_cases h4 : i < 4
  · simpa [opcField, h4] using congrArg (BitVec.getLsbD · i) hopc
  by_cases h8 : i < 8
  · simpa [rsv0Field, show i - 4 < 4 by omega, show 4 + (i - 4) = i by omega] using congrArg (BitVec.getLsbD · (i - 4)) hrsv0
  by_cases h16 : i < 16
  · simpa [ctxField, show i - 8 < 8 by omega, show 8 + (i - 8) = i by omega] using congrArg (BitVec.getLsbD · (i - 8)) hctx
  · simpa [rsv1Field, show i - 16 < 16 by omega, show 16 + (i - 16) = i by omega] using congrArg (BitVec.getLsbD · (i - 16)) hrsv1

/-- CTX is CMD[15:8] as an integer (R72). -/
theorem toNat_ctxField (w : Word) : (ctxField w).toNat = w.toNat / 2 ^ 8 % 2 ^ 8 := by
  simp [ctxField, BitVec.extractLsb'_toNat, Nat.shiftRight_eq_div_pow]

/-- The fields of a word under the mask that leaves CTX out. -/
theorem fields_and_maskWithoutCtx (w : Word) :
    opcField (w &&& 0xFFFF00FF) = opcField w ∧ rsv0Field (w &&& 0xFFFF00FF) = rsv0Field w ∧
    ctxField (w &&& 0xFFFF00FF) = 0 ∧ rsv1Field (w &&& 0xFFFF00FF) = rsv1Field w := by
  refine ⟨?_, ?_, ?_, ?_⟩
  · rw [opcField, BitVec.extractLsb'_and]; exact BitVec.and_allOnes
  · rw [rsv0Field, BitVec.extractLsb'_and]; exact BitVec.and_allOnes
  · rw [ctxField, BitVec.extractLsb'_and]; exact BitVec.and_zero
  · rw [rsv1Field, BitVec.extractLsb'_and]; exact BitVec.and_allOnes

/-- The rows with CTX free fix OPC and the reserved fields. -/
theorem and_maskWithoutCtx_eq_iff (w : Word) (opc : BitVec 4) :
    w &&& 0xFFFF00FF = commandWord opc 0 ↔ opcField w = opc ∧ rsv0Field w = 0 ∧ rsv1Field w = 0 := by
  obtain ⟨mopc, mrsv0, mctx, mrsv1⟩ := fields_and_maskWithoutCtx w
  obtain ⟨copc, cctx, crsv0, crsv1⟩ := Laws.EncodedFields.fields_commandWord opc 0
  constructor
  · intro h
    rw [h] at mopc mrsv0 mrsv1
    exact ⟨by rw [← mopc, copc], by rw [← mrsv0, crsv0], by rw [← mrsv1, crsv1]⟩
  · rintro ⟨hopc, hrsv0, hrsv1⟩
    exact word_eq_of_fields (by rw [mopc, copc, hopc]) (by rw [mrsv0, crsv0, hrsv0]) (by rw [mctx, cctx])
      (by rw [mrsv1, crsv1, hrsv1])

/-- The rows whose mask is full fix CTX too. -/
theorem and_fullMask_eq_iff (w : Word) (opc : BitVec 4) :
    w &&& 0xFFFFFFFF = commandWord opc 0 ↔
      opcField w = opc ∧ rsv0Field w = 0 ∧ rsv1Field w = 0 ∧ ctxField w = 0 := by
  obtain ⟨copc, cctx, crsv0, crsv1⟩ := Laws.EncodedFields.fields_commandWord opc 0
  rw [show w &&& 0xFFFFFFFF = w from BitVec.and_allOnes]
  constructor
  · rintro rfl
    exact ⟨copc, crsv0, crsv1, cctx⟩
  · rintro ⟨hopc, hrsv0, hrsv1, hctx⟩
    exact word_eq_of_fields (by rw [copc, hopc]) (by rw [crsv0, hrsv0]) (by rw [cctx, hctx]) (by rw [crsv1, hrsv1])

/-! ### The row a word selects -/

/-- Every mask keeps the whole of OPC, so a word has the opcode of the row it selects. -/
theorem opcField_of_selects {r : OpcodeRow} {w : Word} (hr : r ∈ opcodeMap) (h : r.selects w = true) :
    opcField w = opcField r.pattern := by
  have hmask : ∀ r ∈ opcodeMap, opcField r.mask = BitVec.allOnes 4 := by decide
  have hpat : w &&& r.mask = r.pattern := by simpa [OpcodeRow.selects] using h
  have hand : opcField (w &&& r.mask) = opcField w &&& opcField r.mask := BitVec.extractLsb'_and
  rw [← hpat, hand, hmask r hr, BitVec.and_allOnes]

/-- No word selects two rows: their opcodes differ. -/
theorem row_eq_of_selects {r r' : OpcodeRow} {w : Word} (hr : r ∈ opcodeMap) (hr' : r' ∈ opcodeMap)
    (h : r.selects w = true) (h' : r'.selects w = true) : r = r' := by
  have hdistinct : (opcodeMap.map fun r => opcField r.pattern).Nodup := by decide
  refine List.inj_on_of_nodup_map hdistinct hr hr' ?_
  rw [← opcField_of_selects hr h, ← opcField_of_selects hr' h']

/-- A word decodes to a command exactly when it selects that command's row (R73). -/
theorem decode_eq_ok_iff {w : Word} {i : Instr} :
    decode w = .ok i ↔ ∃ r ∈ opcodeMap, r.selects w = true ∧ r.command (ctxField w).toNat = i := by
  unfold decode
  cases hfind : opcodeMap.find? (fun r => r.selects w) with
  | none =>
    rw [List.find?_eq_none] at hfind
    simp only [reduceCtorEq, false_iff]
    rintro ⟨r, hr, hsel, -⟩
    exact hfind r hr hsel
  | some r =>
    have hr := List.mem_of_find?_eq_some hfind
    have hsel := List.find?_some hfind
    constructor
    · intro h
      cases h
      exact ⟨r, hr, hsel, rfl⟩
    · rintro ⟨r', hr', hsel', rfl⟩
      rw [row_eq_of_selects hr hr' hsel hsel']

/-- A word is refused exactly when it decodes to no command (R73). -/
theorem exists_decode_error_iff {w : Word} : (∃ e, decode w = .error e) ↔ ∀ i, decode w ≠ .ok i := by
  cases decode w with
  | ok i => simp
  | error e => simp

/-! ### The rows one by one -/

theorem decode_eq_init_iff {w : Word} : decode w = .ok .init ↔ w &&& 0xFFFFFFFF = 0x00000001 := by
  simp [decode_eq_ok_iff, opcodeMap, OpcodeRow.selects]

theorem decode_eq_update_iff {w : Word} {c : Nat} :
    decode w = .ok (.update c) ↔ w &&& 0xFFFF00FF = 0x00000002 ∧ (ctxField w).toNat = c := by
  simp [decode_eq_ok_iff, opcodeMap, OpcodeRow.selects]

theorem decode_eq_final_iff {w : Word} {c : Nat} :
    decode w = .ok (.final c) ↔ w &&& 0xFFFF00FF = 0x00000003 ∧ (ctxField w).toNat = c := by
  simp [decode_eq_ok_iff, opcodeMap, OpcodeRow.selects]

theorem decode_eq_free_iff {w : Word} {c : Nat} :
    decode w = .ok (.free c) ↔ w &&& 0xFFFF00FF = 0x00000004 ∧ (ctxField w).toNat = c := by
  simp [decode_eq_ok_iff, opcodeMap, OpcodeRow.selects]

theorem decode_eq_hash_iff {w : Word} : decode w = .ok .hash ↔ w &&& 0xFFFFFFFF = 0x00000005 := by
  simp [decode_eq_ok_iff, opcodeMap, OpcodeRow.selects]

/-- Settles O3: a word decodes to the command of the one row it selects. -/
theorem wordDecodesByMatchAndMask : Obligations.WordDecodesByMatchAndMask := by
  unfold Obligations.WordDecodesByMatchAndMask
  intro w
  rw [← toNat_ctxField]
  exact ⟨decode_eq_init_iff, fun c => by rw [decode_eq_update_iff, eq_comm (a := c)],
    fun c => by rw [decode_eq_final_iff, eq_comm (a := c)], fun c => by rw [decode_eq_free_iff, eq_comm (a := c)],
    decode_eq_hash_iff⟩

/-! ### The illegal words -/

/-- The legal words by their fields: OPC 1 to 5, the reserved fields 0, and CTX 0 for INIT and HASH (R73, R74). -/
theorem exists_decode_ok_iff {w : Word} : (∃ i, decode w = .ok i) ↔
    rsv0Field w = 0 ∧ rsv1Field w = 0 ∧ ((opcField w = 2 ∨ opcField w = 3 ∨ opcField w = 4) ∨
      (opcField w = 1 ∨ opcField w = 5) ∧ ctxField w = 0) := by
  have hinit : decode w = .ok .init ↔ _ := decode_eq_init_iff.trans (and_fullMask_eq_iff w 1)
  have hhash : decode w = .ok .hash ↔ _ := decode_eq_hash_iff.trans (and_fullMask_eq_iff w 5)
  have hupdate := and_maskWithoutCtx_eq_iff w 2
  have hfinal := and_maskWithoutCtx_eq_iff w 3
  have hfree := and_maskWithoutCtx_eq_iff w 4
  constructor
  · rintro ⟨i, hi⟩
    cases i with
    | init => obtain ⟨hopc, hrsv0, hrsv1, hctx⟩ := hinit.1 hi; exact ⟨hrsv0, hrsv1, .inr ⟨.inl hopc, hctx⟩⟩
    | update c =>
      obtain ⟨hopc, hrsv0, hrsv1⟩ := hupdate.1 (decode_eq_update_iff.1 hi).1; exact ⟨hrsv0, hrsv1, .inl (.inl hopc)⟩
    | final c =>
      obtain ⟨hopc, hrsv0, hrsv1⟩ := hfinal.1 (decode_eq_final_iff.1 hi).1
      exact ⟨hrsv0, hrsv1, .inl (.inr (.inl hopc))⟩
    | free c =>
      obtain ⟨hopc, hrsv0, hrsv1⟩ := hfree.1 (decode_eq_free_iff.1 hi).1
      exact ⟨hrsv0, hrsv1, .inl (.inr (.inr hopc))⟩
    | hash => obtain ⟨hopc, hrsv0, hrsv1, hctx⟩ := hhash.1 hi; exact ⟨hrsv0, hrsv1, .inr ⟨.inr hopc, hctx⟩⟩
  · rintro ⟨hrsv0, hrsv1, (hopc | hopc | hopc) | ⟨hopc | hopc, hctx⟩⟩
    · exact ⟨_, decode_eq_update_iff.2 ⟨hupdate.2 ⟨hopc, hrsv0, hrsv1⟩, rfl⟩⟩
    · exact ⟨_, decode_eq_final_iff.2 ⟨hfinal.2 ⟨hopc, hrsv0, hrsv1⟩, rfl⟩⟩
    · exact ⟨_, decode_eq_free_iff.2 ⟨hfree.2 ⟨hopc, hrsv0, hrsv1⟩, rfl⟩⟩
    · exact ⟨_, hinit.2 ⟨hopc, hrsv0, hrsv1, hctx⟩⟩
    · exact ⟨_, hhash.2 ⟨hopc, hrsv0, hrsv1, hctx⟩⟩

/-- R74's list is the complement of the legal words. -/
theorem illegalWord_iff_decode_error {w : Word} : IllegalWord w ↔ ∃ e, decode w = .error e := by
  have hreserved : ∀ opc : BitVec 4, (opc = 0 ∨ 6 ≤ opc.toNat) ↔
      ¬ ((opc = 2 ∨ opc = 3 ∨ opc = 4) ∨ (opc = 1 ∨ opc = 5)) := by decide
  have hdisjoint : ∀ opc : BitVec 4, (opc = 1 ∨ opc = 5) → ¬ (opc = 2 ∨ opc = 3 ∨ opc = 4) := by decide
  have hfixed := hdisjoint (opcField w)
  rw [exists_decode_error_iff, ← not_exists, exists_decode_ok_iff, IllegalWord, ← or_assoc, hreserved]
  tauto

/-! ### The write of an illegal word -/

/-- `finish` ends a command as R201 says, whatever else of the state the command has changed before. -/
theorem endedWith_finish {s t : State} (h : t.status = s.status) (code : StatusCode) (handle : BitVec 8) :
    EndedWith s (t.finish code handle) (codeBits code) handle := by
  constructor <;> simp [h]

/-- The step of an illegal word, outside the faulted condition (R207). -/
theorem step_illegalWord {s : State} {w : Word} {rest : List HostOp} (hw : IllegalWord w)
    (hf : faultedField s.status = 0) (hs : s.hostOps = cmdWrite s.cfg w :: rest) :
    step s = .next ({ s with hostOps := rest }.finish .illegalCommand) := by
  obtain ⟨e, he⟩ := illegalWord_iff_decode_error.1 hw
  rw [step_cmd hs, execute_of_error he]
  have hf' : State.faulted { s with hostOps := rest } = false := faulted_eq_false.2 hf
  rw [execIllegal, unlessFaulted_of_not hf', endWith]

/-- Settles O5: R74's list against the rows of the opcode map, and the one step of an illegal word. -/
theorem illegalWordReportsIllegalCommand : Obligations.IllegalWordReportsIllegalCommand := by
  unfold Obligations.IllegalWordReportsIllegalCommand
  refine ⟨fun w => illegalWord_iff_decode_error,
    fun s w rest hw hf hs => ⟨_, step_illegalWord hw hf hs, ?_, rfl⟩⟩
  exact endedWith_finish (s := s) (t := { s with hostOps := rest }) rfl .illegalCommand 0

end Sys2Proof.Machine
end

section
/-! PROOF. HASH against INIT; UPDATE h; FINAL h; FREE h (30_encoding.md R77). The state after each command of the listing is
written from the state before the first, so that its checks are HASH's own checks and its digest is HASH's digest. -/

namespace Sys2Proof.Machine

/-! ### What `finish` and a slot write leave to be read -/

@[simp] theorem finish_faulted (s : State) (code : StatusCode) (handle : BitVec 8) :
    (s.finish code handle).faulted = s.faulted := by simp [State.faulted]

@[simp] theorem finish_context (s : State) (code : StatusCode) (handle : BitVec 8) (c : Nat) :
    (s.finish code handle).context c = s.context c := rfl

/-- A live slot that is written is the Context of its handle. -/
theorem context_setSlot {s : State} {c : Nat} {sl : Slot} (hc : c < s.slots.length) (ha : sl.alloc = true) :
    (s.setSlot c sl).context c = some sl :=
  context_eq_some.2 ⟨by simp [hc], ha⟩

theorem leastFree_lt_length {s : State} {h : Nat} (hl : s.leastFree = some h) : h < s.slots.length := by
  obtain ⟨⟨sl, hsl, -⟩, -⟩ := leastFree_eq_some.1 hl
  exact (List.getElem?_eq_some_iff.1 hsl).1

/-! ### The listing's states -/

/-- The state once INIT has taken the slot `h` (R162). -/
def initState (h : Nat) (s : State) : State :=
  (s.setSlot h (freshContext true)).finish .ok (BitVec.ofNat 8 h)

/-- The slot `h` once INIT and UPDATE h have run from `s`. -/
def fedSlot (h : Nat) (s : State) : Slot := updatedSlot (initState h s) (freshContext true)

/-- The state once INIT and UPDATE h have run from `s`. -/
def fedState (h : Nat) (s : State) : State := ((initState h s).setSlot h (fedSlot h s)).finish .ok

@[simp] theorem initState_faulted (h : Nat) (s : State) : (initState h s).faulted = s.faulted := by
  rw [initState, finish_faulted]; rfl
@[simp] theorem fedState_faulted (h : Nat) (s : State) : (fedState h s).faulted = s.faulted := by
  rw [fedState, finish_faulted]; exact initState_faulted h s

/-- FCAUSE is kept up to UPDATE. -/
@[simp] theorem initState_fcause (h : Nat) (s : State) : fcauseField (initState h s).status = fcauseField s.status := by
  simp [initState]
@[simp] theorem fedState_fcause (h : Nat) (s : State) : fcauseField (fedState h s).status = fcauseField s.status := by
  simp [fedState]

/-! The operand checks of UPDATE and FINAL within the listing are those of HASH: nothing they read has changed. -/

theorem initState_badSource (h : Nat) (s : State) : (initState h s).badSource = s.badSource := rfl
theorem initState_lengthOverflows (h : Nat) (s : State) (bits : Nat) :
    (initState h s).lengthOverflows bits = s.lengthOverflows bits := rfl
theorem fedState_badDestination (h : Nat) (s : State) : (fedState h s).badDestination = s.badDestination := rfl

theorem initState_context {h : Nat} {s : State} (hl : s.leastFree = some h) :
    (initState h s).context h = some (freshContext true) :=
  context_setSlot (leastFree_lt_length hl) rfl

theorem fedState_context {h : Nat} {s : State} (hl : s.leastFree = some h) :
    (fedState h s).context h = some (fedSlot h s) := by
  rw [fedState, finish_context]
  exact context_setSlot (by simpa [initState] using leastFree_lt_length hl) (by simp [fedSlot])

/-- The digest FINAL writes is the one HASH writes: each is SHA256 of the source bytes. -/
theorem serialize_finalize_fedSlot {s : State} (ho : s.lengthOverflows 0 = false) (h : Nat) :
    serialize (finalize (fedSlot h s)).h = serialize (hashedContext (bytesAt s.mem s.src s.len)).h := by
  have hshort : 8 * (bytesAt s.mem s.src s.len).length < 2 ^ 64 := by
    have := (lengthOverflows_eq_false s 0).1 ho
    unfold TotalOverflows at this
    rw [length_bytesAt, State.len]
    omega
  have hholds : (fedSlot h s).Holds (bytesAt s.mem s.src s.len) := by
    have := absorbAll_holds (freshContext_holds true) (xs := bytesAt s.mem s.src s.len) hshort .accumulating
    rw [length_bytesAt] at this
    exact this
  rw [serialize_finalize hholds, serialize_hashedContext _ hshort]

/-! ### What each command of the listing ends with -/

section
variable {s s₁ s₂ t : State} {h c : Nat} {sl : Slot}

/-- The outcomes of UPDATE on a Context that is not Finalized. -/
theorem execUpdate_next_cases (hf : s.faulted = false) (hc : s.context c = some sl) (hst : sl.st ≠ .finalized)
    (he : exec (.update c) s = .next t) :
    (s.badSource = true ∧ t = s.finish .invalidArgument) ∨
    (s.badSource = false ∧ s.lengthOverflows sl.bitlen.toNat = true ∧ t = s.raiseFault .lengthOverflow) ∨
    (s.badSource = false ∧ s.lengthOverflows sl.bitlen.toNat = false ∧ allAdmitted s.cfg s.src s.len ∧
      t = (s.setSlot c (updatedSlot s sl)).finish .ok) := by
  rw [exec] at he
  rcases execUpdate_cases c s with ⟨hf', -⟩ | ⟨-, ⟨hc', -⟩ | ⟨sl', hc', hcases⟩⟩
  · simp [hf] at hf'
  · simp [hc] at hc'
  · obtain rfl : sl = sl' := by simpa [hc] using hc'
    rcases hcases with ⟨hst', -⟩ | ⟨-, hb, hu⟩ | ⟨-, hb, ho, hu⟩ | ⟨-, hb, ho, ⟨i, f, -, -, hu⟩ | ⟨ha, hu⟩⟩
    · exact absurd hst' hst
    · rw [hu] at he; cases he; exact .inl ⟨hb, rfl⟩
    · rw [hu] at he; cases he; exact .inr (.inl ⟨hb, ho, rfl⟩)
    · rw [hu] at he; cases he
    · rw [hu] at he; cases he; exact .inr (.inr ⟨hb, ho, ha, rfl⟩)

/-- The outcomes of FINAL on a Context that is not Finalized. -/
theorem execFinal_next_cases (hf : s.faulted = false) (hc : s.context c = some sl) (hst : sl.st ≠ .finalized)
    (he : exec (.final c) s = .next t) :
    (s.badDestination = true ∧ t = s.finish .invalidArgument) ∨
    (s.badDestination = false ∧ allAdmitted s.cfg s.dst 32 ∧ t = finalState c s sl) := by
  rw [exec] at he
  rcases execFinal_cases c s with ⟨hf', -⟩ | ⟨-, ⟨hc', -⟩ | ⟨sl', hc', hcases⟩⟩
  · simp [hf] at hf'
  · simp [hc] at hc'
  · obtain rfl : sl = sl' := by simpa [hc] using hc'
    rcases hcases with ⟨hst', -⟩ | ⟨-, hb, hu⟩ | ⟨-, hb, ⟨i, f, -, -, hu⟩ | ⟨ha, hu⟩⟩
    · exact absurd hst' hst
    · rw [hu] at he; cases he; exact .inl ⟨hb, rfl⟩
    · rw [hu] at he; cases he
    · rw [hu] at he; cases he; exact .inr ⟨hb, ha, rfl⟩

/-- FREE changes no host memory, whatever it reports (R165). -/
theorem execFree_mem (he : exec (.free c) s = .next t) : t.mem = s.mem := by
  rw [exec] at he
  rcases execFree_cases c s with ⟨-, hu⟩ | ⟨-, -, hu⟩ | ⟨-, sl, -, hu⟩ <;> (rw [hu] at he; cases he; simp)

/-- The outcomes of HASH that have a next state: a refusal by `finish`, the raised fault, or the digest written. -/
theorem execHash_next_cases (he : exec .hash s = .next t) :
    (∃ code, t = s.finish code) ∨ (∃ cause, t = s.raiseFault cause) ∨ ∃ h, s.leastFree = some h ∧ t = hashState h s := by
  rw [exec] at he
  rcases execHash_cases s with ⟨-, hu⟩ | ⟨-, ⟨-, hu⟩ | ⟨h, hl, ⟨-, hu⟩ | ⟨-, -, hu⟩ | ⟨-, -, -, hu⟩ |
    ⟨-, -, -, ⟨i, f, -, -, hu⟩ | ⟨-, ⟨i, f, -, -, hu⟩ | ⟨-, hu⟩⟩⟩⟩⟩ <;> rw [hu] at he <;> cases he
  · exact .inl ⟨_, rfl⟩
  · exact .inl ⟨_, rfl⟩
  · exact .inl ⟨_, rfl⟩
  · exact .inr (.inl ⟨_, rfl⟩)
  · exact .inl ⟨_, rfl⟩
  · exact .inr (.inr ⟨h, hl, rfl⟩)

/-! ### HASH at each of its checks (R166) -/

theorem execHash_badSource (hf : s.faulted = false) (hl : s.leastFree = some h) (hb : s.badSource = true) :
    exec .hash s = .next (s.finish .invalidArgument) := by
  simp [exec, execHash, unlessFaulted_of_not hf, hl, hb, endWith]

theorem execHash_lengthOverflow (hf : s.faulted = false) (hl : s.leastFree = some h) (hb : s.badSource = false)
    (ho : s.lengthOverflows 0 = true) : exec .hash s = .next (s.raiseFault .lengthOverflow) := by
  simp [exec, execHash, unlessFaulted_of_not hf, hl, hb, ho, endWithFault]

theorem execHash_badDestination (hf : s.faulted = false) (hl : s.leastFree = some h) (hb : s.badSource = false)
    (ho : s.lengthOverflows 0 = false) (hd : s.badDestination = true) :
    exec .hash s = .next (s.finish .invalidArgument) := by
  simp [exec, execHash, unlessFaulted_of_not hf, hl, hb, ho, hd, endWith]

/-! ### The listing, command by command -/

/-- HASH in `s` reports the code and the fault cause of the state `t` and writes no host memory: what R77 asks of it where the
listing's first failing command ends in `t`. -/
def HashFailsLike (s t : State) : Prop :=
  ∃ u, exec .hash s = .next u ∧ codeField u.status = codeField t.status ∧
    fcauseField u.status = fcauseField t.status ∧ u.mem = s.mem

/-- Where INIT fails, HASH ends in the very same state: their first checks are the same. -/
theorem hash_of_init_failed (hi : exec .init s = .next t) (hcode : codeField t.status ≠ 0) :
    HashFailsLike s t := by
  suffices exec .hash s = .next t ∧ t.mem = s.mem by
    obtain ⟨he, hmem⟩ := this
    exact ⟨t, he, rfl, rfl, hmem⟩
  rw [exec] at hi
  rcases execInit_cases s with ⟨hf, hu⟩ | ⟨hf, hl, hu⟩ | ⟨hf, h, hl, hu⟩ <;> rw [hu] at hi <;> cases hi
  · exact ⟨exec_of_faulted .hash hf, rfl⟩
  · exact ⟨by simp [exec, execHash, unlessFaulted_of_not hf, hl, endWith], rfl⟩
  · exact absurd (by simp [codeBits]) hcode

/-- Where INIT reports OK, it has taken the least free slot outside the faulted condition. -/
theorem eq_initState_of_ok (hi : exec .init s = .next t) (hcode : codeField t.status = 0) (hh : IsLeastFree s h) :
    s.faulted = false ∧ s.leastFree = some h ∧ t = initState h s := by
  have hl : s.leastFree = some h := leastFree_eq_some.2 hh
  rw [exec] at hi
  rcases execInit_cases s with ⟨-, hu⟩ | ⟨-, hl', -⟩ | ⟨hf, h', hl', hu⟩
  · rw [hu] at hi; cases hi; simp [codeBits] at hcode
  · simp [hl] at hl'
  · obtain rfl : h = h' := by simpa [hl] using hl'
    rw [hu] at hi; cases hi
    exact ⟨hf, hl, rfl⟩

/-- UPDATE after INIT: HASH fails with it, or it has absorbed the source and HASH has passed the same checks. -/
theorem update_after_init (hf : s.faulted = false) (hl : s.leastFree = some h)
    (hu : exec (.update h) (initState h s) = .next t) :
    (codeField t.status ≠ 0 ∧ HashFailsLike s t) ∨
    (codeField t.status = 0 ∧ s.badSource = false ∧ s.lengthOverflows 0 = false ∧ allAdmitted s.cfg s.src s.len ∧
      t = fedState h s) := by
  have hcases := execUpdate_next_cases (by simpa using hf) (initState_context hl) (by simp) hu
  rw [initState_badSource, initState_lengthOverflows] at hcases
  rcases hcases with ⟨hb, rfl⟩ | ⟨hb, ho, rfl⟩ | ⟨hb, ho, ha, rfl⟩
  · exact .inl ⟨by simp [codeBits], _, execHash_badSource hf hl hb, by simp, by simp, rfl⟩
  · have hf' : faultedField (initState h s).status = faultedField s.status := by simp [initState]
    exact .inl ⟨by simp [codeBits], _, execHash_lengthOverflow hf hl hb ho, by simp, by simp [hf'], rfl⟩
  · exact .inr ⟨by simp [codeBits], hb, ho, ha, rfl⟩

/-- FINAL after them: HASH fails with it, or both have written the same digest. -/
theorem final_after_update (hinit : exec .init s = .next s₁) (h₁ : codeField s₁.status = 0) (hh : IsLeastFree s h)
    (hupd : exec (.update h) s₁ = .next s₂) (h₂ : codeField s₂.status = 0) (hfin : exec (.final h) s₂ = .next t) :
    (codeField t.status ≠ 0 ∧ HashFailsLike s t) ∨
    (codeField t.status = 0 ∧ ∃ u, exec .hash s = .next u ∧ codeField u.status = 0 ∧ u.mem = t.mem) := by
  obtain ⟨hf, hl, rfl⟩ := eq_initState_of_ok hinit h₁ hh
  obtain ⟨hne, -⟩ | ⟨-, hb, ho, ha, rfl⟩ := update_after_init hf hl hupd
  · exact absurd h₂ hne
  have hcases := execFinal_next_cases (by simpa using hf) (fedState_context hl) (by simp [fedSlot]) hfin
  rw [fedState_badDestination] at hcases
  rcases hcases with ⟨hd, rfl⟩ | ⟨hd, hw, rfl⟩
  · exact .inl ⟨by simp [codeBits], _, execHash_badDestination hf hl hb ho hd, by simp, by simp, rfl⟩
  · refine .inr ⟨by simp [codeBits], _, execHash_ok hf hl hb ho hd ha hw, by simp [codeBits], ?_⟩
    rw [hashState_mem, finalState_mem, serialize_finalize_fedSlot ho]
    rfl

/-- HASH leaves every ALLOC bit and writes HANDLE = 0, whatever it reports (R166, R201). -/
theorem hash_keeps_alloc (he : exec .hash s = .next t) :
    t.slots.map (fun sl : Slot => sl.alloc) = s.slots.map (fun sl : Slot => sl.alloc) ∧ handleField t.status = 0 := by
  rcases execHash_next_cases he with ⟨code, rfl⟩ | ⟨cause, rfl⟩ | ⟨h, hl, rfl⟩
  · simp
  · simp
  · obtain ⟨⟨sl, hsl, hfree⟩, -⟩ := leastFree_eq_some.1 hl
    refine ⟨?_, by simp⟩
    obtain ⟨hlt, rfl⟩ := List.getElem?_eq_some_iff.1 hsl
    rw [hashState_slots, List.map_set, unspecifiedSlot_alloc]
    have hbit : (s.slots.map fun sl : Slot => sl.alloc)[h]'(by simpa using hlt) = false := by simpa using hfree
    rw [← hbit, List.set_getElem_self]

end

/-- Settles O34: each command of the listing fails on the check HASH fails on, and after the last check both write the digest. -/
theorem hashIsInitUpdateFinalFree : Obligations.HashIsInitUpdateFinalFree := by
  unfold Obligations.HashIsInitUpdateFinalFree
  intro s s₁ h hinit
  refine ⟨hash_of_init_failed hinit, fun s₂ h₁ hh hupd hcode => ?_, fun s₂ s₃ h₁ hh hupd h₂ hfin hcode => ?_,
    fun s₂ s₃ s₄ h₁ hh hupd h₂ hfin h₃ hfree _ => ?_, fun t he => hash_keeps_alloc he⟩
  · obtain ⟨hf, hl, rfl⟩ := eq_initState_of_ok hinit h₁ hh
    rcases update_after_init hf hl hupd with ⟨-, hfails⟩ | ⟨hok, -⟩
    · exact hfails
    · exact absurd hok hcode
  · rcases final_after_update hinit h₁ hh hupd h₂ hfin with ⟨-, hfails⟩ | ⟨hok, -⟩
    · exact hfails
    · exact absurd hok hcode
  · rcases final_after_update hinit h₁ hh hupd h₂ hfin with ⟨hne, -⟩ | ⟨-, t, he, hok, hmem⟩
    · exact absurd h₃ hne
    · exact ⟨t, he, hok, hmem.trans (execFree_mem hfree).symm⟩

end Sys2Proof.Machine
end

section
/-! PROOF. The big-endian codecs of 40_primitives.md R112 to R114, in values: a word is the weighted sum of its bytes, and
each byte is a quotient of the word modulo 256, so that every clause is arithmetic. -/

namespace Sys2Proof.Machine

/-- The byte of `v` at bit `k`, as the encoders cut it out. -/
theorem toNat_extract_byte {n : Nat} (v : BitVec n) (k : Nat) : (v.extractLsb' k 8).toNat = v.toNat / 2 ^ k % 256 := by
  rw [BitVec.extractLsb'_toNat, Nat.shiftRight_eq_div_pow]

/-- A byte shifted above all bits of `y` adds its weight: the disjunction has no carry to lose. -/
theorem toNat_shiftLeft_or {k : Nat} (b : Byte) {y : Word} (hk : k + 8 ≤ 32) (hy : y.toNat < 2 ^ k) :
    (b.setWidth 32 <<< k ||| y).toNat = b.toNat * 2 ^ k + y.toNat := by
  have hb : b.toNat * 2 ^ k < 2 ^ 32 := calc
    b.toNat * 2 ^ k < 2 ^ 8 * 2 ^ k := Nat.mul_lt_mul_of_pos_right b.isLt (Nat.two_pow_pos k)
    _ = 2 ^ (k + 8) := by rw [← Nat.pow_add, Nat.add_comm]
    _ ≤ 2 ^ 32 := Nat.pow_le_pow_right (by decide) hk
  rw [BitVec.toNat_or, BitVec.toNat_shiftLeft, BitVec.toNat_setWidth_of_le (by decide), Nat.shiftLeft_eq,
    Nat.mod_eq_of_lt hb, ← Nat.shiftLeft_eq, Nat.shiftLeft_add_eq_or_of_lt hy]

/-- The value of BE32 (R112), summed from the last byte up. -/
theorem toNat_be32 (b0 b1 b2 b3 : Byte) :
    (be32 b0 b1 b2 b3).toNat = b0.toNat * 2 ^ 24 + b1.toNat * 2 ^ 16 + b2.toNat * 2 ^ 8 + b3.toNat := by
  have hlast : (b3.setWidth 32).toNat = b3.toNat := BitVec.toNat_setWidth_of_le (by decide)
  have hlow := toNat_shiftLeft_or (k := 8) (y := b3.setWidth 32) b2 (by decide) (by omega)
  have hmid := toNat_shiftLeft_or (k := 16) b1 (by decide) (hlow.trans_lt (by omega))
  have hall := toNat_shiftLeft_or (k := 24) b0 (by decide) (hmid.trans_lt (by omega))
  rw [be32, BitVec.or_assoc, BitVec.or_assoc, hall, hmid, hlow, hlast]
  omega

/-- BE32enc cuts out again the bytes that BE32 put together (R113). -/
theorem be32enc_be32 (b0 b1 b2 b3 : Byte) : be32enc (be32 b0 b1 b2 b3) = [b0, b1, b2, b3] := by
  simp only [be32enc, List.cons.injEq, and_true, ← BitVec.toNat_inj, toNat_extract_byte, toNat_be32]
  omega

/-- BE32 puts the four bytes of BE32enc back. -/
theorem be32_extract_bytes (w : Word) :
    be32 (w.extractLsb' 24 8) (w.extractLsb' 16 8) (w.extractLsb' 8 8) (w.extractLsb' 0 8) = w := by
  rw [← BitVec.toNat_inj, toNat_be32]
  simp only [toNat_extract_byte]
  omega

/-- The bytes of BE64, read by Horner's rule, give the operand back (R114). -/
theorem foldl_be64 (v : DWord) : (be64 v).foldl (fun acc b => acc * 256 + b.toNat) 0 = v.toNat := by
  simp only [be64, List.foldl_cons, List.foldl_nil, toNat_extract_byte]
  omega

/-- Settles O38: the value of BE32 is the weighted sum of its bytes, and the encoders cut out its quotients modulo 256. -/
theorem codecsAreBigEndian : Obligations.CodecsAreBigEndian := by
  unfold Obligations.CodecsAreBigEndian
  exact ⟨fun b0 b1 b2 b3 => ⟨toNat_be32 b0 b1 b2 b3, be32enc_be32 b0 b1 b2 b3⟩,
    fun w => ⟨_, _, _, _, rfl, be32_extract_bytes w⟩, fun v => ⟨length_be64 v, foldl_be64 v⟩⟩

end Sys2Proof.Machine
end

section
/-! PROOF. The message schedule of 41_block_functions.md R133. The model builds it newest word first. The words built so far,
reversed, begin the finished schedule, so the words that the recurrence reads are entries of the finished schedule. -/

namespace Sys2Proof.Machine

/-- Word t of a byte sequence is BE32 of its bytes 4t to 4t + 3 (R133). -/
theorem wordsOf_getD {l : List Byte} {t : Nat} (ht : 4 * t + 4 ≤ l.length) :
    (wordsOf l).getD t 0 =
      be32 (l.getD (4 * t) 0) (l.getD (4 * t + 1) 0) (l.getD (4 * t + 2) 0) (l.getD (4 * t + 3) 0) := by
  induction l using wordsOf.induct generalizing t with
  | case1 b0 b1 b2 b3 rest ih =>
    cases t with
    | zero => rfl
    | succ t => exact ih (by simp only [List.length_cons] at ht; omega)
  | case2 l hshort =>
    match l, hshort with
    | [], _ | [_], _ | [_, _], _ | [_, _, _], _ => simp at ht
    | b0 :: b1 :: b2 :: b3 :: rest, hshort => exact (hshort b0 b1 b2 b3 rest rfl).elim

/-- Extending by one word more puts that word before the words so far. -/
theorem extendSchedule_succ (n : Nat) (w : List Word) :
    extendSchedule (n + 1) w = nextScheduleWord (extendSchedule n w) :: extendSchedule n w := by
  induction n generalizing w with
  | zero => rfl
  | succ n ih => rw [extendSchedule, ih]; rfl

/-- Oldest word first, the schedule extended further begins with the one extended less far. -/
theorem reverse_extendSchedule_isPrefix {m n : Nat} (w : List Word) (h : m ≤ n) :
    (extendSchedule m w).reverse <+: (extendSchedule n w).reverse := by
  induction n, h using Nat.le_induction with
  | base => exact ⟨[], List.append_nil _⟩
  | succ n _ ih =>
    rw [extendSchedule_succ, List.reverse_cons]
    exact ih.trans ⟨_, rfl⟩

/-- The first `16 + n` schedule words of a block, newest first: what the recurrence for W[16 + n] reads. -/
def partialSchedule (n : Nat) (b : Block) : List Word := extendSchedule n (wordsOf b.toList).reverse

@[simp] theorem length_partialSchedule (n : Nat) (b : Block) : (partialSchedule n b).length = n + 16 := by
  simp [partialSchedule, length_extendSchedule, length_wordsOf]

theorem reverse_partialSchedule_isPrefix {n : Nat} (b : Block) (hn : n ≤ 48) : (partialSchedule n b).reverse <+: expand b :=
  reverse_extendSchedule_isPrefix _ hn

/-- The word at distance k from the newest of the first 16 + n is W[15 + n - k]. -/
theorem partialSchedule_getD {n k : Nat} (b : Block) (hn : n ≤ 48) (hk : k < n + 16) :
    (partialSchedule n b).getD k 0 = (expand b).getD (n + 15 - k) 0 := by
  obtain ⟨later, hlater⟩ := reverse_partialSchedule_isPrefix b hn
  rw [← hlater, List.getD_append _ _ _ _ (by simp; omega), List.getD_reverse _ (by simp; omega), length_partialSchedule,
    show n + 16 - 1 - (n + 15 - k) = k by omega]

/-- The first 16 words of the schedule are the block's (R133). -/
theorem expand_getD_of_lt {b : Block} {t : Nat} (ht : t < 16) : (expand b).getD t 0 = (wordsOf b.toList).getD t 0 := by
  obtain ⟨later, hlater⟩ := reverse_partialSchedule_isPrefix b (Nat.zero_le 48)
  rw [← hlater, partialSchedule, extendSchedule, List.reverse_reverse,
    List.getD_append _ _ _ _ (by simpa [length_wordsOf] using ht)]

/-- Each later word is the one the recurrence gives from the words before it. -/
theorem expand_getD_add_sixteen {b : Block} {n : Nat} (hn : n < 48) :
    (expand b).getD (n + 16) 0 = nextScheduleWord (partialSchedule n b) := by
  have hnewest := partialSchedule_getD (n := n + 1) (k := 0) b hn (by omega)
  rw [partialSchedule, extendSchedule_succ] at hnewest
  exact hnewest.symm

/-- A list is its entries at the indices in order. -/
theorem eq_map_getD_range (l : List Word) : l = (List.range l.length).map (l.getD · 0) := by
  apply List.ext_getElem
  · simp
  · intro i h _
    simp [h]

/-- Settles O35: W[t] is entry t of the schedule; the first 16 words are the block's, and each later one reads the words before it
at the distances of the recurrence. -/
theorem scheduleFollowsItsRecurrence : Obligations.ScheduleFollowsItsRecurrence := by
  unfold Obligations.ScheduleFollowsItsRecurrence
  refine fun b => ⟨fun t => (expand b).getD t 0, ?_, fun t ht => ?_, fun t hlow hhigh => ?_⟩
  · simpa using eq_map_getD_range (expand b)
  · exact (expand_getD_of_lt ht).trans (wordsOf_getD (by simp; omega))
  · obtain ⟨n, rfl⟩ : ∃ n, t = n + 16 := ⟨t - 16, by omega⟩
    dsimp only
    rw [expand_getD_add_sixteen (by omega), nextScheduleWord]
    simp (disch := omega) only [partialSchedule_getD]
    rfl

end Sys2Proof.Machine
end

section
/-! PROOF. The slot procedures FINALIZE and ABSORB and the digest's bytes (41_block_functions.md R132, R138, R139). What they do to
H stands in Laws/Block.lean; here is what FINALIZE leaves in BUF, and each digest byte as a byte of its word. -/

namespace Sys2Proof.Machine

/-! ### What FINALIZE leaves in BUF (R132) -/

/-- The last closing block: the bytes up to the index, zeros up to byte 55, and the length. -/
theorem closeLastBlock_buf (sl : Slot) {n : Nat} (hn : n ≤ 56) :
    (closeLastBlock sl n).buf.toList = sl.buf.toList.take n ++ List.replicate (56 - n) 0 ++ be64 sl.bitlen := by
  have hzeros : (storeBuf n (List.replicate (56 - n) 0) sl.buf).toList.take 56 =
      sl.buf.toList.take n ++ List.replicate (56 - n) 0 := by
    rw [toList_storeBuf _ _ _ (by simp; omega)]
    exact List.take_left' (by simp; omega)
  have hend : 56 + (be64 sl.bitlen).length = 64 := by simp
  show (storeBuf 56 (be64 sl.bitlen) (storeBuf n (List.replicate (56 - n) 0) sl.buf)).toList = _
  rw [toList_storeBuf _ _ _ (by simp), hzeros, hend, List.drop_of_length_le (by simp), List.append_nil]

/-- FINALIZE leaves the last closing block in BUF: after the 0x80, or alone in a second block (R132). -/
theorem finalize_buf (sl : Slot) : (finalize sl).buf.toList =
    (sl.buf.toList.take sl.bcnt.toNat ++ pad sl.bcnt.toNat sl.bitlen).drop (64 * (closingBlocks sl.bcnt.toNat - 1)) := by
  have hlt := sl.bcnt.isLt
  unfold finalize
  dsimp only
  generalize sl.bcnt.toNat = n at *
  by_cases hfull : n + 1 > 56
  · have hblocks : closingBlocks n = 2 := by unfold closingBlocks; rw [if_neg (by omega)]
    have hzeros : padZeros n = (63 - n) + 56 := by unfold padZeros; omega
    have hsplit : sl.buf.toList.take n ++ pad n sl.bitlen =
        (sl.buf.toList.take n ++ [0x80] ++ List.replicate (63 - n) 0) ++ (List.replicate 56 0 ++ be64 sl.bitlen) := by
      simp [pad, hzeros, List.replicate_add]
    rw [closeFullBlock, if_pos hfull, closeLastBlock_buf _ (by omega), hblocks, hsplit, List.drop_left' (by simp; omega)]
    simp
  · have hblocks : closingBlocks n = 1 := by unfold closingBlocks; rw [if_pos (by omega)]
    have hzeros : padZeros n = 56 - (n + 1) := by unfold padZeros; omega
    have hmark : (storeBuf n [0x80] sl.buf).toList.take (n + 1) = sl.buf.toList.take n ++ [0x80] := by
      rw [toList_storeBuf _ _ _ (by simp; omega)]
      exact List.take_left' (by simp; omega)
    rw [closeFullBlock, if_neg hfull, closeLastBlock_buf _ (by omega), hblocks, hmark, pad, hzeros]
    simp

/-- Only the buffered bytes of BUF reach H: the stale ones do not (R33, R132). -/
theorem finalize_h_of_take_eq {sl : Slot} {b : Block}
    (h : b.toList.take sl.bcnt.toNat = sl.buf.toList.take sl.bcnt.toNat) :
    (finalize { sl with buf := b }).h = (finalize sl).h := by
  rw [finalize_h, finalize_h, h]

/-- Settles O41: what FINALIZE makes of H and of BUF, field by field. -/
theorem finalizeCompressesThePaddedBytes : Obligations.FinalizeCompressesThePaddedBytes := by
  unfold Obligations.FinalizeCompressesThePaddedBytes
  exact fun sl => ⟨finalize_h sl, finalize_buf sl, finalize_bcnt sl, finalize_bitlen sl, finalize_alloc sl, finalize_st sl,
    fun _ => finalize_h_of_take_eq⟩

/-! ### ABSORB (R138) -/

theorem absorb_buf_toList (sl : Slot) (x : Byte) :
    (absorb sl x).buf.toList = sl.buf.toList.set sl.bcnt.toNat x := by
  rw [absorb_buf, Vector.toList_set]

/-- The 64th byte compresses the 63 buffered bytes and itself. -/
theorem absorb_h_of_full {sl : Slot} {x : Byte} {b : Block} (hfull : sl.bcnt.toNat = 63)
    (hb : b.toList = sl.buf.toList.take 63 ++ [x]) : (absorb sl x).h = compress sl.h b := by
  have hbuf : sl.buf.set sl.bcnt.toNat x sl.bcnt.isLt = b := by
    apply block_eq_of_toList
    rw [Vector.toList_set, hb, hfull, List.set_eq_take_append_cons_drop, if_pos (by simp), List.drop_of_length_le (by simp)]
  rw [(absorb_full hfull).2, hbuf]

/-- Settles O42: the byte stored and the fields kept, then the 64th byte apart from any other. -/
theorem absorbCompressesAtTheSixtyFourthByte : Obligations.AbsorbCompressesAtTheSixtyFourthByte := by
  unfold Obligations.AbsorbCompressesAtTheSixtyFourthByte
  exact fun sl x => ⟨absorb_buf_toList sl x, absorb_bitlen sl x, absorb_alloc sl x, absorb_st sl x,
    fun hfull => ⟨(absorb_full hfull).1, fun _ => absorb_h_of_full hfull⟩, absorb_part⟩

/-! ### SERIALIZE (R139) -/

/-- The words of the hash state, H[0] first. -/
def HashState.words (h : HashState) : List Word := [h.h0, h.h1, h.h2, h.h3, h.h4, h.h5, h.h6, h.h7]

theorem serialize_eq_flatMap (h : HashState) : serialize h = (HashState.words h).flatMap be32enc := rfl

/-- Four bytes a word: byte 4i + j of the encoded words is byte j of word i. -/
theorem flatMap_be32enc_getD {ws : List Word} {i j : Nat} (hi : i < ws.length) (hj : j < 4) :
    (ws.flatMap be32enc).getD (4 * i + j) 0 = (be32enc (ws.getD i 0)).getD j 0 := by
  induction ws generalizing i with
  | nil => simp at hi
  | cons w ws ih =>
    rw [List.flatMap_cons]
    cases i with
    | zero => rw [List.getD_append _ _ _ _ (by simp; omega), Nat.mul_zero, Nat.zero_add, List.getD_cons_zero]
    | succ i =>
      rw [List.getD_append_right _ _ _ _ (by simp; omega), length_be32enc, List.getD_cons_succ,
        show 4 * (i + 1) + j - 4 = 4 * i + j by omega]
      exact ih (by simpa using hi)

/-- Byte j of an encoded word is its bits 31 - 8j to 24 - 8j (R113). -/
theorem toNat_be32enc_getD (w : Word) {j : Nat} (hj : j < 4) :
    ((be32enc w).getD j 0).toNat = w.toNat / 2 ^ (24 - 8 * j) % 2 ^ 8 := by
  match j, hj with
  | 0, _ => exact toNat_extract_byte w 24
  | 1, _ => exact toNat_extract_byte w 16
  | 2, _ => exact toNat_extract_byte w 8
  | 3, _ => exact toNat_extract_byte w 0

/-- Settles O43: byte 4i + j of the digest is byte j of H[i], which is the quotient of H[i] at its bits. -/
theorem digestIsTheBigEndianHashState : Obligations.DigestIsTheBigEndianHashState := by
  unfold Obligations.DigestIsTheBigEndianHashState
  refine fun H => ⟨length_serialize H, fun i j hi hj => ?_⟩
  rw [serialize_eq_flatMap, flatMap_be32enc_getD hi hj]
  exact toNat_be32enc_getD _ hj

end Sys2Proof.Machine
end

section
/-! PROOF. What the statements about one command share (42_context_commands.md R162 to R165): the words of the rows whose CTX is
free, the two ways a command ends without an effect, and INIT and FREE, which take and release a slot. -/

namespace Sys2Proof.Machine

/-! ### The words of a command with a handle (R71, R73) -/

/-- OPC and CTX as a sum: OPC + 256 × CTX. -/
theorem commandWord_ofNat (opc : BitVec 4) {c : Nat} (hc : c < 256) :
    commandWord opc (BitVec.ofNat 8 c) = BitVec.ofNat 32 (opc.toNat + 256 * c) := by
  have hopc : (opc.setWidth 32).toNat = opc.toNat := BitVec.toNat_setWidth_of_le (by decide)
  have hsum := toNat_shiftLeft_or (k := 8) (y := opc.setWidth 32) (BitVec.ofNat 8 c) (by decide) (by omega)
  apply BitVec.eq_of_toNat_eq
  rw [commandWord, BitVec.or_comm, hsum, hopc, BitVec.toNat_ofNat, BitVec.toNat_ofNat]
  omega

/-- A row with CTX free holds 256 words, one for each handle. -/
theorem selects_with_handle_iff (w : Word) (opc : BitVec 4) (c : Nat) :
    (w &&& 0xFFFF00FF = commandWord opc 0 ∧ (ctxField w).toNat = c) ↔
      c < 256 ∧ w = BitVec.ofNat 32 (opc.toNat + 256 * c) := by
  rw [and_maskWithoutCtx_eq_iff]
  constructor
  · rintro ⟨⟨hopc, hrsv0, hrsv1⟩, rfl⟩
    have hlt := (ctxField w).isLt
    obtain ⟨wopc, wctx, wrsv0, wrsv1⟩ := Laws.EncodedFields.fields_of_handle opc hlt
    rw [← commandWord_ofNat opc hlt]
    exact ⟨hlt, word_eq_of_fields (hopc.trans wopc.symm) (hrsv0.trans wrsv0.symm) (BitVec.eq_of_toNat_eq wctx.symm)
      (hrsv1.trans wrsv1.symm)⟩
  · rintro ⟨hc, rfl⟩
    rw [← commandWord_ofNat opc hc]
    obtain ⟨wopc, wctx, wrsv0, wrsv1⟩ := Laws.EncodedFields.fields_of_handle opc hc
    exact ⟨⟨wopc, wrsv0, wrsv1⟩, wctx⟩

theorem decode_eq_init_iff_word {w : Word} : decode w = .ok .init ↔ w = 0x00000001 := by
  rw [decode_eq_init_iff, show w &&& 0xFFFFFFFF = w from BitVec.and_allOnes]

theorem decode_eq_update_iff_word {w : Word} {c : Nat} :
    decode w = .ok (.update c) ↔ c < 256 ∧ w = BitVec.ofNat 32 (0x00000002 + 256 * c) :=
  decode_eq_update_iff.trans (selects_with_handle_iff w 2 c)

theorem decode_eq_final_iff_word {w : Word} {c : Nat} :
    decode w = .ok (.final c) ↔ c < 256 ∧ w = BitVec.ofNat 32 (0x00000003 + 256 * c) :=
  decode_eq_final_iff.trans (selects_with_handle_iff w 3 c)

theorem decode_eq_free_iff_word {w : Word} {c : Nat} :
    decode w = .ok (.free c) ↔ c < 256 ∧ w = BitVec.ofNat 32 (0x00000004 + 256 * c) :=
  decode_eq_free_iff.trans (selects_with_handle_iff w 4 c)

/-! ### The end of a command that has done nothing else -/

section
variable {s : State} {o : Host.Outcome State Fault Refusal}

/-- A command that only finishes has rewritten STATUS and nothing else (R201). -/
theorem ends_of_finish {code : StatusCode} (h : o = .next (s.finish code)) :
    ∃ t, o = .next t ∧ EndedWith s t (codeBits code) 0 ∧ OnlyStatusChanged s t :=
  ⟨_, h, endedWith_finish rfl code 0, rfl⟩

/-- Outside the faulted condition a raised fault latches its own cause (R203). -/
theorem raisedFault_of_raiseFault {cause : FaultCause} (hf : faultedField s.status = 0)
    (h : o = .next (s.raiseFault cause)) : ∃ t, o = .next t ∧ RaisedFault s t (causeBits cause) := by
  refine ⟨_, h, ?_, ?_, ?_, ?_, ?_, ?_, rfl⟩
  · simp [codeBits]
  · simp
  · simp
  · simp [hf]
  · simp
  · simp

end

/-! ### Handles and slots -/

section
variable {s : State} {c : Nat} {sl : Slot}

/-- The live state of a handle is the ST of its Context. -/
theorem liveState_eq_map_context (s : State) (c : Nat) : liveState s c = (s.context c).map Slot.st := by
  unfold liveState State.context
  cases s.slots[c]? with
  | none => rfl
  | some sl => cases h : sl.alloc <;> simp [h]

theorem liveState_of_context (hc : s.context c = some sl) : liveState s c = some sl.st := by
  rw [liveState_eq_map_context, hc]; rfl

/-- A live handle names a slot. -/
theorem lt_length_of_context (hc : s.context c = some sl) : c < s.slots.length :=
  (List.getElem?_eq_some_iff.1 (context_eq_some.1 hc).1).1

/-! ### FREE at its check, and the slot it releases (R165) -/

theorem execFree_badHandle (hf : s.faulted = false) (hc : s.context c = none) :
    exec (.free c) s = .next (s.raiseFault .badHandle) := by
  simp [exec, execFree, unlessFaulted_of_not hf, hc, endWithFault]

theorem execFree_ok (hf : s.faulted = false) (hc : s.context c = some sl) :
    exec (.free c) s = .next ((s.releaseSlot c).finish .ok) := by
  simp [exec, execFree, unlessFaulted_of_not hf, hc]

/-- The handle of a slot that has been released is bad (R165). -/
theorem context_releaseSlot (hlt : c < s.slots.length) : (s.releaseSlot c).context c = none :=
  context_eq_none.2 (.inr ⟨_, by rw [releaseSlot_slots, List.getElem?_set_self hlt], unspecifiedSlot_alloc _⟩)

end

/-! ### The statements about INIT and FREE -/

/-- Settles O18: INIT is refused when no slot is free, and takes the least free one otherwise. -/
theorem initTakesTheLeastFreeSlot : Obligations.InitTakesTheLeastFreeSlot := by
  unfold Obligations.InitTakesTheLeastFreeSlot
  refine ⟨fun w => decode_eq_init_iff_word, fun s hf => ⟨fun hall => ?_, fun h hh => ?_⟩⟩
  · exact ends_of_finish (execInit_none (faulted_eq_false.2 hf) (leastFree_eq_none.2 hall))
  · have hl : s.leastFree = some h := leastFree_eq_some.2 hh
    have hlt := leastFree_lt_length hl
    refine ⟨_, execInit_some (faulted_eq_false.2 hf) hl, endedWith_finish (setSlot_status s h _) .ok _, ?_, ?_,
      fun c hc => ?_, rfl⟩
    · rw [finish_slots, setSlot_slots, List.getElem?_set_self hlt]; rfl
    · simp
    · simp [List.getElem?_set_ne hc.symm]

/-- Settles O21: FREE releases the slot whatever ST is, and the released handle is a bad one for the second FREE. -/
theorem freeReleasesTheContext : Obligations.FreeReleasesTheContext := by
  unfold Obligations.FreeReleasesTheContext
  refine ⟨fun w c => decode_eq_free_iff_word, fun s c hf => ⟨fun hbad => ?_, fun sl hsl ha => ?_⟩⟩
  · exact raisedFault_of_raiseFault hf (execFree_badHandle (faulted_eq_false.2 hf) ((liveState_eq_none s c).1 hbad))
  · have hc : s.context c = some sl := context_eq_some.2 ⟨hsl, ha⟩
    have hlt := lt_length_of_context hc
    have hsecond := execFree_badHandle (s := (s.releaseSlot c).finish .ok) (c := c)
      (by rw [finish_faulted]; exact faulted_eq_false.2 hf) (by rw [finish_context, context_releaseSlot hlt])
    refine ⟨_, unspecifiedSlot s.freeCount, execFree_ok (faulted_eq_false.2 hf) hc,
      endedWith_finish (releaseSlot_status s c) .ok 0, ?_, unspecifiedSlot_alloc _, ?_, fun d hd => ?_, rfl, rfl,
      raisedFault_of_raiseFault (by simpa using hf) hsecond⟩
    · simp [hlt]
    · simp
    · simp [List.getElem?_set_ne hd.symm]

end Sys2Proof.Machine
end

section
/-! PROOF. UPDATE and FINAL (42_context_commands.md R163, R164): the outcome at each check, with the earlier ones passed, and what
the successful command leaves in its slot and in host memory. -/

namespace Sys2Proof.Machine

section
variable {s : State} {c : Nat} {sl : Slot}

/-! ### UPDATE at each of its checks (R163) -/

theorem execUpdate_badHandle (hf : s.faulted = false) (hc : s.context c = none) :
    exec (.update c) s = .next (s.raiseFault .badHandle) := by
  simp [exec, execUpdate, unlessFaulted_of_not hf, hc, endWithFault]

theorem execUpdate_finalized (hf : s.faulted = false) (hc : s.context c = some sl) (hst : sl.st = .finalized) :
    exec (.update c) s = .next (s.finish .invalidState) := by
  simp [exec, execUpdate, unlessFaulted_of_not hf, hc, hst, endWith]

theorem execUpdate_badSource (hf : s.faulted = false) (hc : s.context c = some sl) (hst : sl.st ≠ .finalized)
    (hb : s.badSource = true) : exec (.update c) s = .next (s.finish .invalidArgument) := by
  simp [exec, execUpdate, unlessFaulted_of_not hf, hc, hst, hb, endWith]

theorem execUpdate_lengthOverflow (hf : s.faulted = false) (hc : s.context c = some sl) (hst : sl.st ≠ .finalized)
    (hb : s.badSource = false) (ho : s.lengthOverflows sl.bitlen.toNat = true) :
    exec (.update c) s = .next (s.raiseFault .lengthOverflow) := by
  simp [exec, execUpdate, unlessFaulted_of_not hf, hc, hst, hb, ho, endWithFault]

/-- UPDATE is stuck where a source byte does not answer (R52). -/
theorem execUpdate_stuck (hf : s.faulted = false) (hc : s.context c = some sl) (hst : sl.st ≠ .finalized)
    (hb : s.badSource = false) (ho : s.lengthOverflows sl.bitlen.toNat = false) (ha : ¬ allAdmitted s.cfg s.src s.len) :
    ∃ i, i < s.len ∧ exec (.update c) s = .fault (.hostMemNotAdmitted (s.src + i)) := by
  rcases readBytes_cases s s.src s.len with ⟨hall, -⟩ | ⟨i, f, hi, hcheck, hr⟩
  · exact absurd hall ha
  · obtain ⟨rfl, -⟩ := source_fault ((badSource_eq_false s).1 hb) hi hcheck
    exact ⟨i, hi, by simp [exec, execUpdate, unlessFaulted_of_not hf, hc, hst, hb, ho, hr]⟩

/-! ### The slot a successful UPDATE leaves -/

/-- Short of the overflow the counter does not wrap (R205). -/
theorem toNat_updatedSlot_bitlen (ho : ¬ TotalOverflows s sl.bitlen.toNat) :
    (updatedSlot s sl).bitlen.toNat = sl.bitlen.toNat + 8 * s.len := by
  unfold TotalOverflows at ho
  rw [updatedSlot_bitlen, BitVec.toNat_add, BitVec.toNat_ofNat, State.len]
  omega

/-- The bytes of SRC are absorbed: full blocks compressed, the rest buffered. -/
theorem updatedSlot_absorbed (s : State) (sl : Slot) : Absorbed sl (updatedSlot s sl) (bytesAt s.mem s.src s.len) := by
  obtain ⟨hbcnt, hh, hbuf⟩ := absorbAll_absorbed (bytesAt s.mem s.src s.len) sl
  exact ⟨hbcnt, hh, hbuf⟩

/-- An UPDATE of no bytes changes ST alone. -/
theorem updatedSlot_of_len_zero (hlen : s.len = 0) (sl : Slot) : updatedSlot s sl = { sl with st := .accumulating } := by
  simp [updatedSlot, hlen, bytesAt, absorbAll]

/-! ### FINAL at each of its checks (R164) -/

theorem execFinal_badHandle (hf : s.faulted = false) (hc : s.context c = none) :
    exec (.final c) s = .next (s.raiseFault .badHandle) := by
  simp [exec, execFinal, unlessFaulted_of_not hf, hc, endWithFault]

theorem execFinal_finalized (hf : s.faulted = false) (hc : s.context c = some sl) (hst : sl.st = .finalized) :
    exec (.final c) s = .next (s.finish .invalidState) := by
  simp [exec, execFinal, unlessFaulted_of_not hf, hc, hst, endWith]

theorem execFinal_badDestination (hf : s.faulted = false) (hc : s.context c = some sl) (hst : sl.st ≠ .finalized)
    (hb : s.badDestination = true) : exec (.final c) s = .next (s.finish .invalidArgument) := by
  simp [exec, execFinal, unlessFaulted_of_not hf, hc, hst, hb, endWith]

/-- FINAL is stuck where a destination byte does not answer (R53). -/
theorem execFinal_stuck (hf : s.faulted = false) (hc : s.context c = some sl) (hst : sl.st ≠ .finalized)
    (hb : s.badDestination = false) (ha : ¬ allAdmitted s.cfg s.dst 32) :
    ∃ i, i < 32 ∧ exec (.final c) s = .fault (.hostMemNotAdmitted (s.dst + i)) := by
  rcases writeBytes_cases s.dst (serialize (finalize sl).h) s with ⟨hall, -⟩ | ⟨i, f, hi, hcheck, hw⟩
  · exact absurd hall ha
  · obtain ⟨rfl, -⟩ := destination_fault ((badDestination_eq_false s).1 hb) hi hcheck
    exact ⟨i, hi, by simp [exec, execFinal, unlessFaulted_of_not hf, hc, hst, hb, hw]⟩

/-! ### The STATUS and the memory a successful FINAL leaves -/

theorem endedWith_finalState (c : Nat) (s : State) (sl : Slot) : EndedWith s (finalState c s sl) (codeBits .ok) 0 := by
  constructor <;> simp

/-- The digest stands at DST_ADDR. -/
theorem bytesAt_finalState (hm : Memory.wf s.mem = true) (c : Nat) (sl : Slot) :
    bytesAt (finalState c s sl).mem s.dst 32 = serialize (finalize sl).h := by
  rw [finalState_mem]
  exact Memory.bytesAt_writeAll hm s.dst (serialize (finalize sl).h)

/-- Nothing but the 32 bytes at DST_ADDR is written. -/
theorem sameOutside_finalState (c : Nat) (s : State) (sl : Slot) :
    sameOutside s.mem (finalState c s sl).mem s.dst 32 := by
  rw [finalState_mem]
  exact Memory.read_writeAll_outside s.mem s.dst (serialize (finalize sl).h)

end

/-! ### The statements about UPDATE and FINAL -/

/-- Settles O19: the checks one by one, and the slot of the successful UPDATE. -/
theorem updateAbsorbsTheSourceBytes : Obligations.UpdateAbsorbsTheSourceBytes := by
  unfold Obligations.UpdateAbsorbsTheSourceBytes
  refine ⟨fun w c => decode_eq_update_iff_word, fun s c hf => ?_⟩
  have hf' : s.faulted = false := faulted_eq_false.2 hf
  refine ⟨fun hbad => raisedFault_of_raiseFault hf (execUpdate_badHandle hf' ((liveState_eq_none s c).1 hbad)),
    fun sl hsl ha => ?_⟩
  have hc : s.context c = some sl := context_eq_some.2 ⟨hsl, ha⟩
  have hlt := lt_length_of_context hc
  refine ⟨fun hst => ends_of_finish (execUpdate_finalized hf' hc hst), fun hst hb => ?_, fun hst hb ho => ?_,
    fun hst hb ho hadm => ?_, fun hst hb ho hadm => ?_⟩
  · exact ends_of_finish (execUpdate_badSource hf' hc hst ((badSource_eq_true s).2 hb))
  · exact raisedFault_of_raiseFault hf (execUpdate_lengthOverflow hf' hc hst ((badSource_eq_false s).2 hb)
      ((lengthOverflows_eq_true s _).2 ho))
  · exact execUpdate_stuck hf' hc hst ((badSource_eq_false s).2 hb) ((lengthOverflows_eq_false s _).2 ho) hadm
  · obtain ⟨hbcnt, hh, hbuf⟩ := updatedSlot_absorbed s sl
    rw [length_bytesAt] at hbcnt hh hbuf
    refine ⟨_, updatedSlot s sl, execUpdate_ok hf' hc hst ((badSource_eq_false s).2 hb)
      ((lengthOverflows_eq_false s _).2 ho) hadm, endedWith_finish (setSlot_status s c _) .ok 0, ?_, ?_, updatedSlot_st s sl,
      toNat_updatedSlot_bitlen ho, hbcnt, hh, hbuf, fun hlen => updatedSlot_of_len_zero hlen sl, ?_, fun d hd => ?_,
      rfl, rfl⟩
    · simp [hlt]
    · rw [updatedSlot_alloc, ha]
    · simp
    · simp [List.getElem?_set_ne hd.symm]

/-- Settles O20: the checks one by one, and the slot and the memory of the successful FINAL. -/
theorem finalWritesTheDigest : Obligations.FinalWritesTheDigest := by
  unfold Obligations.FinalWritesTheDigest
  refine ⟨fun w c => decode_eq_final_iff_word, fun s c hf => ?_⟩
  have hf' : s.faulted = false := faulted_eq_false.2 hf
  refine ⟨fun hbad => raisedFault_of_raiseFault hf (execFinal_badHandle hf' ((liveState_eq_none s c).1 hbad)),
    fun sl hsl ha => ?_⟩
  have hc : s.context c = some sl := context_eq_some.2 ⟨hsl, ha⟩
  have hlt := lt_length_of_context hc
  refine ⟨fun hst => ends_of_finish (execFinal_finalized hf' hc hst), fun hst hb => ?_, fun hst hb hadm => ?_,
    fun hst hb hadm => ?_⟩
  · exact ends_of_finish (execFinal_badDestination hf' hc hst ((badDestination_eq_true s).2 hb))
  · exact execFinal_stuck hf' hc hst ((badDestination_eq_false s).2 hb) hadm
  · refine ⟨finalState c s sl, { finalize sl with st := .finalized },
      execFinal_ok hf' hc hst ((badDestination_eq_false s).2 hb) hadm, endedWith_finalState c s sl, ?_, ?_, rfl,
      finalize_bcnt sl, finalize_bitlen sl, finalize_h sl, fun hm => bytesAt_finalState hm c sl,
      sameOutside_finalState c s sl, ?_, fun d hd => ?_, finalState_eq c s sl⟩
    · simp [hlt]
    · rw [finalize_alloc, ha]
    · simp
    · simp [List.getElem?_set_ne hd.symm]

end Sys2Proof.Machine
end

section
/-! PROOF. The Context state machine (42_context_commands.md R161). A command that completes has either failed, and changed
STATUS alone, or succeeded, and rewritten one slot; each row of R161 reads the state of that slot. -/

namespace Sys2Proof.Machine

/-! ### A completed command has failed or succeeded -/

/-- The state `t` is the one the successful command leaves behind from `s` (R162 to R166). -/
def Succeeded (s t : State) : Instr → Prop
  | .init => ∃ h, s.leastFree = some h ∧ t = initState h s
  | .update c => ∃ sl, s.context c = some sl ∧ sl.st ≠ .finalized ∧ t = (s.setSlot c (updatedSlot s sl)).finish .ok
  | .final c => ∃ sl, s.context c = some sl ∧ sl.st ≠ .finalized ∧ t = finalState c s sl
  | .free c => ∃ sl, s.context c = some sl ∧ t = (s.releaseSlot c).finish .ok
  | .hash => ∃ h, s.leastFree = some h ∧ t = hashState h s

/-- The command reported a CODE other than OK and changed nothing but STATUS (R160). -/
def Failed (s t : State) : Prop := codeField t.status ≠ 0 ∧ OnlyStatusChanged s t

theorem failed_finish (s : State) {code : StatusCode} (h : codeBits code ≠ 0) : Failed s (s.finish code) :=
  ⟨by simpa using h, rfl⟩

theorem failed_raiseFault (s : State) (cause : FaultCause) : Failed s (s.raiseFault cause) :=
  ⟨by simp [codeBits], rfl⟩

section
variable {i : Instr} {s t : State}

/-- The state a successful command leaves reports OK. -/
theorem Succeeded.code (h : Succeeded s t i) : codeField t.status = 0 := by
  cases i with
  | init => obtain ⟨_, -, rfl⟩ := h; simp [initState, codeBits]
  | update c => obtain ⟨_, -, -, rfl⟩ := h; simp [codeBits]
  | final c => obtain ⟨_, -, -, rfl⟩ := h; simp [codeBits]
  | free c => obtain ⟨_, -, rfl⟩ := h; simp [codeBits]
  | hash => obtain ⟨_, -, rfl⟩ := h; simp [codeBits]

/-- Every command that completes has failed or succeeded. -/
theorem exec_failed_or_succeeded (he : exec i s = .next t) : Failed s t ∨ Succeeded s t i := by
  cases i with
  | init =>
    rcases execInit_cases s with ⟨-, hu⟩ | ⟨-, -, hu⟩ | ⟨-, h, hl, hu⟩ <;> rw [exec, hu] at he <;> cases he
    · exact .inl (failed_finish s (by decide))
    · exact .inl (failed_finish s (by decide))
    · exact .inr ⟨h, hl, rfl⟩
  | update c =>
    rcases execUpdate_cases c s with ⟨-, hu⟩ | ⟨-, ⟨-, hu⟩ | ⟨sl, hc, ⟨-, hu⟩ | ⟨-, -, hu⟩ | ⟨-, -, -, hu⟩ |
      ⟨hst, -, -, ⟨_, _, -, -, hu⟩ | ⟨-, hu⟩⟩⟩⟩ <;> rw [exec, hu] at he <;> cases he
    · exact .inl (failed_finish s (by decide))
    · exact .inl (failed_raiseFault s _)
    · exact .inl (failed_finish s (by decide))
    · exact .inl (failed_finish s (by decide))
    · exact .inl (failed_raiseFault s _)
    · exact .inr ⟨sl, hc, hst, rfl⟩
  | final c =>
    rcases execFinal_cases c s with ⟨-, hu⟩ | ⟨-, ⟨-, hu⟩ | ⟨sl, hc, ⟨-, hu⟩ | ⟨-, -, hu⟩ |
      ⟨hst, -, ⟨_, _, -, -, hu⟩ | ⟨-, hu⟩⟩⟩⟩ <;> rw [exec, hu] at he <;> cases he
    · exact .inl (failed_finish s (by decide))
    · exact .inl (failed_raiseFault s _)
    · exact .inl (failed_finish s (by decide))
    · exact .inl (failed_finish s (by decide))
    · exact .inr ⟨sl, hc, hst, rfl⟩
  | free c =>
    rcases execFree_cases c s with ⟨-, hu⟩ | ⟨-, -, hu⟩ | ⟨-, sl, hc, hu⟩ <;> rw [exec, hu] at he <;> cases he
    · exact .inl (failed_finish s (by decide))
    · exact .inl (failed_raiseFault s _)
    · exact .inr ⟨sl, hc, rfl⟩
  | hash =>
    rcases execHash_cases s with ⟨-, hu⟩ | ⟨-, ⟨-, hu⟩ | ⟨h, hl, ⟨-, hu⟩ | ⟨-, -, hu⟩ | ⟨-, -, -, hu⟩ |
      ⟨-, -, -, ⟨_, _, -, -, hu⟩ | ⟨-, ⟨_, _, -, -, hu⟩ | ⟨-, hu⟩⟩⟩⟩⟩ <;> rw [exec, hu] at he <;> cases he
    · exact .inl (failed_finish s (by decide))
    · exact .inl (failed_finish s (by decide))
    · exact .inl (failed_finish s (by decide))
    · exact .inl (failed_raiseFault s _)
    · exact .inl (failed_finish s (by decide))
    · exact .inr ⟨h, hl, rfl⟩

/-- A command that reports OK has succeeded. -/
theorem succeeded_of_ok (he : exec i s = .next t) (hok : codeField t.status = 0) : Succeeded s t i :=
  (exec_failed_or_succeeded he).resolve_left fun hfail => hfail.1 hok

/-- A command that reports another code has changed nothing but STATUS (R160). -/
theorem onlyStatusChanged_of_not_ok (he : exec i s = .next t) (hcode : codeField t.status ≠ 0) : OnlyStatusChanged s t :=
  ((exec_failed_or_succeeded he).resolve_right fun hsucc => hcode hsucc.code).2

end

/-! ### The state of a slot that is rewritten -/

section
variable {s t : State} {c : Nat} {sl : Slot}

/-- The states of the Contexts are read off the slots. -/
theorem liveState_of_slots_eq (h : t.slots = s.slots) (d : Nat) : liveState t d = liveState s d := by
  unfold liveState; rw [h]

theorem liveState_of_slots_set_ne (h : t.slots = s.slots.set c sl) {d : Nat} (hd : d ≠ c) :
    liveState t d = liveState s d := by
  unfold liveState; rw [h, List.getElem?_set_ne hd.symm]

theorem liveState_of_slots_set_live (h : t.slots = s.slots.set c sl) (hlt : c < s.slots.length) (ha : sl.alloc = true) :
    liveState t c = some sl.st := by
  unfold liveState; rw [h, List.getElem?_set_self hlt]; simp [ha]

theorem liveState_of_slots_set_free (h : t.slots = s.slots.set c sl) (hlt : c < s.slots.length) (ha : sl.alloc = false) :
    liveState t c = none := by
  unfold liveState; rw [h, List.getElem?_set_self hlt]; simp [ha]

theorem liveState_leastFree (hl : s.leastFree = some c) : liveState s c = none := by
  obtain ⟨⟨sl, hsl, hfree⟩, -⟩ := leastFree_eq_some.1 hl
  exact (liveState_eq_none s c).2 (context_eq_none.2 (.inr ⟨sl, hsl, hfree⟩))

/-- A Context that is not Finalized is Fresh or Accumulating. -/
theorem liveState_of_not_finalized (hc : s.context c = some sl) (hst : sl.st ≠ .finalized) :
    liveState s c = some .fresh ∨ liveState s c = some .accumulating := by
  rw [liveState_of_context hc]
  cases h : sl.st with
  | fresh => exact .inl rfl
  | accumulating => exact .inr rfl
  | finalized => exact absurd h hst

/-! ### The rows of R161 -/

theorem Succeeded.init_moves (h : Succeeded s t .init) :
    ∃ c, c < s.numCtx ∧ liveState s c = none ∧ liveState t c = some .fresh ∧ ∀ d, d ≠ c → liveState t d = liveState s d := by
  obtain ⟨c, hl, rfl⟩ := h
  have hset : (initState c s).slots = s.slots.set c (freshContext true) := rfl
  have hlt := leastFree_lt_length hl
  exact ⟨c, hlt, liveState_leastFree hl, liveState_of_slots_set_live hset hlt rfl,
    fun d => liveState_of_slots_set_ne hset⟩

theorem Succeeded.update_moves (h : Succeeded s t (.update c)) :
    (liveState s c = some .fresh ∨ liveState s c = some .accumulating) ∧ liveState t c = some .accumulating ∧
      ∀ d, d ≠ c → liveState t d = liveState s d := by
  obtain ⟨sl, hc, hst, rfl⟩ := h
  have hset : ((s.setSlot c (updatedSlot s sl)).finish .ok).slots = s.slots.set c (updatedSlot s sl) := rfl
  have ha : (updatedSlot s sl).alloc = true := by rw [updatedSlot_alloc, (context_eq_some.1 hc).2]
  exact ⟨liveState_of_not_finalized hc hst, liveState_of_slots_set_live hset (lt_length_of_context hc) ha,
    fun d => liveState_of_slots_set_ne hset⟩

theorem Succeeded.final_moves (h : Succeeded s t (.final c)) :
    (liveState s c = some .fresh ∨ liveState s c = some .accumulating) ∧ liveState t c = some .finalized ∧
      ∀ d, d ≠ c → liveState t d = liveState s d := by
  obtain ⟨sl, hc, hst, rfl⟩ := h
  have hset := finalState_slots c s sl
  have ha : (finalize sl).alloc = true := by rw [finalize_alloc, (context_eq_some.1 hc).2]
  exact ⟨liveState_of_not_finalized hc hst, liveState_of_slots_set_live hset (lt_length_of_context hc) ha,
    fun d => liveState_of_slots_set_ne hset⟩

theorem Succeeded.free_moves (h : Succeeded s t (.free c)) :
    liveState s c ≠ none ∧ liveState t c = none ∧ ∀ d, d ≠ c → liveState t d = liveState s d := by
  obtain ⟨sl, hc, rfl⟩ := h
  have hset : ((s.releaseSlot c).finish .ok).slots = s.slots.set c (unspecifiedSlot s.freeCount) := rfl
  exact ⟨by simp [liveState_of_context hc],
    liveState_of_slots_set_free hset (lt_length_of_context hc) (unspecifiedSlot_alloc _),
    fun d => liveState_of_slots_set_ne hset⟩

/-- HASH's scratch slot is free before and after (R166). -/
theorem Succeeded.hash_keeps (h : Succeeded s t .hash) (d : Nat) : liveState t d = liveState s d := by
  obtain ⟨c, hl, rfl⟩ := h
  have hset := hashState_slots c s
  by_cases hd : d = c
  · subst hd
    rw [liveState_of_slots_set_free hset (leastFree_lt_length hl) (unspecifiedSlot_alloc _), liveState_leastFree hl]
  · exact liveState_of_slots_set_ne hset hd

/-- HASH and every command that fails leave ALLOC and the ST of live slots. -/
theorem exec_keeps_liveState {i : Instr} (he : exec i s = .next t) (hi : i = .hash ∨ codeField t.status ≠ 0) (d : Nat) :
    liveState t d = liveState s d := by
  by_cases hok : codeField t.status = 0
  · obtain rfl := hi.resolve_right (not_not.2 hok)
    exact (succeeded_of_ok he hok).hash_keeps d
  · exact liveState_of_slots_eq (congrArg State.slots (onlyStatusChanged_of_not_ok he hok)) d

/-- A Finalized Context refuses UPDATE and FINAL (R163, R164). -/
theorem exec_of_finalized {i : Instr} (hi : i = .update c ∨ i = .final c) (hf : s.faulted = false)
    (hlive : liveState s c = some .finalized) : exec i s = .next (s.finish .invalidState) := by
  obtain ⟨sl, hc, hst⟩ := Option.map_eq_some_iff.1 ((liveState_eq_map_context s c).symm.trans hlive)
  rcases hi with rfl | rfl
  · exact execUpdate_finalized hf hc hst
  · exact execFinal_finalized hf hc hst

/-- A bad handle raises the fault in UPDATE, FINAL and FREE (R204). -/
theorem exec_of_badHandle {i : Instr} (hi : i = .update c ∨ i = .final c ∨ i = .free c) (hf : s.faulted = false)
    (hlive : liveState s c = none) : exec i s = .next (s.raiseFault .badHandle) := by
  have hc := (liveState_eq_none s c).1 hlive
  rcases hi with rfl | rfl | rfl
  · exact execUpdate_badHandle hf hc
  · exact execFinal_badHandle hf hc
  · exact execFree_badHandle hf hc

end

/-- Settles O23: the rows of R161, read off the state each successful command leaves, and the two refusals. -/
theorem contextStateMachine : Obligations.ContextStateMachine := by
  unfold Obligations.ContextStateMachine
  intro i s t he
  refine ⟨?_, ?_, ?_, ?_, exec_keeps_liveState he, fun c hi hf hlive => ?_, fun c hi hf hlive => ?_⟩
  · rintro rfl hok; exact (succeeded_of_ok he hok).init_moves
  · rintro c rfl hok; exact (succeeded_of_ok he hok).update_moves
  · rintro c rfl hok; exact (succeeded_of_ok he hok).final_moves
  · rintro c rfl hok; exact (succeeded_of_ok he hok).free_moves
  · rw [exec_of_finalized hi (faulted_eq_false.2 hf) hlive] at he
    cases he
    simp [codeBits]
  · rw [exec_of_badHandle hi (faulted_eq_false.2 hf) hlive] at he
    cases he
    simp [hf, codeBits, causeBits]

end Sys2Proof.Machine
end

section
/-! PROOF. How a command ends (60_exceptions.md R201 to R209): by `finish`, by a raised fault, or with its effect; and which of
R208's conditions it reports. -/

namespace Sys2Proof.Machine

/-! ### Every way a command that completes ends -/

section
variable {i : Instr} {s t : State}

/-- A completed command has ended by `finish` with nothing done, where the code Fault is the faulted condition's own; or has raised
a fault outside that condition; or has succeeded. -/
theorem exec_ends (he : exec i s = .next t) :
    (∃ code, t = s.finish code ∧ (code = .fault → faultedField s.status = 1)) ∨
    (faultedField s.status = 0 ∧ ∃ cause, t = s.raiseFault cause) ∨ Succeeded s t i := by
  cases hf : s.faulted with
  | true =>
    rw [exec_of_faulted i hf] at he; cases he
    exact .inl ⟨.fault, rfl, fun _ => faulted_eq_true.1 hf⟩
  | false =>
    have hf₀ := faulted_eq_false.1 hf
    cases i with
    | init =>
      rcases execInit_cases s with ⟨hf', -⟩ | ⟨-, -, hu⟩ | ⟨-, h, hl, hu⟩
      · simp [hf] at hf'
      · rw [exec, hu] at he; cases he; exact .inl ⟨_, rfl, nofun⟩
      · rw [exec, hu] at he; cases he; exact .inr (.inr ⟨h, hl, rfl⟩)
    | update c =>
      cases hc : s.context c with
      | none => rw [execUpdate_badHandle hf hc] at he; cases he; exact .inr (.inl ⟨hf₀, _, rfl⟩)
      | some sl =>
        by_cases hst : sl.st = .finalized
        · rw [execUpdate_finalized hf hc hst] at he; cases he; exact .inl ⟨_, rfl, nofun⟩
        · rcases execUpdate_next_cases hf hc hst he with ⟨-, ht⟩ | ⟨-, -, ht⟩ | ⟨-, -, -, ht⟩
          · exact .inl ⟨_, ht, nofun⟩
          · exact .inr (.inl ⟨hf₀, _, ht⟩)
          · exact .inr (.inr ⟨sl, hc, hst, ht⟩)
    | final c =>
      cases hc : s.context c with
      | none => rw [execFinal_badHandle hf hc] at he; cases he; exact .inr (.inl ⟨hf₀, _, rfl⟩)
      | some sl =>
        by_cases hst : sl.st = .finalized
        · rw [execFinal_finalized hf hc hst] at he; cases he; exact .inl ⟨_, rfl, nofun⟩
        · rcases execFinal_next_cases hf hc hst he with ⟨-, ht⟩ | ⟨-, -, ht⟩
          · exact .inl ⟨_, ht, nofun⟩
          · exact .inr (.inr ⟨sl, hc, hst, ht⟩)
    | free c =>
      cases hc : s.context c with
      | none => rw [execFree_badHandle hf hc] at he; cases he; exact .inr (.inl ⟨hf₀, _, rfl⟩)
      | some sl => rw [execFree_ok hf hc] at he; cases he; exact .inr (.inr ⟨sl, hc, rfl⟩)
    | hash =>
      rcases execHash_cases s with ⟨hf', -⟩ | ⟨-, ⟨-, hu⟩ | ⟨h, hl, ⟨-, hu⟩ | ⟨-, -, hu⟩ | ⟨-, -, -, hu⟩ |
        ⟨-, -, -, ⟨_, _, -, -, hu⟩ | ⟨-, ⟨_, _, -, -, hu⟩ | ⟨-, hu⟩⟩⟩⟩⟩
      · simp [hf] at hf'
      all_goals rw [exec, hu] at he; cases he
      · exact .inl ⟨_, rfl, nofun⟩
      · exact .inl ⟨_, rfl, nofun⟩
      · exact .inr (.inl ⟨hf₀, _, rfl⟩)
      · exact .inl ⟨_, rfl, nofun⟩
      · exact .inr (.inr ⟨h, hl, rfl⟩)

/-- A successful command ends as `finish` does, with a HANDLE only where it is INIT (R201). -/
theorem Succeeded.endedWith (h : Succeeded s t i) : ∃ handle, EndedWith s t 0 handle ∧ (i ≠ .init → handle = 0) := by
  cases i with
  | init => obtain ⟨c, -, rfl⟩ := h; exact ⟨_, endedWith_finish (setSlot_status s c _) .ok _, fun hi => absurd rfl hi⟩
  | update c => obtain ⟨_, -, -, rfl⟩ := h; exact ⟨0, endedWith_finish (setSlot_status s c _) .ok 0, fun _ => rfl⟩
  | final c => obtain ⟨sl, -, -, rfl⟩ := h; exact ⟨0, endedWith_finalState c s sl, fun _ => rfl⟩
  | free c => obtain ⟨_, -, rfl⟩ := h; exact ⟨0, endedWith_finish (releaseSlot_status s c) .ok 0, fun _ => rfl⟩
  | hash => obtain ⟨c, -, rfl⟩ := h; exact ⟨0, endedWith_finish (by simp) .ok 0, fun _ => rfl⟩

/-! ### CODE = 5 (R203, R206) -/

/-- Raising a fault keeps the cause that is latched already. -/
theorem raisedFault_raiseFault (s : State) (cause : FaultCause) : RaisedFault s (s.raiseFault cause)
    (if faultedField s.status = 0 then causeBits cause else fcauseField s.status) :=
  ⟨codeField_statusWord .., handleField_statusWord .., faultedField_statusWord .., fcauseField_statusWord ..,
    reservedLow_statusWord .., reservedHigh_statusWord .., rfl⟩

/-- Refusing a command in the faulted condition leaves what raising a fault again would leave. -/
theorem raisedFault_finish_fault (h : faultedField s.status = 1) :
    RaisedFault s (s.finish .fault) (fcauseField s.status) :=
  ⟨codeField_statusWord .., handleField_statusWord .., (faultedField_statusWord ..).trans h, fcauseField_statusWord ..,
    reservedLow_statusWord .., reservedHigh_statusWord .., rfl⟩

/-- Only Fault is the code 5 (R202). -/
theorem eq_fault_of_codeBits {code : StatusCode} (h : codeBits code = 5) : code = .fault := by
  cases code with
  | fault => rfl
  | ok | allocationFailure | invalidState | invalidArgument | illegalCommand => exact absurd h (by decide)

/-- In the faulted condition a command word is refused, legal or not (R206). -/
theorem execute_of_faulted (w : Word) (h : s.faulted = true) : execute w s = .next (s.finish .fault) := by
  cases hd : decode w with
  | ok i => rw [execute_of_ok hd, exec_of_faulted i h]
  | error e => rw [execute_of_error hd]; exact unlessFaulted_of_faulted h _

/-- Short of reset, a step in the faulted condition keeps FAULTED and FCAUSE. -/
theorem step_keeps_faulted (h : faultedField s.status = 1) (hstep : step s = .next t)
    (hreset : s.hostOps.head? ≠ some .reset) :
    faultedField t.status = 1 ∧ fcauseField t.status = fcauseField s.status := by
  rcases step_cases hstep with ⟨-, rfl⟩ | ⟨op, rest, hs, ⟨v, rfl, he⟩ | ⟨v, rfl, rfl⟩ | ⟨v, rfl, rfl⟩ | ⟨v, rfl, rfl⟩ |
    ⟨v, rfl, rfl⟩ | ⟨a, w, v, rfl, rfl⟩ | ⟨a, v, rfl, -, rfl⟩ | ⟨rfl, -⟩⟩
  · exact ⟨h, rfl⟩
  · rw [execute_of_faulted _ (s := { s with hostOps := rest }) (faulted_eq_true.2 h)] at he
    cases he
    simp [h]
  on_goal 7 => simp [hs] at hreset
  all_goals exact ⟨h, rfl⟩

end

/-! ### The statements about one command's end -/

/-- Settles O11: each end of a command leaves the fields `finish` leaves, but for the fault it raises. -/
theorem finishRewritesWholeStatus : Obligations.FinishRewritesWholeStatus := by
  unfold Obligations.FinishRewritesWholeStatus
  refine ⟨fun s code handle => ⟨endedWith_finish rfl code handle, rfl⟩, fun i s t he => ?_⟩
  have hinit : i = .init → codeField t.status = 0 → ∃ h, IsLeastFree s h ∧ handleField t.status = BitVec.ofNat 8 h := by
    rintro rfl hok
    obtain ⟨h, hl, rfl⟩ := succeeded_of_ok he hok
    exact ⟨h, leastFree_eq_some.1 hl, by simp [initState]⟩
  rcases exec_ends he with ⟨code, rfl, -⟩ | ⟨-, cause, rfl⟩ | hsucc
  · exact ⟨by simp, by simp, hinit, by simp, by simp⟩
  · exact ⟨by simp, by simp, hinit, by simp, by simp [codeBits]⟩
  · obtain ⟨handle, hend, hzero⟩ := hsucc.endedWith
    refine ⟨hend.reservedLow, hend.reservedHigh, hinit, fun hnot => ?_, fun _ => ⟨hend.faulted, hend.fcause⟩⟩
    rw [hend.handle]
    exact hzero fun hi => hnot ⟨hi, hend.code⟩

/-- Settles O12: a command ends with CODE = 5 by the guard in the faulted condition, and by a raised fault outside it. -/
theorem raisingAFaultLatchesTheFirstCause : Obligations.RaisingAFaultLatchesTheFirstCause := by
  unfold Obligations.RaisingAFaultLatchesTheFirstCause
  refine ⟨raisedFault_raiseFault, rfl, rfl, fun i s t he hcode => ?_⟩
  rcases exec_ends he with ⟨code, rfl, hfault⟩ | ⟨hf, cause, rfl⟩ | hsucc
  · obtain rfl := eq_fault_of_codeBits ((codeField_statusWord ..).symm.trans hcode)
    exact ⟨fun h₀ => by simp [h₀] at hfault, raisedFault_finish_fault⟩
  · have hraised := raisedFault_raiseFault s cause
    rw [if_pos hf] at hraised
    refine ⟨fun _ => ?_, fun h₁ => by simp [h₁] at hf⟩
    cases cause with
    | badHandle => exact .inl hraised
    | lengthOverflow => exact .inr hraised
  · rw [hsucc.code] at hcode; cases hcode

/-- Settles O13: the guard refuses every word, the operand registers do not look at STATUS, and of all steps reset alone
writes FAULTED = 0. -/
theorem faultedBlockRefusesEveryCommand : Obligations.FaultedBlockRefusesEveryCommand := by
  unfold Obligations.FaultedBlockRefusesEveryCommand
  intro s h
  have hf : s.faulted = true := faulted_eq_true.2 h
  refine ⟨by rw [State.final, hf]; rfl, fun i => ⟨_, exec_of_faulted i hf, raisedFault_finish_fault h⟩, fun w rest hs => ?_,
    fun v rest => ⟨fun hs => step_regWrite hs (windowReg_srcAddr _) nofun,
      fun hs => step_regWrite hs (windowReg_srcLen _) nofun, fun hs => step_regWrite hs (windowReg_dstAddr _) nofun,
      fun hs => step_regRead hs (windowReg_srcAddr _), fun hs => step_regRead hs (windowReg_srcLen _),
      fun hs => step_regRead hs (windowReg_dstAddr _)⟩,
    fun t hstep hreset => step_keeps_faulted h hstep hreset, fun rest hs => ⟨_, step_reset hs, by simp [faultedField]⟩⟩
  exact ⟨_, (step_cmd hs).trans (execute_of_faulted w (s := { s with hostOps := rest }) hf),
    raisedFault_finish_fault (s := { s with hostOps := rest }) h⟩

/-- Settles O15: a command that did not succeed has changed STATUS alone, and so no memory. -/
theorem failedCommandChangesOnlyStatus : Obligations.FailedCommandChangesOnlyStatus := by
  unfold Obligations.FailedCommandChangesOnlyStatus
  intro i s t he hcode
  have honly := onlyStatusChanged_of_not_ok he hcode
  exact ⟨honly, congrArg (·.mem) honly⟩

end Sys2Proof.Machine
end

section
/-! PROOF. The order of the conditions (60_exceptions.md R208). Each condition has one state that reports it; a command word ends
in the state of the first condition that applies to it, and where none applies every check of its command is passed. -/

namespace Sys2Proof.Machine

/-! ### The first condition in R208's order -/

/-- `k` applies to the word, and no condition before it in R208's order does. -/
def Condition.IsFirst (s : State) (w : Word) (k : Condition) : Prop :=
  k.Applies s w ∧ ∀ j ∈ Condition.order.takeWhile (· != k), ¬ j.Applies s w

section
variable {s : State} {w : Word} {k : Condition}

/-- What stands before `k` in the order is what `IsFirst` reads, because no condition stands there twice. -/
theorem Condition.earlier_eq {earlier later : List Condition} (h : Condition.order = earlier ++ k :: later) :
    earlier = Condition.order.takeWhile (· != k) := by
  have hnodup : (earlier ++ k :: later).Nodup := by rw [← h]; decide
  have hne : ∀ j ∈ earlier, (j != k) = true := fun j hj =>
    bne_iff_ne.2 ((List.nodup_append.1 hnodup).2.2 j hj k List.mem_cons_self)
  rw [h, List.takeWhile_append_of_pos hne]
  simp

/-- The first condition that applies, as R208 says it of a place in the order. -/
theorem Condition.isFirst_of_order_eq {earlier later : List Condition} (h : Condition.order = earlier ++ k :: later)
    (hearlier : ∀ j ∈ earlier, ¬ j.Applies s w) (hk : k.Applies s w) : k.IsFirst s w :=
  ⟨hk, Condition.earlier_eq h ▸ hearlier⟩

/-- No condition looks at the outside world's coming actions. -/
theorem Condition.applies_hostOps (s : State) (ops : List HostOp) (w : Word) (k : Condition) :
    k.Applies { s with hostOps := ops } w ↔ k.Applies s w := by
  cases k <;> exact Iff.rfl

theorem Condition.IsFirst.hostOps (hk : k.IsFirst s w) (ops : List HostOp) : k.IsFirst { s with hostOps := ops } w :=
  ⟨(k.applies_hostOps s ops w).2 hk.1, fun j hj => (j.applies_hostOps s ops w).not.2 (hk.2 j hj)⟩

/-- The faulted condition stands before every other. -/
theorem Condition.IsFirst.not_faulted (hk : k.IsFirst s w) (hne : k ≠ .faulted) : s.faulted = false := by
  have hmem : Condition.faulted ∈ Condition.order.takeWhile (· != k) := by
    cases k with
    | faulted => exact absurd rfl hne
    | illegalWord | badHandle | noFreeSlot | finalizedContext | badSource | lengthOverflow | badDestination => decide
  exact Bool.eq_false_iff.2 fun hf => hk.2 .faulted hmem (faulted_eq_true.1 hf)

end

/-! ### The state that reports a condition -/

/-- The state in which a condition is reported (R208). `execute_of_isFirst` ties it to the command's run. -/
def Condition.report (s : State) : Condition → State
  | .faulted => s.finish .fault
  | .illegalWord => s.finish .illegalCommand
  | .badHandle => s.raiseFault .badHandle
  | .noFreeSlot => s.finish .allocationFailure
  | .finalizedContext => s.finish .invalidState
  | .badSource => s.finish .invalidArgument
  | .lengthOverflow => s.raiseFault .lengthOverflow
  | .badDestination => s.finish .invalidArgument

section
variable (s : State) (k : Condition)

theorem Condition.codeField_report : codeField (k.report s).status = k.code := by
  cases k <;> exact codeField_statusWord ..

theorem Condition.handleField_report : handleField (k.report s).status = 0 := by
  cases k <;> exact handleField_statusWord ..

theorem Condition.onlyStatusChanged_report : OnlyStatusChanged s (k.report s) := by
  cases k <;> rfl

end

section
variable {s : State} {w : Word} {k : Condition}

/-- Outside the faulted condition a fault raised now latches its own cause. -/
theorem Condition.IsFirst.fcauseField_report (hk : k.IsFirst s w) :
    fcauseField (k.report s).status = k.fcauseAfter s := by
  cases k with
  | badHandle | lengthOverflow =>
    simp [Condition.report, Condition.fcauseAfter, faulted_eq_false.1 (hk.not_faulted nofun), causeBits]
  | faulted | illegalWord | noFreeSlot | finalizedContext | badSource | badDestination =>
    exact fcauseField_statusWord ..

/-- FAULTED is 1 exactly after the conditions whose CODE is 5. -/
theorem Condition.IsFirst.faultedField_report (hk : k.IsFirst s w) :
    k.code = 5 ↔ faultedField (k.report s).status = 1 := by
  cases k with
  | faulted =>
    have hf : faultedField s.status = 1 := hk.1
    simp [Condition.report, Condition.code, hf]
  | badHandle | lengthOverflow => simp [Condition.report, Condition.code]
  | illegalWord | noFreeSlot | finalizedContext | badSource | badDestination =>
    simp [Condition.report, Condition.code, faulted_eq_false.1 (hk.not_faulted nofun)]

end

/-! ### What a condition that does not apply says of the state -/

section
variable {s : State} {w : Word} {c : Nat}

/-- The handle names a Context. -/
theorem exists_context_of_not_applies (hbad : ¬ Condition.Applies s w .badHandle)
    (hd : decode w = .ok (.update c) ∨ decode w = .ok (.final c) ∨ decode w = .ok (.free c)) :
    ∃ sl, s.context c = some sl :=
  Option.ne_none_iff_exists'.1 fun hc => hbad ⟨c, hd, (liveState_eq_none s c).2 hc⟩

/-- The handle names a Context that is not Finalized. -/
theorem exists_open_context_of_not_applies (hbad : ¬ Condition.Applies s w .badHandle)
    (hfin : ¬ Condition.Applies s w .finalizedContext)
    (hd : decode w = .ok (.update c) ∨ decode w = .ok (.final c)) :
    ∃ sl, s.context c = some sl ∧ sl.st ≠ .finalized := by
  obtain ⟨sl, hc⟩ := exists_context_of_not_applies hbad (hd.imp_right .inl)
  exact ⟨sl, hc, fun hst => hfin ⟨c, hd, by rw [liveState_of_context hc, hst]⟩⟩

theorem exists_leastFree_of_not_applies (hno : ¬ Condition.Applies s w .noFreeSlot)
    (hd : decode w = .ok .init ∨ decode w = .ok .hash) : ∃ h, s.leastFree = some h :=
  Option.ne_none_iff_exists'.1 fun hl => hno ⟨hd, leastFree_eq_none.1 hl⟩

theorem badSource_of_not_applies (hsrc : ¬ Condition.Applies s w .badSource)
    (hd : (∃ c, decode w = .ok (.update c)) ∨ decode w = .ok .hash) : s.badSource = false :=
  (badSource_eq_false s).2 fun hb => hsrc ⟨hd, hb⟩

theorem badDestination_of_not_applies (hdst : ¬ Condition.Applies s w .badDestination)
    (hd : (∃ c, decode w = .ok (.final c)) ∨ decode w = .ok .hash) : s.badDestination = false :=
  (badDestination_eq_false s).2 fun hb => hdst ⟨hd, hb⟩

end

/-! ### HASH at its first check and at its last (R166) -/

section
variable {s : State} {h : Nat}

theorem execHash_allocationFailure (hf : s.faulted = false) (hl : s.leastFree = none) :
    exec .hash s = .next (s.finish .allocationFailure) := by
  simp [exec, execHash, unlessFaulted_of_not hf, hl, endWith]

/-- HASH with its checks passed reports OK, or is stuck at a byte that does not answer (R52, R53). -/
theorem execHash_ok_or_stuck (hf : s.faulted = false) (hl : s.leastFree = some h) (hb : s.badSource = false)
    (ho : s.lengthOverflows 0 = false) (hd : s.badDestination = false) :
    exec .hash s = .next (hashState h s) ∨ ∃ a, exec .hash s = .fault (.hostMemNotAdmitted a) := by
  have hne := (badSource_eq_false s).1 hb
  have hnd := (badDestination_eq_false s).1 hd
  rw [exec]
  rcases execHash_cases s with ⟨hf', -⟩ | ⟨-, ⟨hl', -⟩ | ⟨h', hl', ⟨hb', -⟩ | ⟨-, ho', -⟩ | ⟨-, -, hd', -⟩ |
    ⟨-, -, -, ⟨i, f, hi, hcheck, hu⟩ | ⟨-, ⟨i, f, hi, hcheck, hu⟩ | ⟨-, hu⟩⟩⟩⟩⟩
  · simp [hf] at hf'
  · simp [hl] at hl'
  · simp [hb] at hb'
  · simp [ho] at ho'
  · simp [hd] at hd'
  · obtain ⟨rfl, -⟩ := source_fault hne hi hcheck
    exact .inr ⟨_, hu⟩
  · obtain ⟨rfl, -⟩ := destination_fault hnd hi hcheck
    exact .inr ⟨_, hu⟩
  · obtain rfl : h = h' := by simpa [hl] using hl'
    exact .inl hu

end

/-! ### The run of a command word -/

section
variable {s : State} {w : Word} {k : Condition}

/-- A command word ends in the state that reports the first condition that applies to it (R208). -/
theorem execute_of_isFirst (hk : k.IsFirst s w) : execute w s = .next (k.report s) := by
  rcases eq_or_ne k .faulted with rfl | hne
  · exact execute_of_faulted w (faulted_eq_true.2 hk.1)
  have hf := hk.not_faulted hne
  obtain ⟨happ, hearlier⟩ := hk
  cases k with
  | faulted => exact absurd rfl hne
  | illegalWord =>
    obtain ⟨e, he⟩ := illegalWord_iff_decode_error.1 happ
    rw [execute_of_error he]
    exact unlessFaulted_of_not hf _
  | badHandle =>
    obtain ⟨c, hd | hd | hd, hlive⟩ := happ
    · rw [execute_of_ok hd]; exact exec_of_badHandle (.inl rfl) hf hlive
    · rw [execute_of_ok hd]; exact exec_of_badHandle (.inr (.inl rfl)) hf hlive
    · rw [execute_of_ok hd]; exact exec_of_badHandle (.inr (.inr rfl)) hf hlive
  | noFreeSlot =>
    obtain ⟨hd | hd, hall⟩ := happ
    · rw [execute_of_ok hd]; exact execInit_none hf (leastFree_eq_none.2 hall)
    · rw [execute_of_ok hd]; exact execHash_allocationFailure hf (leastFree_eq_none.2 hall)
  | finalizedContext =>
    obtain ⟨c, hd | hd, hlive⟩ := happ
    · rw [execute_of_ok hd]; exact exec_of_finalized (.inl rfl) hf hlive
    · rw [execute_of_ok hd]; exact exec_of_finalized (.inr rfl) hf hlive
  | badSource =>
    obtain ⟨⟨c, hd⟩ | hd, hrej⟩ := happ
    · obtain ⟨sl, hc, hst⟩ := exists_open_context_of_not_applies (hearlier .badHandle (by decide))
        (hearlier .finalizedContext (by decide)) (.inl hd)
      rw [execute_of_ok hd]
      exact execUpdate_badSource hf hc hst ((badSource_eq_true s).2 hrej)
    · obtain ⟨h, hl⟩ := exists_leastFree_of_not_applies (hearlier .noFreeSlot (by decide)) (.inr hd)
      rw [execute_of_ok hd]
      exact execHash_badSource hf hl ((badSource_eq_true s).2 hrej)
  | lengthOverflow =>
    have hsrc := badSource_of_not_applies (hearlier .badSource (by decide))
    obtain ⟨c, sl, hd, hsl, hover⟩ | ⟨hd, hover⟩ := happ
    · obtain ⟨sl', hc, hst⟩ := exists_open_context_of_not_applies (hearlier .badHandle (by decide))
        (hearlier .finalizedContext (by decide)) (.inl hd)
      obtain rfl : sl' = sl := Option.some.inj ((context_eq_some.1 hc).1.symm.trans hsl)
      rw [execute_of_ok hd]
      exact execUpdate_lengthOverflow hf hc hst (hsrc (.inl ⟨c, hd⟩)) ((lengthOverflows_eq_true s _).2 hover)
    · obtain ⟨h, hl⟩ := exists_leastFree_of_not_applies (hearlier .noFreeSlot (by decide)) (.inr hd)
      rw [execute_of_ok hd]
      exact execHash_lengthOverflow hf hl (hsrc (.inr hd)) ((lengthOverflows_eq_true s _).2 hover)
  | badDestination =>
    obtain ⟨⟨c, hd⟩ | hd, hrej⟩ := happ
    · obtain ⟨sl, hc, hst⟩ := exists_open_context_of_not_applies (hearlier .badHandle (by decide))
        (hearlier .finalizedContext (by decide)) (.inr hd)
      rw [execute_of_ok hd]
      exact execFinal_badDestination hf hc hst ((badDestination_eq_true s).2 hrej)
    · obtain ⟨h, hl⟩ := exists_leastFree_of_not_applies (hearlier .noFreeSlot (by decide)) (.inr hd)
      have hover : s.lengthOverflows 0 = false :=
        (lengthOverflows_eq_false s 0).2 fun ho => hearlier .lengthOverflow (by decide) (.inr ⟨hd, ho⟩)
      rw [execute_of_ok hd]
      exact execHash_badDestination hf hl (badSource_of_not_applies (hearlier .badSource (by decide)) (.inr hd)) hover
        ((badDestination_eq_true s).2 hrej)

/-- A word to which no condition applies is a command with every check passed: it reports OK, or is stuck at a byte of host
memory that does not answer. -/
theorem execute_of_none_applies (hnone : ∀ k : Condition, ¬ k.Applies s w) :
    (∃ t, execute w s = .next t ∧ codeField t.status = 0) ∨ ∃ a, execute w s = .fault (.hostMemNotAdmitted a) := by
  have hf : s.faulted = false := Bool.eq_false_iff.2 fun hf => hnone .faulted (faulted_eq_true.1 hf)
  have hover := hnone .lengthOverflow
  cases hd : decode w with
  | error e => exact absurd (illegalWord_iff_decode_error.2 ⟨e, hd⟩) (hnone .illegalWord)
  | ok i =>
    rw [execute_of_ok hd]
    cases i with
    | init =>
      obtain ⟨h, hl⟩ := exists_leastFree_of_not_applies (hnone .noFreeSlot) (.inl hd)
      exact .inl ⟨_, execInit_some hf hl, codeField_statusWord ..⟩
    | update c =>
      obtain ⟨sl, hc, hst⟩ := exists_open_context_of_not_applies (hnone .badHandle) (hnone .finalizedContext) (.inl hd)
      have hb := badSource_of_not_applies (hnone .badSource) (.inl ⟨c, hd⟩)
      have ho : s.lengthOverflows sl.bitlen.toNat = false :=
        (lengthOverflows_eq_false s _).2 fun ho => hover (.inl ⟨c, sl, hd, (context_eq_some.1 hc).1, ho⟩)
      by_cases ha : allAdmitted s.cfg s.src s.len
      · exact .inl ⟨_, execUpdate_ok hf hc hst hb ho ha, codeField_statusWord ..⟩
      · obtain ⟨i, -, hstuck⟩ := execUpdate_stuck hf hc hst hb ho ha
        exact .inr ⟨_, hstuck⟩
    | final c =>
      obtain ⟨sl, hc, hst⟩ := exists_open_context_of_not_applies (hnone .badHandle) (hnone .finalizedContext) (.inr hd)
      have hb := badDestination_of_not_applies (hnone .badDestination) (.inl ⟨c, hd⟩)
      by_cases ha : allAdmitted s.cfg s.dst 32
      · exact .inl ⟨_, execFinal_ok hf hc hst hb ha, (endedWith_finalState c s sl).code⟩
      · obtain ⟨i, -, hstuck⟩ := execFinal_stuck hf hc hst hb ha
        exact .inr ⟨_, hstuck⟩
    | free c =>
      obtain ⟨sl, hc⟩ := exists_context_of_not_applies (hnone .badHandle) (.inr (.inr hd))
      exact .inl ⟨_, execFree_ok hf hc, codeField_statusWord ..⟩
    | hash =>
      obtain ⟨h, hl⟩ := exists_leastFree_of_not_applies (hnone .noFreeSlot) (.inr hd)
      have ho : s.lengthOverflows 0 = false := (lengthOverflows_eq_false s 0).2 fun ho => hover (.inr ⟨hd, ho⟩)
      exact (execHash_ok_or_stuck hf hl (badSource_of_not_applies (hnone .badSource) (.inr hd)) ho
        (badDestination_of_not_applies (hnone .badDestination) (.inr hd))).imp_left
        fun hok => ⟨_, hok, Succeeded.code (i := .hash) (s := s) ⟨h, hl, rfl⟩⟩

end

/-- Settles O14: the word runs in the state without its own CMD write, to which the same conditions apply. -/
theorem firstConditionInOrderIsReported : Obligations.FirstConditionInOrderIsReported := by
  unfold Obligations.FirstConditionInOrderIsReported
  intro s w rest hs
  rw [step_cmd hs]
  refine ⟨fun earlier later k hsplit hearlier hk => ?_, fun hnone => ?_⟩
  · have hfirst := (Condition.isFirst_of_order_eq hsplit hearlier hk).hostOps rest
    exact ⟨_, execute_of_isFirst hfirst, k.codeField_report _, k.handleField_report _, hfirst.fcauseField_report,
      hfirst.faultedField_report, k.onlyStatusChanged_report _⟩
  · refine execute_of_none_applies fun k => (k.applies_hostOps s rest w).not.2 (hnone k ?_)
    cases k <;> decide

end Sys2Proof.Machine
end

section
/-! PROOF. The encoder against the decoder (30_encoding.md R71 to R76): a word decodes to a command exactly when it is the word of
that well-formed command, so that the legal words are the words of the 770 well-formed commands. -/

namespace Sys2Proof.Machine

/-! ### The encoder is the decoder's inverse -/

theorem decode_eq_hash_iff_word {w : Word} : decode w = .ok .hash ↔ w = 0x00000005 := by
  rw [decode_eq_hash_iff, show w &&& 0xFFFFFFFF = w from BitVec.and_allOnes]

/-- The sum that is the word of a command with a handle is its encoding. -/
theorem ofNat_word_iff_commandWord (opc : BitVec 4) {c : Nat} {w : Word} :
    (c < 256 ∧ w = BitVec.ofNat 32 (opc.toNat + 256 * c)) ↔
      decide (handleFits c) = true ∧ commandWord opc (BitVec.ofNat 8 c) = w := by
  rw [decide_eq_true_iff]
  exact and_congr_right fun hc => by rw [commandWord_ofNat opc hc, eq_comm]

/-- A word decodes to a command exactly when the command is well formed and the word is its own. -/
theorem decode_eq_ok_iff_encode {w : Word} {i : Instr} : decode w = .ok i ↔ i.wellFormed = true ∧ encode i = w := by
  cases i with
  | init => rw [decode_eq_init_iff_word, eq_comm]; simp [Instr.wellFormed, encode, commandWord]
  | update c => exact decode_eq_update_iff_word.trans (ofNat_word_iff_commandWord 2)
  | final c => exact decode_eq_final_iff_word.trans (ofNat_word_iff_commandWord 3)
  | free c => exact decode_eq_free_iff_word.trans (ofNat_word_iff_commandWord 4)
  | hash => rw [decode_eq_hash_iff_word, eq_comm]; simp [Instr.wellFormed, encode, commandWord]

/-- Settles O1: the word of a well-formed command is the one that decodes to it. -/
theorem decodeOfEncodeIsTheCommand : Obligations.DecodeOfEncodeIsTheCommand := by
  unfold Obligations.DecodeOfEncodeIsTheCommand
  exact fun i hi => decode_eq_ok_iff_encode.2 ⟨hi, rfl⟩

/-- Settles O2: the same equivalence in the other direction. -/
theorem encodeOfDecodeIsTheWord : Obligations.EncodeOfDecodeIsTheWord := by
  unfold Obligations.EncodeOfDecodeIsTheWord
  exact fun w i hd => decode_eq_ok_iff_encode.1 hd

/-! ### The legal words, counted (R75) -/

theorem encode_injOn_wellFormed {i j : Instr} (hi : i.wellFormed = true) (hj : j.wellFormed = true)
    (h : encode i = encode j) : i = j := by
  have hdi := decode_eq_ok_iff_encode.2 ⟨hi, h⟩
  have hdj := decode_eq_ok_iff_encode.2 ⟨hj, rfl⟩
  exact Except.ok.inj (hdi.symm.trans hdj)

/-- The commands of a row with CTX free, one for each handle. -/
def handleCommands (row : Nat → Instr) : List Instr := (List.range 256).map row

/-- The well-formed commands, row by row. -/
def legalCommands : List Instr :=
  [.init] ++ handleCommands .update ++ handleCommands .final ++ handleCommands .free ++ [.hash]

theorem mem_handleCommands {row : Nat → Instr} {i : Instr} : i ∈ handleCommands row ↔ ∃ c, c < 256 ∧ row c = i := by
  simp [handleCommands]

theorem mem_legalCommands {i : Instr} : i ∈ legalCommands ↔ i.wellFormed = true := by
  cases i <;> simp [legalCommands, mem_handleCommands, Instr.wellFormed]

theorem nodup_handleCommands {row : Nat → Instr} (hrow : Function.Injective row) : (handleCommands row).Nodup :=
  List.nodup_range.map hrow

theorem nodup_legalCommands : legalCommands.Nodup := by
  have hupdate := nodup_handleCommands (row := .update) fun _ _ => Instr.update.inj
  have hfinal := nodup_handleCommands (row := .final) fun _ _ => Instr.final.inj
  have hfree := nodup_handleCommands (row := .free) fun _ _ => Instr.free.inj
  simp [legalCommands, List.nodup_append, mem_handleCommands, or_imp, forall_and, hupdate, hfinal, hfree]

/-- The words of a list of well-formed commands are those that decode to one of them. -/
theorem mem_map_encode {l : List Instr} (hl : ∀ i ∈ l, i.wellFormed = true) {w : Word} :
    w ∈ l.map encode ↔ ∃ i ∈ l, decode w = .ok i := by
  rw [List.mem_map]
  exact exists_congr fun i => and_congr_right fun hi => by rw [decode_eq_ok_iff_encode, hl i hi]; simp

theorem mem_map_encode_handleCommands {row : Nat → Instr} (hrow : ∀ c, (row c).wellFormed = decide (handleFits c)) {w : Word} :
    w ∈ (handleCommands row).map encode ↔ ∃ c, decode w = .ok (row c) := by
  rw [mem_map_encode fun i hi => ?_]
  · constructor
    · rintro ⟨i, hi, hd⟩
      obtain ⟨c, -, rfl⟩ := mem_handleCommands.1 hi
      exact ⟨c, hd⟩
    · rintro ⟨c, hd⟩
      have hc : c < 256 := by simpa [hrow] using (decode_eq_ok_iff_encode.1 hd).1
      exact ⟨row c, mem_handleCommands.2 ⟨c, hc, rfl⟩, hd⟩
  · obtain ⟨c, hc, rfl⟩ := mem_handleCommands.1 hi
    rw [hrow]
    exact decide_eq_true hc

/-- A word is refused exactly when it is the word of no well-formed command. -/
theorem notMem_map_encode_legalCommands {w : Word} : w ∉ legalCommands.map encode ↔ ∃ e, decode w = .error e := by
  rw [mem_map_encode fun i => mem_legalCommands.1, exists_decode_error_iff]
  simp only [mem_legalCommands, not_exists, not_and]
  exact forall_congr' fun i => ⟨fun h hd => h (decode_eq_ok_iff_encode.1 hd).1 hd, fun h _ => h⟩

/-- Settles O4: the five lists are the words of the rows' commands; the encoder, which is injective, keeps them apart. -/
theorem legalWordsNumber770 : Obligations.LegalWordsNumber770 := by
  unfold Obligations.LegalWordsNumber770
  refine ⟨[Instr.init].map encode, (handleCommands .update).map encode, (handleCommands .final).map encode,
    (handleCommands .free).map encode, [Instr.hash].map encode, ?_⟩
  have hall : [Instr.init].map encode ++ (handleCommands .update).map encode ++ (handleCommands .final).map encode ++
      (handleCommands .free).map encode ++ [Instr.hash].map encode = legalCommands.map encode := by
    simp [legalCommands]
  rw [hall]
  refine ⟨rfl, ?_, ?_, ?_, rfl, ?_, ?_, fun w => ⟨?_, mem_map_encode_handleCommands fun _ => rfl,
    mem_map_encode_handleCommands fun _ => rfl, mem_map_encode_handleCommands fun _ => rfl, ?_,
    notMem_map_encode_legalCommands⟩⟩
  · simp [handleCommands]
  · simp [handleCommands]
  · simp [handleCommands]
  · exact nodup_legalCommands.map_on fun i hi j hj => encode_injOn_wellFormed (mem_legalCommands.1 hi) (mem_legalCommands.1 hj)
  · simp [legalCommands, handleCommands]
  · rw [mem_map_encode (by simp [Instr.wellFormed])]; simp
  · rw [mem_map_encode (by simp [Instr.wellFormed])]; simp

/-- Settles O6: the decoder run on each listed word. -/
theorem listedWordsDecode : Obligations.ListedWordsDecode := by
  unfold Obligations.ListedWordsDecode
  decide

end Sys2Proof.Machine
end

section
/-! PROOF. Single steps of the outside world: the CMD write of a command, the host's memory write, reset, the listings that are
sequences of such steps (30_encoding.md R76), and the state after reset (70_reset_and_hazards.md R231). -/

namespace Sys2Proof.Machine

/-! ### A CMD write of a legal word -/

section
variable {s : State} {w : Word} {i : Instr} {rest : List HostOp}

theorem step_cmd_of_decode (hs : s.hostOps = cmdWrite s.cfg w :: rest) (hd : decode w = .ok i) :
    step s = exec i { s with hostOps := rest } := by
  rw [step_cmd hs, execute_of_ok hd]

/-- `withFetchWord` puts the CMD write of its word in front. -/
theorem hostOps_withFetchWord (s : State) (w : Word) :
    (s.withFetchWord 32 w.toNat).hostOps = cmdWrite s.cfg w :: s.hostOps := by
  have hw : BitVec.ofNat 64 (w.toNat % 2 ^ 32) = w.setWidth 64 := by
    rw [Nat.mod_eq_of_lt w.isLt, BitVec.ofNat_toNat]
  rw [State.withFetchWord, hw, cmdWrite]

/-- Settles O7: the CMD write of a decoded word, whoever placed it, and the idle step. -/
theorem stepRunsTheDecodedCommand : Obligations.StepRunsTheDecodedCommand := by
  unfold Obligations.StepRunsTheDecodedCommand
  exact ⟨fun s w i rest hs hd => step_cmd_of_decode hs hd,
    fun s w i hd => step_cmd_of_decode (hostOps_withFetchWord s w) hd, fun s hs => step_idle hs⟩

/-! ### An access below the window (R59) -/

theorem windowReg_below {cfg : Config} {a : Nat} (h : a < cfg.mmioBase) (width : Nat) : windowReg cfg a width = none := by
  refine windowReg_eq_none ?_
  simp only [List.mem_cons, Prod.mk.injEq, List.not_mem_nil, or_false]
  omega

/-- Settles O45: no register stands below MMIO_BASE. -/
theorem accessBelowTheWindowHasNoStep : Obligations.AccessBelowTheWindowHasNoStep := by
  unfold Obligations.AccessBelowTheWindowHasNoStep
  exact fun s rest addr width v hlt hs => step_access_of_windowReg_none hs (windowReg_below hlt width)

/-! ### The host's write of a byte of host memory (R61) -/

theorem allAdmitted_one {cfg : Config} {a : Nat} : allAdmitted cfg a 1 ↔ checkAddress cfg a = .ok () := by
  rw [allAdmitted_succ, checkAddress_ok_iff]
  exact and_iff_left fun i hi => absurd hi (Nat.not_lt_zero i)

/-- The step of the host's memory write is the check of its address and the store. -/
theorem step_memWrite {a : Nat} {v : Byte} (hs : s.hostOps = .memWrite a v :: rest) :
    step s = match checkAddress s.cfg a with
      | .error f => .fault f
      | .ok _ => .next { s with hostOps := rest, mem := Memory.write s.mem a v } := by
  rw [step_cons hs, hostStep, hostMemWrite, memWrite]
  cases checkAddress s.cfg a <;> rfl

/-- Settles O9: the check is that of the one address, and the store writes one byte. -/
theorem hostMemoryWriteStoresOneByte : Obligations.HostMemoryWriteStoresOneByte := by
  unfold Obligations.HostMemoryWriteStoresOneByte
  intro s a v rest hs
  rw [step_memWrite hs, allAdmitted_one]
  cases hcheck : checkAddress s.cfg a with
  | error f => exact ⟨nofun, fun _ => ⟨f, rfl⟩⟩
  | ok u =>
    refine ⟨fun _ => ⟨_, rfl, rfl, fun b hb => Memory.read_write_other s.mem v (by omega), fun hm => ?_⟩, fun h => absurd rfl h⟩
    exact Memory.read_write_same hm a v

/-! ### Listings (R76) -/

/-- A run takes its first step off, on every machine. -/
theorem run_succ_of_next (M : Host.Core) {s t : M.State} (h : M.step s = .next t) (k : Nat) : M.run (k + 1) s = M.run k t := by
  rw [Host.Core.run, h]

theorem run_one (M : Host.Core) (s : M.State) : M.run 1 s = M.step s := by
  rw [Host.Core.run]
  cases M.step s <;> rfl

/-- The last write of a listing line runs its command. -/
theorem run_cmdWrite (hs : s.hostOps = cmdWrite s.cfg w :: rest) :
    Host.Core.run Sys2Proof.core 1 s = execute w { s with hostOps := rest } :=
  (run_one Sys2Proof.core s).trans (step_cmd hs)

theorem run_cmdWrite_encode (hs : s.hostOps = cmdWrite s.cfg (encode i) :: rest) (hi : i.wellFormed = true) :
    Host.Core.run Sys2Proof.core 1 s = exec i { s with hostOps := rest } := by
  rw [run_cmdWrite hs, execute_of_ok (decode_eq_ok_iff_encode.2 ⟨hi, rfl⟩)]

/-- The operand writes before it set their registers one after the other. -/
theorem run_srcAddrWrite {v : DWord} (hs : s.hostOps = srcAddrWrite s.cfg v :: rest) (k : Nat) :
    Host.Core.run Sys2Proof.core (k + 1) s = Host.Core.run Sys2Proof.core k { s with hostOps := rest, srcAddr := v } :=
  run_succ_of_next Sys2Proof.core (step_regWrite hs (windowReg_srcAddr _) nofun) k

theorem run_srcLenWrite {v : DWord} (hs : s.hostOps = srcLenWrite s.cfg v :: rest) (k : Nat) :
    Host.Core.run Sys2Proof.core (k + 1) s = Host.Core.run Sys2Proof.core k { s with hostOps := rest, srcLen := v } :=
  run_succ_of_next Sys2Proof.core (step_regWrite hs (windowReg_srcLen _) nofun) k

theorem run_dstAddrWrite {v : DWord} (hs : s.hostOps = dstAddrWrite s.cfg v :: rest) (k : Nat) :
    Host.Core.run Sys2Proof.core (k + 1) s = Host.Core.run Sys2Proof.core k { s with hostOps := rest, dstAddr := v } :=
  run_succ_of_next Sys2Proof.core (step_regWrite hs (windowReg_dstAddr _) nofun) k

end

/-- Settles O10: each line's operand writes, then its CMD write. -/
theorem listingLineRunsItsCommand : Obligations.ListingLineRunsItsCommand := by
  unfold Obligations.ListingLineRunsItsCommand
  intro s rest c src len dst w hc
  have hfits : decide (handleFits c) = true := decide_eq_true hc
  refine ⟨run_cmdWrite_encode rfl rfl, ?_, ?_, run_cmdWrite_encode rfl hfits, ?_, run_cmdWrite rfl⟩
  · exact (run_srcAddrWrite rfl 2).trans <| (run_srcLenWrite rfl 1).trans <|
      run_cmdWrite_encode (i := .update c) rfl hfits
  · exact (run_dstAddrWrite rfl 1).trans <| run_cmdWrite_encode (i := .final c) rfl hfits
  · exact (run_srcAddrWrite rfl 3).trans <| (run_srcLenWrite rfl 2).trans <| (run_dstAddrWrite rfl 1).trans <|
      run_cmdWrite_encode (i := .hash) rfl rfl

/-! ### Reset -/

/-- Settles O16: the reset event's own fields, and nothing else. -/
theorem resetEventFreesEverySlot : Obligations.ResetEventFreesEverySlot := by
  unfold Obligations.ResetEventFreesEverySlot
  refine fun s rest hs => ⟨_, step_reset hs, rfl, rfl, rfl, rfl, ?_, ?_, rfl⟩
  · simp
  · simp [Slot.reset]

/-- STATUS right after reset. -/
theorem statusLegal_zero : StatusLegal 0 := by
  constructor <;> decide

/-- A free slot is legal, whatever its other fields hold: the counts are those of a live Context. -/
theorem SlotLegal.of_free {sl : Slot} (h : sl.alloc = false) : SlotLegal sl := by
  constructor <;> simp [h]

theorem alloc_of_mem_resetOf {numCtx : Nat} {cfg : Config} {sl : Slot} (h : sl ∈ (State.resetOf numCtx cfg).slots) :
    sl.alloc = false := by
  rw [List.eq_of_mem_replicate h]; rfl

theorem numCtx_resetOf (numCtx : Nat) (cfg : Config) : (State.resetOf numCtx cfg).numCtx = numCtx :=
  List.length_replicate

/-- The state after reset on a legal platform meets the invariant of the machine. -/
theorem inv_resetOf {numCtx : Nat} {cfg : Config} (hpos : 1 ≤ numCtx) (hmax : numCtx ≤ 256) (hcfg : cfg.Legal) :
    (State.resetOf numCtx cfg).Inv where
  config := hcfg
  someSlot := by rwa [numCtx_resetOf]
  atMost256 := by rwa [numCtx_resetOf]
  status := statusLegal_zero
  handle := by rw [numCtx_resetOf]; exact hpos.trans_lt' (show (handleField 0).toNat < 1 by decide)
  memory := Memory.wf_resetOf numCtx cfg
  inMemory := nofun
  slots := fun _ hsl => .of_free (alloc_of_mem_resetOf hsl)

/-- No Context is live after reset. -/
theorem tracksMessages_resetOf (numCtx : Nat) (cfg : Config) : (State.resetOf numCtx cfg).TracksMessages :=
  fun _ hsl ha => by simp [alloc_of_mem_resetOf hsl] at ha

/-- Settles O17: the platform of `State.reset` is one of the legal ones. -/
theorem resetStateMeetsTheInvariants : Obligations.ResetStateMeetsTheInvariants := by
  unfold Obligations.ResetStateMeetsTheInvariants
  exact ⟨inv_resetOf (by decide) (by decide) (by decide), tracksMessages_resetOf _ _,
    fun numCtx cfg hpos hmax hcfg => ⟨inv_resetOf hpos hmax hcfg, tracksMessages_resetOf numCtx cfg, rfl, rfl, rfl, rfl,
      numCtx_resetOf numCtx cfg, fun _ => alloc_of_mem_resetOf⟩⟩

end Sys2Proof.Machine
end

section
/-! PROOF. The primitives and block functions (40_primitives.md R100 to R110; 41_block_functions.md R130, R131, R135, R136): the
bits of the mixing functions, the rounds one by one, PAD, and the constants as roots of primes. -/

namespace Sys2Proof.Machine

/-! ### Rotations and mixing functions, bit by bit (R100 to R108) -/

section
variable (x y z : Word) {i n : Nat}

/-- ROTR moves bit i + n, modulo 32, to bit i. -/
theorem getLsbD_rotr (hi : i < 32) (hn : n < 32) : (rotr x n).getLsbD i = x.getLsbD ((i + n) % 32) := by
  rcases Nat.eq_zero_or_pos n with rfl | hpos
  · simp [rotr, Nat.mod_eq_of_lt hi]
  · rw [rotr, if_neg (by omega), BitVec.getLsbD_or, BitVec.getLsbD_ushiftRight, BitVec.getLsbD_shiftLeft]
    by_cases hwrap : i + n < 32
    · simp [Nat.mod_eq_of_lt hwrap, show i < 32 - n by omega, Nat.add_comm n i]
    · have hmod : (i + n) % 32 = i - (32 - n) := by omega
      simp [hmod, hi, show ¬ i < 32 - n by omega, BitVec.getLsbD_of_ge x (n + i) (by omega)]

theorem toNat_shr : (shr x n).toNat = x.toNat / 2 ^ n := by
  rw [shr, BitVec.toNat_ushiftRight, Nat.shiftRight_eq_div_pow]

theorem getLsbD_shr : (shr x n).getLsbD i = x.getLsbD (i + n) := by
  rw [shr, BitVec.getLsbD_ushiftRight, Nat.add_comm]

/-- Ch selects by its first argument. -/
theorem getLsbD_ch (hi : i < 32) : (ch x y z).getLsbD i = if x.getLsbD i then y.getLsbD i else z.getLsbD i := by
  rw [ch, BitVec.getLsbD_xor, BitVec.getLsbD_and, BitVec.getLsbD_and, BitVec.getLsbD_not, decide_eq_true hi]
  cases x.getLsbD i <;> simp

/-- Maj is the value of at least two of its arguments. -/
theorem getLsbD_maj : (maj x y z).getLsbD i = true ↔
    2 ≤ (x.getLsbD i).toNat + (y.getLsbD i).toNat + (z.getLsbD i).toNat := by
  have hbits : ∀ a b c : Bool, (((a && b) ^^ (a && c)) ^^ (b && c)) = true ↔ 2 ≤ a.toNat + b.toNat + c.toNat := by decide
  rw [maj, BitVec.getLsbD_xor, BitVec.getLsbD_xor, BitVec.getLsbD_and, BitVec.getLsbD_and, BitVec.getLsbD_and]
  exact hbits _ _ _

end

/-- Settles O37: each mixing function is the exclusive or of rotations and shifts, whose bits are known. -/
theorem mixingFunctionsBitByBit : Obligations.MixingFunctionsBitByBit := by
  unfold Obligations.MixingFunctionsBitByBit
  intro x y z i hi
  have hrotr : ∀ n, n < 32 → (rotr x n).getLsbD i = x.getLsbD ((i + n) % 32) := fun n hn => getLsbD_rotr x hi hn
  refine ⟨hrotr, fun n _ => toNat_shr x, getLsbD_ch x y z hi, getLsbD_maj x y z, ?_, ?_, ?_, ?_⟩
  · simp only [bigSigma0, BitVec.getLsbD_xor, hrotr, Nat.reduceLT]
  · simp only [bigSigma1, BitVec.getLsbD_xor, hrotr, Nat.reduceLT]
  · simp only [smallSigma0, BitVec.getLsbD_xor, hrotr, getLsbD_shr, Nat.reduceLT]
  · simp only [smallSigma1, BitVec.getLsbD_xor, hrotr, getLsbD_shr, Nat.reduceLT]

/-! ### The rounds of COMPRESS (R135, R136) -/

/-- The rounds of two runs of words, one after the other. -/
theorem rounds_append {ks ws : List Word} (h : ks.length = ws.length) (ks' ws' : List Word) (v : WorkVars) :
    rounds (ks ++ ks') (ws ++ ws') v = rounds ks' ws' (rounds ks ws v) := by
  induction ks generalizing ws v with
  | nil => rw [List.length_eq_zero_iff.1 h.symm]; rfl
  | cons k ks ih =>
    cases ws with
    | nil => simp at h
    | cons w ws => exact ih (by simpa using h) (round k w v)

/-- The working variables after the first `t` rounds of COMPRESS. -/
def varsAfter (h : HashState) (b : Block) (t : Nat) : WorkVars :=
  rounds (roundConstants.take t) ((expand b).take t) (HashState.workVars h)

/-- The first t + 1 elements are the first t and the next one. -/
theorem take_succ_getD {l : List Word} {t : Nat} (ht : t < l.length) : l.take (t + 1) = l.take t ++ [l.getD t 0] := by
  rw [List.take_succ_eq_append_getElem ht, List.getD_eq_getElem _ _ ht]

theorem varsAfter_succ (h : HashState) (b : Block) {t : Nat} (ht : t < 64) :
    varsAfter h b (t + 1) = round (roundConstants.getD t 0) ((expand b).getD t 0) (varsAfter h b t) := by
  rw [varsAfter, take_succ_getD (by simpa using ht), take_succ_getD (by simpa using ht), rounds_append (by simp)]
  rfl

theorem compress_eq_addVars (h : HashState) (b : Block) : compress h b = HashState.addVars h (varsAfter h b 64) := by
  rw [varsAfter, List.take_of_length_le (by simp), List.take_of_length_le (by simp), compress]

/-- Settles O36: the working variables of the proof are those after the first `t` rounds. -/
theorem compressRunsSixtyFourRounds : Obligations.CompressRunsSixtyFourRounds := by
  unfold Obligations.CompressRunsSixtyFourRounds
  exact fun H b => ⟨varsAfter H b, rfl, fun t ht => varsAfter_succ H b ht, compress_eq_addVars H b⟩

/-! ### PAD (R130, R131) -/

/-- The number of zero bytes is the least that leaves 8 bytes to the end of a block. -/
theorem padZeros_isLeast {n : Nat} (hn : n < 64) :
    padZeros n ≤ 63 ∧ (n + 1 + padZeros n) % 64 = 56 ∧ ∀ z, (n + 1 + z) % 64 = 56 → padZeros n ≤ z := by
  unfold padZeros
  refine ⟨by omega, by omega, fun z hz => by omega⟩

/-- Settles O40: `padZeros` is least, and the closing blocks are filled exactly. -/
theorem paddingFillsTheClosingBlocks : Obligations.PaddingFillsTheClosingBlocks := by
  unfold Obligations.PaddingFillsTheClosingBlocks
  intro n l hn
  have hlen := length_buffered_add_pad hn l
  refine ⟨⟨padZeros n, rfl, padZeros_isLeast hn⟩, fun hle => ?_, fun hge => ?_⟩
  · have hone : closingBlocks n = 1 := if_pos hle
    exact ⟨hone, by rw [hlen, hone]⟩
  · have htwo : closingBlocks n = 2 := if_neg (by omega)
    exact ⟨htwo, by rw [hlen, htwo]⟩

/-! ### The constants (R109, R110) -/

/-- The first 64 primes. -/
def firstPrimes : List Nat :=
  [2, 3, 5, 7, 11, 13, 17, 19, 23, 29, 31, 37, 41, 43, 47, 53, 59, 61, 67, 71, 73, 79, 83, 89, 97, 101, 103, 107, 109, 113, 127,
   131, 137, 139, 149, 151, 157, 163, 167, 173, 179, 181, 191, 193, 197, 199, 211, 223, 227, 229, 233, 239, 241, 251, 257, 263,
   269, 271, 277, 281, 283, 293, 307, 311]

/-- Below the square of `b`, a number of 2 or more is prime when no number below `b` other than itself divides it. -/
theorem prime_iff_of_lt_sq {n b : Nat} (hn : n < b ^ 2) : n.Prime ↔ 2 ≤ n ∧ ∀ d ∈ List.range b, 2 ≤ d → d ∣ n → d = n := by
  constructor
  · exact fun hp => ⟨hp.two_le, fun d _ hd hdvd => ((Nat.dvd_prime hp).1 hdvd).resolve_left (by omega)⟩
  · rintro ⟨h2, hdvd⟩
    by_contra hnot
    have hsq := Nat.minFac_sq_le_self (by omega) hnot
    have hlt : n.minFac < b := lt_of_pow_lt_pow_left₀ 2 (Nat.zero_le b) (hsq.trans_lt hn)
    have hself := hdvd n.minFac (List.mem_range.2 hlt) (Nat.minFac_prime (by omega)).two_le (Nat.minFac_dvd n)
    exact hnot (hself ▸ Nat.minFac_prime (by omega))

theorem filter_prime_range : (List.range 312).filter (fun n => decide n.Prime) = firstPrimes := by
  have hprime : ∀ n ∈ List.range 312, decide n.Prime = decide (2 ≤ n ∧ ∀ d ∈ List.range 18, 2 ≤ d → d ∣ n → d = n) :=
    fun n hn => decide_eq_decide.2 (prime_iff_of_lt_sq ((List.mem_range.1 hn).trans (by decide)))
  rw [List.filter_congr hprime]
  decide +kernel

/-- What satisfies a predicate below `n`, listed in order, is the predicate's enumeration. -/
theorem nth_eq_getD_filter_range {p : Nat → Prop} [DecidablePred p] {n t : Nat}
    (ht : t < ((List.range n).filter p).length) : Nat.nth p t = ((List.range n).filter p).getD t 0 := by
  induction n with
  | zero => simp at ht
  | succ n ih =>
    have hcount : ((List.range n).filter p).length = Nat.count p n := (Nat.count_eq_card_filter_range p n).symm
    rw [List.range_succ, List.filter_append] at ht ⊢
    by_cases hlt : t < ((List.range n).filter p).length
    · rw [List.getD_append _ _ _ _ hlt, ih hlt]
    · by_cases hp : p n
      · have ht' : t = Nat.count p n := by simp [hp] at ht; omega
        rw [List.getD_append_right _ _ _ _ (by omega), ht', hcount, Nat.nth_count hp]
        simp [hp]
      · simp [hp] at ht hlt; omega

/-- The first primes in order. -/
theorem nth_prime_eq {t : Nat} (ht : t < 64) : Nat.nth Nat.Prime t = firstPrimes.getD t 0 := by
  rw [← filter_prime_range]
  exact nth_eq_getD_filter_range (by rwa [filter_prime_range])

/-- The whole part of the `e`-th root of `p`, a root of at most 32, with the word `w` as 32 further bits after it. -/
def rootWord (e p : Nat) (w : Word) : Nat := Nat.findGreatest (fun k => k ^ e ≤ p) 32 * 2 ^ 32 + w.toNat

theorem rootWord_mod (e p : Nat) (w : Word) : w.toNat = rootWord e p w % 2 ^ 32 := by
  have := w.isLt
  unfold rootWord; omega

/-- `r` is the `e`-th root of `x`, rounded down. -/
def IsFloorRoot (e x r : Nat) : Prop := r ^ e ≤ x ∧ x < (r + 1) ^ e

theorem isFloorRoot_roundConstants : ∀ t, t < 64 →
    IsFloorRoot 3 (firstPrimes.getD t 0 * 2 ^ 96) (rootWord 3 (firstPrimes.getD t 0) (roundConstants.getD t 0)) := by
  unfold IsFloorRoot
  decide +kernel

theorem isFloorRoot_iv : ∀ i, i < 8 →
    IsFloorRoot 2 (firstPrimes.getD i 0 * 2 ^ 64) (rootWord 2 (firstPrimes.getD i 0) ((HashState.words iv).getD i 0)) := by
  unfold IsFloorRoot
  decide +kernel

/-- Settles O39: the primes are listed, and each constant with the whole part of its root before it is that root rounded down. -/
theorem constantsAreRootsOfPrimes : Obligations.ConstantsAreRootsOfPrimes := by
  unfold Obligations.ConstantsAreRootsOfPrimes
  refine ⟨length_roundConstants, fun t ht => ?_, fun i hi => ?_⟩
  · rw [nth_prime_eq ht]
    obtain ⟨hle, hlt⟩ := isFloorRoot_roundConstants t ht
    exact ⟨_, hle, hlt, rootWord_mod ..⟩
  · rw [nth_prime_eq (by omega)]
    obtain ⟨hle, hlt⟩ := isFloorRoot_iv i hi
    exact ⟨_, hle, hlt, rootWord_mod ..⟩

end Sys2Proof.Machine
end

section
/-! PROOF. What a command changes: at most one slot, and which one; where it stops; and HASH whole (42_context_commands.md R160 to
R168). -/

namespace Sys2Proof.Machine

section
variable {i : Instr} {s t : State} {c : Nat}

/-! ### The checks a command that reports OK has passed -/

/-- The checks on operands and addresses that stand before a command's effect (R163, R164, R166). -/
def ChecksPassed (s : State) : Instr → Prop
  | .init | .free _ => True
  | .update c => s.badSource = false ∧ (∀ sl, s.context c = some sl → s.lengthOverflows sl.bitlen.toNat = false) ∧
      allAdmitted s.cfg s.src s.len
  | .final _ => s.badDestination = false ∧ allAdmitted s.cfg s.dst 32
  | .hash => s.badSource = false ∧ s.lengthOverflows 0 = false ∧ s.badDestination = false ∧
      allAdmitted s.cfg s.src s.len ∧ allAdmitted s.cfg s.dst 32

theorem not_faulted_of_ok (he : exec i s = .next t) (hok : codeField t.status = 0) : s.faulted = false := by
  refine Bool.eq_false_iff.2 fun hf => ?_
  rw [exec_of_faulted i hf] at he
  cases he
  simp [codeBits] at hok

theorem checksPassed_of_ok (he : exec i s = .next t) (hok : codeField t.status = 0) : ChecksPassed s i := by
  have hf := not_faulted_of_ok he hok
  have hsucc := succeeded_of_ok he hok
  cases i with
  | init | free c => trivial
  | update c =>
    obtain ⟨sl, hc, hst, -⟩ := hsucc
    rcases execUpdate_next_cases hf hc hst he with ⟨-, rfl⟩ | ⟨-, -, rfl⟩ | ⟨hb, ho, ha, -⟩
    · simp [codeBits] at hok
    · simp [codeBits] at hok
    · exact ⟨hb, fun sl' hc' => by rwa [← Option.some.inj (hc.symm.trans hc')], ha⟩
  | final c =>
    obtain ⟨sl, hc, hst, -⟩ := hsucc
    rcases execFinal_next_cases hf hc hst he with ⟨-, rfl⟩ | ⟨hb, ha, -⟩
    · simp [codeBits] at hok
    · exact ⟨hb, ha⟩
  | hash =>
    rcases execHash_cases s with ⟨-, hu⟩ | ⟨-, ⟨-, hu⟩ | ⟨h, -, ⟨-, hu⟩ | ⟨-, -, hu⟩ | ⟨-, -, -, hu⟩ |
      ⟨hb, ho, hd, ⟨_, _, -, -, hu⟩ | ⟨ha, ⟨_, _, -, -, hu⟩ | ⟨hw, hu⟩⟩⟩⟩⟩ <;> rw [exec, hu] at he <;> cases he
    on_goal 6 => exact ⟨hb, ho, hd, ha, hw⟩
    all_goals simp [codeBits] at hok

/-! ### The slot a command rewrites -/

/-- The successful command `i` in the state `s` turns the slot `c` from `old` into `new`. -/
def SlotChange (s : State) (c : Nat) (old new : Slot) : Instr → Prop
  | .init => old.alloc = false ∧ new = freshContext true
  | .update d => d = c ∧ old.alloc = true ∧ old.st ≠ .finalized ∧ ¬ TotalOverflows s old.bitlen.toNat ∧ new = updatedSlot s old
  | .final d => d = c ∧ old.alloc = true ∧ old.st ≠ .finalized ∧ new = { finalize old with st := .finalized }
  | .free d => d = c ∧ old.alloc = true ∧ new = unspecifiedSlot s.freeCount
  | .hash => old.alloc = false ∧ new = unspecifiedSlot s.freeCount

/-- A command that reports OK rewrites one slot. -/
theorem exec_slots_of_ok (he : exec i s = .next t) (hok : codeField t.status = 0) :
    ∃ c old new, s.slots[c]? = some old ∧ t.slots = s.slots.set c new ∧ SlotChange s c old new i := by
  have hsucc := succeeded_of_ok he hok
  cases i with
  | init =>
    obtain ⟨c, hl, rfl⟩ := hsucc
    obtain ⟨⟨old, hold, hfree⟩, -⟩ := leastFree_eq_some.1 hl
    exact ⟨c, old, _, hold, rfl, hfree, rfl⟩
  | update c =>
    obtain ⟨-, ho, -⟩ := checksPassed_of_ok he hok
    obtain ⟨old, hc, hst, rfl⟩ := hsucc
    obtain ⟨hold, ha⟩ := context_eq_some.1 hc
    exact ⟨c, old, _, hold, rfl, rfl, ha, hst, (lengthOverflows_eq_false s _).1 (ho old hc), rfl⟩
  | final c =>
    obtain ⟨old, hc, hst, rfl⟩ := hsucc
    obtain ⟨hold, ha⟩ := context_eq_some.1 hc
    exact ⟨c, old, _, hold, finalState_slots c s old, rfl, ha, hst, rfl⟩
  | free c =>
    obtain ⟨old, hc, rfl⟩ := hsucc
    obtain ⟨hold, ha⟩ := context_eq_some.1 hc
    exact ⟨c, old, _, hold, rfl, rfl, ha, rfl⟩
  | hash =>
    obtain ⟨c, hl, rfl⟩ := hsucc
    obtain ⟨⟨old, hold, hfree⟩, -⟩ := leastFree_eq_some.1 hl
    exact ⟨c, old, _, hold, hashState_slots c s, hfree, rfl⟩

/-- All that a command can do to the slots: nothing where it fails, one slot where it reports OK. -/
theorem exec_slots (he : exec i s = .next t) :
    (codeField t.status ≠ 0 ∧ t.slots = s.slots) ∨
    (codeField t.status = 0 ∧ ∃ c old new, s.slots[c]? = some old ∧ t.slots = s.slots.set c new ∧ SlotChange s c old new i) := by
  by_cases hok : codeField t.status = 0
  · exact .inr ⟨hok, exec_slots_of_ok he hok⟩
  · exact .inl ⟨hok, congrArg (·.slots) (onlyStatusChanged_of_not_ok he hok)⟩

/-- A command with a handle rewrites the slot it names. -/
theorem SlotChange.eq_handle {d : Nat} {old new : Slot} (h : SlotChange s c old new i)
    (hi : i = .update d ∨ i = .final d ∨ i = .free d) : d = c := by
  rcases hi with rfl | rfl | rfl
  · exact h.1
  · exact h.1
  · exact h.1

/-- INIT and HASH rewrite a free slot. -/
theorem SlotChange.old_free {old new : Slot} (h : SlotChange s c old new i) (hi : i = .init ∨ i = .hash) : old.alloc = false := by
  rcases hi with rfl | rfl
  · exact h.1
  · exact h.1

/-- Only FREE rewrites the slot of a Finalized Context. -/
theorem SlotChange.eq_free {old new : Slot} (h : SlotChange s c old new i) (ha : old.alloc = true) (hst : old.st = .finalized) :
    i = .free c := by
  cases i with
  | init | hash => simp [h.old_free] at ha
  | update d | final d => obtain ⟨-, -, hopen, -⟩ := h; exact absurd hst hopen
  | free d => rw [h.1]

/-! ### What no command changes (R26 to R28) -/

theorem exec_keeps_other_slots (he : exec i s = .next t) {d : Nat} (hi : i = .update c ∨ i = .final c ∨ i = .free c)
    (hd : d ≠ c) : t.slots[d]? = s.slots[d]? := by
  rcases exec_slots he with ⟨-, hslots⟩ | ⟨-, c', old, new, -, hslots, hchange⟩
  · rw [hslots]
  · rw [hslots, List.getElem?_set_ne (hchange.eq_handle hi ▸ hd.symm)]

theorem exec_keeps_live_slots (he : exec i s = .next t) {d : Nat} {sl : Slot} (hi : i = .init ∨ i = .hash)
    (hsl : s.slots[d]? = some sl) (ha : sl.alloc = true) : t.slots[d]? = some sl := by
  rcases exec_slots he with ⟨-, hslots⟩ | ⟨-, c, old, new, hold, hslots, hchange⟩
  · rw [hslots, hsl]
  · have hne : c ≠ d := by
      rintro rfl
      obtain rfl := Option.some.inj (hold.symm.trans hsl)
      simp [hchange.old_free hi] at ha
    rw [hslots, List.getElem?_set_ne hne, hsl]

/-- Settles O25: the registers no command writes, and the one slot a command rewrites. -/
theorem commandsKeepOperandsAndOtherSlots : Obligations.CommandsKeepOperandsAndOtherSlots := by
  unfold Obligations.CommandsKeepOperandsAndOtherSlots
  intro i s t he
  obtain ⟨hsrc, hlen, hdst, hcfg, hops, hread, hslots⟩ := exec_keeps he
  exact ⟨hsrc, hlen, hdst, hcfg, hops, hread, hslots, fun c hi d hd => exec_keeps_other_slots he hi hd,
    fun hi d sl hsl ha => exec_keeps_live_slots he hi hsl ha⟩

/-! ### A Finalized Context (R168) -/

/-- A command other than FREE of its handle leaves the slot of a Finalized Context. -/
theorem exec_keeps_finalized {sl : Slot} (he : exec i s = .next t) (hsl : s.slots[c]? = some sl) (ha : sl.alloc = true)
    (hst : sl.st = .finalized) (hi : i ≠ .free c) : t.slots[c]? = some sl := by
  rcases exec_slots he with ⟨-, hslots⟩ | ⟨-, d, old, new, hold, hslots, hchange⟩
  · rw [hslots, hsl]
  · have hne : d ≠ c := by
      rintro rfl
      obtain rfl := Option.some.inj (hold.symm.trans hsl)
      exact hi (hchange.eq_free ha hst)
    rw [hslots, List.getElem?_set_ne hne, hsl]

/-- A command word other than FREE of its handle leaves it too. -/
theorem execute_keeps_finalized {w : Word} {sl : Slot} (he : execute w s = .next t) (hsl : s.slots[c]? = some sl)
    (ha : sl.alloc = true) (hst : sl.st = .finalized) (hw : decode w ≠ .ok (.free c)) : t.slots[c]? = some sl := by
  cases hd : decode w with
  | ok i =>
    rw [execute_of_ok hd] at he
    exact exec_keeps_finalized he hsl ha hst fun hi => hw (hi ▸ hd)
  | error e =>
    rw [execute_of_error hd] at he
    rcases execIllegal_cases s with ⟨-, hu⟩ | ⟨-, hu⟩ <;> rw [hu] at he <;> cases he <;> exact hsl

/-- Short of reset, a step that is no FREE of its handle leaves the slot of a Finalized Context. -/
theorem step_keeps_finalized {sl : Slot} (hstep : step s = .next t) (hsl : s.slots[c]? = some sl) (ha : sl.alloc = true)
    (hst : sl.st = .finalized) (hreset : s.hostOps.head? ≠ some .reset)
    (hfree : ∀ v, s.hostOps.head? = some (.regWrite s.cfg.mmioBase 32 v) → decode (v.setWidth 32) ≠ .ok (.free c)) :
    t.slots[c]? = some sl := by
  rcases step_cases hstep with ⟨-, rfl⟩ | ⟨op, rest, hs, ⟨v, rfl, he⟩ | ⟨v, rfl, rfl⟩ | ⟨v, rfl, rfl⟩ | ⟨v, rfl, rfl⟩ |
    ⟨v, rfl, rfl⟩ | ⟨a, w, v, rfl, rfl⟩ | ⟨a, v, rfl, -, rfl⟩ | ⟨rfl, -⟩⟩
  · exact hsl
  · exact execute_keeps_finalized he hsl ha hst (hfree v (by rw [hs]; rfl))
  on_goal 7 => simp [hs] at hreset
  all_goals exact hsl

/-- Settles O24: the refusals of UPDATE and FINAL, and the steps that could rewrite the slot. -/
theorem finalizedContextIsTerminal : Obligations.FinalizedContextIsTerminal := by
  unfold Obligations.FinalizedContextIsTerminal
  intro s c sl hsl ha hst
  have hlive : liveState s c = some .finalized := by rw [liveState_of_context (context_eq_some.2 ⟨hsl, ha⟩), hst]
  exact ⟨fun hf i hi => ends_of_finish (exec_of_finalized hi (faulted_eq_false.2 hf) hlive),
    fun t hstep hreset hfree => step_keeps_finalized hstep hsl ha hst hreset hfree⟩

/-! ### Where a command stops (R52, R53) -/

/-- A command completes, or stops at an address of its own range that is a byte of host memory and is not admitted. -/
theorem exec_completes_or_stops (i : Instr) (s : State) :
    (∃ t, exec i s = .next t) ∨
    ∃ a, exec i s = .fault (.hostMemNotAdmitted a) ∧ a < s.cfg.memSize ∧ admits s.cfg a = false ∧
      ((((∃ c, i = .update c) ∨ i = .hash) ∧ s.src ≤ a ∧ a < s.src + s.len) ∨
       (((∃ c, i = .final c) ∨ i = .hash) ∧ s.dst ≤ a ∧ a < s.dst + 32)) := by
  cases i with
  | init => rcases execInit_cases s with ⟨-, hu⟩ | ⟨-, -, hu⟩ | ⟨-, _, -, hu⟩ <;> exact .inl ⟨_, hu⟩
  | update c =>
    rcases execUpdate_cases c s with ⟨-, hu⟩ | ⟨-, ⟨-, hu⟩ | ⟨_, -, ⟨-, hu⟩ | ⟨-, -, hu⟩ | ⟨-, -, -, hu⟩ |
      ⟨-, hb, -, ⟨j, f, hj, hcheck, hu⟩ | ⟨-, hu⟩⟩⟩⟩
    on_goal 6 =>
      obtain ⟨rfl, hlt, hadm⟩ := source_fault ((badSource_eq_false s).1 hb) hj hcheck
      exact .inr ⟨_, hu, hlt, hadm, .inl ⟨.inl ⟨c, rfl⟩, by omega, by omega⟩⟩
    all_goals exact .inl ⟨_, hu⟩
  | final c =>
    rcases execFinal_cases c s with ⟨-, hu⟩ | ⟨-, ⟨-, hu⟩ | ⟨_, -, ⟨-, hu⟩ | ⟨-, -, hu⟩ |
      ⟨-, hb, ⟨j, f, hj, hcheck, hu⟩ | ⟨-, hu⟩⟩⟩⟩
    on_goal 5 =>
      obtain ⟨rfl, hlt, hadm⟩ := destination_fault ((badDestination_eq_false s).1 hb) hj hcheck
      exact .inr ⟨_, hu, hlt, hadm, .inr ⟨.inl ⟨c, rfl⟩, by omega, by omega⟩⟩
    all_goals exact .inl ⟨_, hu⟩
  | free c => rcases execFree_cases c s with ⟨-, hu⟩ | ⟨-, -, hu⟩ | ⟨-, _, -, hu⟩ <;> exact .inl ⟨_, hu⟩
  | hash =>
    rcases execHash_cases s with ⟨-, hu⟩ | ⟨-, ⟨-, hu⟩ | ⟨_, -, ⟨-, hu⟩ | ⟨-, -, hu⟩ | ⟨-, -, -, hu⟩ |
      ⟨hb, -, hd, ⟨j, f, hj, hcheck, hu⟩ | ⟨-, ⟨j, f, hj, hcheck, hu⟩ | ⟨-, hu⟩⟩⟩⟩⟩
    on_goal 6 =>
      obtain ⟨rfl, hlt, hadm⟩ := source_fault ((badSource_eq_false s).1 hb) hj hcheck
      exact .inr ⟨_, hu, hlt, hadm, .inl ⟨.inr rfl, by omega, by omega⟩⟩
    on_goal 6 =>
      obtain ⟨rfl, hlt, hadm⟩ := destination_fault ((badDestination_eq_false s).1 hd) hj hcheck
      exact .inr ⟨_, hu, hlt, hadm, .inr ⟨.inr rfl, by omega, by omega⟩⟩
    all_goals exact .inl ⟨_, hu⟩

/-- Settles O26: each command's stops, with its range check passed. -/
theorem commandsStopOnlyAtUnadmittedAddresses : Obligations.CommandsStopOnlyAtUnadmittedAddresses := by
  unfold Obligations.CommandsStopOnlyAtUnadmittedAddresses
  exact exec_completes_or_stops

/-! ### HASH whole (R166) -/

/-- HASH is stuck where a source or a destination byte does not answer. -/
theorem execHash_stuck {h : Nat} (hf : s.faulted = false) (hl : s.leastFree = some h) (hb : s.badSource = false)
    (ho : s.lengthOverflows 0 = false) (hd : s.badDestination = false)
    (ha : ¬ (allAdmitted s.cfg s.src s.len ∧ allAdmitted s.cfg s.dst 32)) :
    ∃ a, exec .hash s = .fault (.hostMemNotAdmitted a) ∧
      ((s.src ≤ a ∧ a < s.src + s.len) ∨ (s.dst ≤ a ∧ a < s.dst + 32)) := by
  rcases execHash_ok_or_stuck hf hl hb ho hd with hu | ⟨a, hu⟩
  · obtain ⟨-, -, -, hadm⟩ := checksPassed_of_ok hu (Succeeded.code (i := .hash) ⟨h, hl, rfl⟩)
    exact absurd hadm ha
  · rcases exec_completes_or_stops .hash s with ⟨t, hu'⟩ | ⟨a', hu', -, -, hrange⟩
    · simp [hu] at hu'
    · exact ⟨a', hu', hrange.imp And.right And.right⟩

theorem endedWith_hashState (h : Nat) (s : State) : EndedWith s (hashState h s) (codeBits .ok) 0 :=
  endedWith_finish (by simp) .ok 0

/-- Short of the overflow the source is a message SHA256 is defined for (R140, R205). -/
theorem source_short (ho : s.lengthOverflows 0 = false) : 8 * (bytesAt s.mem s.src s.len).length < 2 ^ 64 := by
  have hnot := (lengthOverflows_eq_false s 0).1 ho
  unfold TotalOverflows at hnot
  rw [length_bytesAt, State.len]
  omega

/-- SHA256 of the source, as it stood before, stands at DST_ADDR. -/
theorem bytesAt_hashState (hm : Memory.wf s.mem = true) (ho : s.lengthOverflows 0 = false) (h : Nat) :
    bytesAt (hashState h s).mem s.dst 32 = sha256 (bytesAt s.mem s.src s.len) := by
  rw [hashState_mem, ← serialize_hashedContext _ (source_short ho)]
  exact Memory.bytesAt_writeAll hm s.dst (serialize _)

theorem sameOutside_hashState (h : Nat) (s : State) : sameOutside s.mem (hashState h s).mem s.dst 32 := by
  rw [hashState_mem]
  exact Memory.read_writeAll_outside s.mem s.dst (serialize _)

/-- Settles O22: the checks one by one, and the memory and the slots of the successful HASH. -/
theorem hashWritesTheDigestOfItsSource : Obligations.HashWritesTheDigestOfItsSource := by
  unfold Obligations.HashWritesTheDigestOfItsSource
  refine ⟨fun w => decode_eq_hash_iff_word, fun s hf => ?_⟩
  have hf' : s.faulted = false := faulted_eq_false.2 hf
  refine ⟨fun hall => ends_of_finish (execHash_allocationFailure hf' (leastFree_eq_none.2 hall)), fun h hh => ?_⟩
  have hl : s.leastFree = some h := leastFree_eq_some.2 hh
  have hsrc := (badSource_eq_false s).2
  have hlen := (lengthOverflows_eq_false s 0).2
  have hdst := (badDestination_eq_false s).2
  refine ⟨fun hb => ends_of_finish (execHash_badSource hf' hl ((badSource_eq_true s).2 hb)), fun hb ho => ?_,
    fun hb ho hd => ?_, fun hb ho hd hadm => execHash_stuck hf' hl (hsrc hb) (hlen ho) (hdst hd) hadm,
    fun hb ho hd ha hw => ?_⟩
  · exact raisedFault_of_raiseFault hf (execHash_lengthOverflow hf' hl (hsrc hb) ((lengthOverflows_eq_true s 0).2 ho))
  · exact ends_of_finish (execHash_badDestination hf' hl (hsrc hb) (hlen ho) ((badDestination_eq_true s).2 hd))
  · have hok := execHash_ok hf' hl (hsrc hb) (hlen ho) (hdst hd) ha hw
    exact ⟨_, hok, endedWith_hashState h s, fun hm => bytesAt_hashState hm (hlen ho) h, sameOutside_hashState h s,
      (hash_keeps_alloc hok).1, fun c hc => by rw [hashState_slots, List.getElem?_set_ne hc.symm], hashState_eq h s⟩

end

end Sys2Proof.Machine
end

section
/-! PROOF. The message of a Context (10_state.md R39; 41_block_functions.md R140): UPDATE appends to it, FINAL writes its digest,
and no other step of the machine changes it. -/

namespace Sys2Proof.Machine

section
variable {i : Instr} {s t : State} {c : Nat} {sl : Slot} {m : List Byte}

theorem reportsOk_iff : s.reportsOk = true ↔ codeField s.status = 0 := by
  simp [State.reportsOk, codeBits]

/-! ### UPDATE appends, FINAL writes the digest -/

/-- The slot a successful UPDATE leaves stands for the message with the source bytes appended. -/
theorem Slot.Holds.updatedSlot (h : sl.Holds m) (ho : ¬ TotalOverflows s sl.bitlen.toNat) :
    (updatedSlot s sl).Holds (m ++ bytesAt s.mem s.src s.len) := by
  have hshort : 8 * (m ++ bytesAt s.mem s.src s.len).length < 2 ^ 64 := by
    unfold TotalOverflows at ho
    rw [List.length_append, length_bytesAt, State.len]
    have hbits := h.bitlen
    omega
  have hholds := absorbAll_holds h hshort .accumulating
  rw [length_bytesAt] at hholds
  exact hholds

/-- An UPDATE that reports OK keeps its Context live, appends the source to its message, and leaves host memory. -/
theorem exec_update_extends (hsl : s.slots[c]? = some sl) (hm : sl.Holds m) (he : exec (.update c) s = .next t)
    (hok : codeField t.status = 0) :
    ∃ sl', t.slots[c]? = some sl' ∧ sl'.alloc = true ∧ sl'.Holds (m ++ bytesAt s.mem s.src s.len) ∧ t.mem = s.mem := by
  obtain ⟨-, ho, -⟩ := checksPassed_of_ok he hok
  obtain ⟨old, hc, -, rfl⟩ := succeeded_of_ok he hok
  obtain ⟨hold, ha⟩ := context_eq_some.1 hc
  obtain rfl := Option.some.inj (hsl.symm.trans hold)
  refine ⟨updatedSlot s sl, ?_, by rw [updatedSlot_alloc, ha], hm.updatedSlot ((lengthOverflows_eq_false s _).1 (ho sl hc)), rfl⟩
  rw [finish_slots, setSlot_slots, List.getElem?_set_self (lt_length_of_context hc)]

/-- A FINAL that reports OK writes the digest of its Context's message. -/
theorem exec_final_digest (hsl : s.slots[c]? = some sl) (hm : sl.Holds m) (hwf : Memory.wf s.mem = true)
    (he : exec (.final c) s = .next t) (hok : codeField t.status = 0) : bytesAt t.mem s.dst 32 = sha256 m := by
  obtain ⟨old, hc, -, rfl⟩ := succeeded_of_ok he hok
  obtain rfl := Option.some.inj (hsl.symm.trans (context_eq_some.1 hc).1)
  rw [bytesAt_finalState hwf, serialize_finalize hm]

/-- Settles O31: the slot of the successful UPDATE. -/
theorem updateExtendsTheMessage : Obligations.UpdateExtendsTheMessage := by
  unfold Obligations.UpdateExtendsTheMessage
  intro s c sl m hsl _ hm t he hok
  obtain ⟨sl', hsl', -, hm', -⟩ := exec_update_extends hsl hm he hok
  exact ⟨sl', hsl', hm'⟩

/-- Settles O32: FINAL with its checks passed reports OK, and so has written the digest. -/
theorem finalWritesSha256OfTheMessage : Obligations.FinalWritesSha256OfTheMessage := by
  unfold Obligations.FinalWritesSha256OfTheMessage
  intro s c sl m hf hsl ha hst hm hwf hd hadm
  have he : exec (.final c) s = .next (finalState c s sl) :=
    execFinal_ok (faulted_eq_false.2 hf) (context_eq_some.2 ⟨hsl, ha⟩) hst ((badDestination_eq_false s).2 hd) hadm
  have hok := (endedWith_finalState c s sl).code
  exact ⟨_, he, hok, exec_final_digest hsl hm hwf he hok⟩

/-! ### A message fed in chunks (R140) -/

/-- A feed that goes through is a successful UPDATE of the first chunk and a feed of the rest. -/
theorem feed_cons {src len : DWord} {rest : List (DWord × DWord)} (h : feed c ((src, len) :: rest) s = some t) :
    ∃ u, exec (.update c) { s with srcAddr := src, srcLen := len } = .next u ∧ codeField u.status = 0 ∧
      feed c rest u = some t := by
  rw [feed] at h
  split at h
  · next u hu =>
    split at h
    · next hok => exact ⟨u, hu, reportsOk_iff.1 hok, h⟩
    · cases h
  · cases h
  · cases h

/-- A feed appends the bytes of its chunks, and reads them all from one memory. -/
theorem feed_holds {chunks : List (DWord × DWord)} (hsl : s.slots[c]? = some sl) (hm : sl.Holds m)
    (hfeed : feed c chunks s = some t) :
    ∃ sl', t.slots[c]? = some sl' ∧ sl'.Holds (m ++ chunkBytes s.mem chunks) ∧ t.mem = s.mem := by
  induction chunks generalizing s sl m with
  | nil =>
    obtain rfl := Option.some.inj hfeed
    exact ⟨sl, hsl, by simpa [chunkBytes] using hm, rfl⟩
  | cons chunk rest ih =>
    obtain ⟨src, len⟩ := chunk
    obtain ⟨u, hu, hok, hrest⟩ := feed_cons hfeed
    obtain ⟨sl', hsl', -, hm', hmem⟩ := exec_update_extends (s := { s with srcAddr := src, srcLen := len }) hsl hm hu hok
    obtain ⟨sl'', hsl'', hm'', hmem'⟩ := ih hsl' hm' hrest
    refine ⟨sl'', hsl'', ?_, hmem'.trans hmem⟩
    rw [hmem] at hm''
    simpa [chunkBytes, State.src, State.len] using hm''

/-- Settles O33: INIT's slot stands for no bytes, the feed appends the chunks, and FINAL writes the digest, as HASH does. -/
theorem everyChunkingGivesTheSameDigest : Obligations.EveryChunkingGivesTheSameDigest := by
  unfold Obligations.EveryChunkingGivesTheSameDigest
  refine ⟨fun s s₁ s₂ s₃ h chunks dst hwf hh hinit hok₁ hfeed hfinal hok₃ => ?_, fun s t hwf he hok => ?_⟩
  · obtain ⟨-, hl, rfl⟩ := eq_initState_of_ok hinit (reportsOk_iff.1 hok₁) hh
    obtain ⟨hslot, -⟩ := context_eq_some.1 (initState_context hl)
    obtain ⟨sl, hsl, hm, hmem⟩ := feed_holds hslot (freshContext_holds true) hfeed
    have hwf₂ : Memory.wf s₂.mem = true := by rw [hmem]; exact hwf
    exact exec_final_digest (s := { s₂ with dstAddr := dst }) hsl hm hwf₂ hfinal (reportsOk_iff.1 hok₃)
  · obtain ⟨-, ho, -⟩ := checksPassed_of_ok he (reportsOk_iff.1 hok)
    obtain ⟨h, -, rfl⟩ := succeeded_of_ok he (reportsOk_iff.1 hok)
    exact bytesAt_hashState hwf ho h

/-! ### The bytes each Context has absorbed, over one step (R39) -/

variable {absorbed : Nat → List Byte}

/-- A step that leaves the slots, and runs no UPDATE that reports OK, leaves every Context's bytes. -/
theorem State.HoldsMessages.of_slots_eq (h : s.HoldsMessages absorbed) (hslots : t.slots = s.slots)
    (hno : ∀ c, s.nextCommand = some (.update c) → t.reportsOk = false) : t.HoldsMessages (absorbedAfter s t absorbed) := by
  intro c sl hsl ha hst
  rw [hslots] at hsl
  rw [absorbedAfter_of_other (liveState_of_context (context_eq_some.2 ⟨hsl, ha⟩)) (hno c)]
  exact h c sl hsl ha hst

/-- The slot a successful command rewrites stands for its bytes, where it is left live and not Finalized. -/
theorem SlotChange.holds {old new : Slot} (hchange : SlotChange s c old new i) (hold : s.slots[c]? = some old)
    (hcmd : s.nextCommand = some i) (hok : t.reportsOk = true) (ha : new.alloc = true) (hst : new.st ≠ .finalized)
    (h : old.alloc = true → old.st ≠ .finalized → old.Holds (absorbed c)) : new.Holds (absorbedAfter s t absorbed c) := by
  cases i with
  | init =>
    obtain ⟨hfree, rfl⟩ := hchange
    rw [absorbedAfter_of_not_live ((liveState_eq_none s c).2 (context_eq_none.2 (.inr ⟨old, hold, hfree⟩)))]
    exact freshContext_holds true
  | update d =>
    obtain ⟨rfl, hlive, hopen, ho, rfl⟩ := hchange
    rw [absorbedAfter_of_update (liveState_of_context (context_eq_some.2 ⟨hold, hlive⟩)) hcmd hok]
    exact (h hlive hopen).updatedSlot ho
  | final d => obtain ⟨-, -, -, rfl⟩ := hchange; exact absurd rfl hst
  | free d => obtain ⟨-, -, rfl⟩ := hchange; simp at ha
  | hash => obtain ⟨-, rfl⟩ := hchange; simp at ha

/-- A command keeps it that each Context stands for its bytes. -/
theorem exec_holdsMessages {rest : List HostOp} (h : s.HoldsMessages absorbed) (hcmd : s.nextCommand = some i)
    (he : exec i { s with hostOps := rest } = .next t) : t.HoldsMessages (absorbedAfter s t absorbed) := by
  rcases exec_slots he with ⟨hfail, hslots⟩ | ⟨hok, d, old, new, hold, hslots, hchange⟩
  · exact h.of_slots_eq hslots fun _ _ => Bool.eq_false_iff.2 fun hok => hfail (reportsOk_iff.1 hok)
  · intro c sl hsl ha hst
    rw [hslots] at hsl
    by_cases hcd : d = c
    · subst hcd
      obtain ⟨hlt, -⟩ := List.getElem?_eq_some_iff.1 hold
      rw [List.getElem?_set_self hlt] at hsl
      obtain rfl := Option.some.inj hsl
      exact SlotChange.holds (s := s) hchange hold hcmd (reportsOk_iff.2 hok) ha hst (h d old hold)
    · rw [List.getElem?_set_ne hcd] at hsl
      have hother : s.nextCommand = some (.update c) → t.reportsOk = false := fun hupd =>
        absurd (hchange.eq_handle (.inl (Option.some.inj (hcmd.symm.trans hupd)))).symm hcd
      have hlive : liveState s c = some sl.st := liveState_of_context (context_eq_some.2 ⟨hsl, ha⟩)
      rw [absorbedAfter_of_other hlive hother]
      exact h c sl hsl ha hst

/-- A next action that is no access to CMD's address runs no command. -/
theorem nextCommand_eq_none {op : HostOp} {rest : List HostOp} (hs : s.hostOps = op :: rest)
    (hop : ∀ v, op ≠ .regWrite s.cfg.mmioBase 32 v) : s.nextCommand = none := by
  cases op with
  | regWrite addr width v =>
    have hne : ¬ (addr = s.cfg.mmioBase ∧ width = 32) := by rintro ⟨rfl, rfl⟩; exact hop v rfl
    simp [State.nextCommand, hs, hne]
  | regRead addr width | memWrite a v | reset => simp [State.nextCommand, hs]

/-- Every step keeps it. -/
theorem step_holdsMessages (h : s.HoldsMessages absorbed) (hstep : step s = .next t) :
    t.HoldsMessages (absorbedAfter s t absorbed) := by
  rcases step_cases hstep with ⟨hs, rfl⟩ | ⟨op, rest, hs, hop⟩
  · exact h.of_slots_eq rfl fun c hc => by simp [State.nextCommand, hs] at hc
  by_cases hcmd : ∃ v, op = .regWrite s.cfg.mmioBase 32 v
  · obtain ⟨v, rfl⟩ := hcmd
    have he : execute (v.setWidth 32) { s with hostOps := rest } = .next t := by
      rwa [step_cons hs, hostStep, hostRegWrite, windowReg_cmd] at hstep
    cases hd : decode (v.setWidth 32) with
    | ok i => rw [execute_of_ok hd] at he; exact exec_holdsMessages h (nextCommand_cmd hs hd) he
    | error e =>
      rw [execute_of_error hd] at he
      rcases execIllegal_cases { s with hostOps := rest } with ⟨-, hu⟩ | ⟨-, hu⟩ <;> rw [hu] at he <;> cases he <;>
        exact h.of_slots_eq rfl fun _ _ => by simp [State.reportsOk, codeBits]
  · have hnone := nextCommand_eq_none hs fun v hv => hcmd ⟨v, hv⟩
    have hno : ∀ c, s.nextCommand = some (.update c) → t.reportsOk = false := fun c hc => by simp [hnone] at hc
    rcases hop with ⟨v, hv, -⟩ | ⟨v, -, rfl⟩ | ⟨v, -, rfl⟩ | ⟨v, -, rfl⟩ | ⟨v, -, rfl⟩ | ⟨a, w, v, -, rfl⟩ | ⟨a, v, -, -, rfl⟩ |
      ⟨-, rfl⟩
    · exact absurd ⟨v, hv⟩ hcmd
    on_goal 7 =>
      intro c sl hsl ha
      rw [resetBlock_slots, List.getElem?_map] at hsl
      obtain ⟨_, -, rfl⟩ := Option.map_eq_some_iff.1 hsl
      cases ha
    all_goals exact h.of_slots_eq rfl hno

/-- Where each live Context stands for some message, the messages are those of one assignment. -/
theorem State.TracksMessages.exists_holdsMessages (h : s.TracksMessages) : ∃ absorbed, s.HoldsMessages absorbed := by
  have hslot : ∀ c : Nat, ∃ m, ∀ sl : Slot, s.slots[c]? = some sl → sl.alloc = true → sl.st ≠ .finalized → sl.Holds m := by
    intro c
    by_cases hopen : ∃ sl, s.slots[c]? = some sl ∧ sl.alloc = true ∧ sl.st ≠ .finalized
    · obtain ⟨sl, hsl, ha, hst⟩ := hopen
      obtain ⟨m, hm⟩ := h sl (List.mem_of_getElem? hsl) ha hst
      exact ⟨m, fun sl' hsl' _ _ => Option.some.inj (hsl.symm.trans hsl') ▸ hm⟩
    · exact ⟨[], fun sl hsl ha hst => absurd ⟨sl, hsl, ha, hst⟩ hopen⟩
  choose absorbed habsorbed using hslot
  exact ⟨absorbed, habsorbed⟩

end

/-- Settles O44: the one slot a command rewrites, and the steps that rewrite none. -/
theorem everyStepKeepsTheAbsorbedBytes : Obligations.EveryStepKeepsTheAbsorbedBytes := by
  unfold Obligations.EveryStepKeepsTheAbsorbedBytes
  exact fun s t absorbed h hstep => step_holdsMessages h hstep

/-- Settles O30: the messages there are before the step, followed over it. -/
theorem everyStepKeepsTheMessages : Obligations.EveryStepKeepsTheMessages := by
  unfold Obligations.EveryStepKeepsTheMessages
  intro s t h hstep
  obtain ⟨absorbed, habsorbed⟩ := h.exists_holdsMessages
  exact (step_holdsMessages habsorbed hstep).tracks

end Sys2Proof.Machine
end

section
/-! PROOF. Two runs of one command. Where every check of a command reads alike in two states, it ends alike in both: that is the
one case analysis of this part. From it follow that nothing depends on a byte outside the source (42_context_commands.md R169;
20_memory.md R58), and that nothing the spec leaves unspecified is observed (10_state.md R41). -/

namespace Sys2Proof.Machine

/-! ### A command with its checks passed, up to the addresses that do not answer -/

section
variable {s : State} {c h : Nat} {sl : Slot}

theorem execUpdate_checked (hf : s.faulted = false) (hc : s.context c = some sl) (hst : sl.st ≠ .finalized)
    (hb : s.badSource = false) (ho : s.lengthOverflows sl.bitlen.toNat = false) :
    exec (.update c) s = match checkRange s.cfg s.src s.len with
      | .error f => .fault f
      | .ok _ => .next ((s.setSlot c (updatedSlot s sl)).finish .ok) := by
  simp only [exec, execUpdate, unlessFaulted_of_not hf, hc, hst, hb, ho, readBytes_eq]
  cases checkRange s.cfg s.src s.len <;> rfl

theorem execFinal_checked (hf : s.faulted = false) (hc : s.context c = some sl) (hst : sl.st ≠ .finalized)
    (hb : s.badDestination = false) :
    exec (.final c) s = match checkRange s.cfg s.dst 32 with
      | .error f => .fault f
      | .ok _ => .next (finalState c s sl) := by
  simp only [exec, execFinal, unlessFaulted_of_not hf, hc, hst, hb, writeBytes_eq, length_serialize]
  cases checkRange s.cfg s.dst 32 <;> rfl

theorem execHash_checked (hf : s.faulted = false) (hl : s.leastFree = some h) (hb : s.badSource = false)
    (ho : s.lengthOverflows 0 = false) (hd : s.badDestination = false) :
    exec .hash s = match checkRange s.cfg s.src s.len with
      | .error f => .fault f
      | .ok _ => match checkRange s.cfg s.dst 32 with
        | .error f => .fault f
        | .ok _ => .next (hashState h s) := by
  simp only [exec, execHash, unlessFaulted_of_not hf, hl, hb, ho, hd, readBytes_eq]
  cases checkRange s.cfg s.src s.len with
  | error f => rfl
  | ok u =>
    simp only [Except.map, writeBytes_eq, length_serialize]
    cases checkRange s.cfg s.dst 32 <;> rfl

end

/-! ### States in which every check reads alike -/

/-- All that the checks of the commands read is the same in both states. -/
structure SameChecks (s s' : State) : Prop where
  status : s.status = s'.status
  srcAddr : s.srcAddr = s'.srcAddr
  srcLen : s.srcLen = s'.srcLen
  dstAddr : s.dstAddr = s'.dstAddr
  cfg : s.cfg = s'.cfg
  leastFree : s.leastFree = s'.leastFree
  context : ∀ c, (s.context c = none ∧ s'.context c = none) ∨
    ∃ sl sl', s.context c = some sl ∧ s'.context c = some sl' ∧ sl.st = sl'.st ∧ sl.bitlen = sl'.bitlen

section
variable {s s' : State}

theorem SameChecks.faulted (h : SameChecks s s') : s.faulted = s'.faulted := by rw [State.faulted, State.faulted, h.status]
theorem SameChecks.src (h : SameChecks s s') : s.src = s'.src := by rw [State.src, State.src, h.srcAddr]
theorem SameChecks.len (h : SameChecks s s') : s.len = s'.len := by rw [State.len, State.len, h.srcLen]
theorem SameChecks.dst (h : SameChecks s s') : s.dst = s'.dst := by rw [State.dst, State.dst, h.dstAddr]
theorem SameChecks.badSource (h : SameChecks s s') : s.badSource = s'.badSource := by
  rw [State.badSource, State.badSource, h.src, h.len, h.cfg]
theorem SameChecks.badDestination (h : SameChecks s s') : s.badDestination = s'.badDestination := by
  rw [State.badDestination, State.badDestination, h.dst, h.cfg]
theorem SameChecks.lengthOverflows (h : SameChecks s s') (bits : Nat) : s.lengthOverflows bits = s'.lengthOverflows bits := by
  rw [State.lengthOverflows, State.lengthOverflows, h.len]

/-- The command ends alike in both states: with one code, with one raised fault, stuck with one fault, or with its effect. -/
inductive EndsAlike (i : Instr) (s s' : State) : Prop where
  | finish (code : StatusCode) (h : exec i s = .next (s.finish code)) (h' : exec i s' = .next (s'.finish code))
  | raiseFault (cause : FaultCause) (h : exec i s = .next (s.raiseFault cause)) (h' : exec i s' = .next (s'.raiseFault cause))
  | stuck (f : Fault) (h : exec i s = .fault f) (h' : exec i s' = .fault f)
  | success (t t' : State) (h : exec i s = .next t) (h' : exec i s' = .next t') (hs : Succeeded s t i) (hs' : Succeeded s' t' i)

section
variable {c : Nat} (h : SameChecks s s') (hf : s.faulted = false) (hf' : s'.faulted = false)
include h hf hf'

theorem execInit_endsAlike : EndsAlike .init s s' := by
  have hl' := h.leastFree
  cases hl : s.leastFree with
  | none => exact .finish _ (execInit_none hf hl) (execInit_none hf' (hl' ▸ hl))
  | some c => exact .success _ _ (execInit_some hf hl) (execInit_some hf' (hl' ▸ hl)) ⟨c, hl, rfl⟩ ⟨c, hl' ▸ hl, rfl⟩

theorem execUpdate_endsAlike : EndsAlike (.update c) s s' := by
  rcases h.context c with ⟨hc, hc'⟩ | ⟨sl, sl', hc, hc', hst', hbits⟩
  · exact .raiseFault _ (execUpdate_badHandle hf hc) (execUpdate_badHandle hf' hc')
  by_cases hst : sl.st = .finalized
  · exact .finish _ (execUpdate_finalized hf hc hst) (execUpdate_finalized hf' hc' (hst' ▸ hst))
  have hopen' : sl'.st ≠ .finalized := hst' ▸ hst
  cases hb : s.badSource with
  | true => exact .finish _ (execUpdate_badSource hf hc hst hb) (execUpdate_badSource hf' hc' hopen' (h.badSource ▸ hb))
  | false =>
    have hb' := h.badSource ▸ hb
    have ho' : s'.lengthOverflows sl'.bitlen.toNat = s.lengthOverflows sl.bitlen.toNat := by rw [h.lengthOverflows, hbits]
    cases ho : s.lengthOverflows sl.bitlen.toNat with
    | true =>
      exact .raiseFault _ (execUpdate_lengthOverflow hf hc hst hb ho)
        (execUpdate_lengthOverflow hf' hc' hopen' hb' (ho'.trans ho))
    | false =>
      have hu := execUpdate_checked hf hc hst hb ho
      have hu' := execUpdate_checked hf' hc' hopen' hb' (ho'.trans ho)
      rw [← h.cfg, ← h.src, ← h.len] at hu'
      cases hr : checkRange s.cfg s.src s.len with
      | error f => rw [hr] at hu hu'; exact .stuck f hu hu'
      | ok u => rw [hr] at hu hu'; exact .success _ _ hu hu' ⟨sl, hc, hst, rfl⟩ ⟨sl', hc', hopen', rfl⟩

theorem execFinal_endsAlike : EndsAlike (.final c) s s' := by
  rcases h.context c with ⟨hc, hc'⟩ | ⟨sl, sl', hc, hc', hst', -⟩
  · exact .raiseFault _ (execFinal_badHandle hf hc) (execFinal_badHandle hf' hc')
  by_cases hst : sl.st = .finalized
  · exact .finish _ (execFinal_finalized hf hc hst) (execFinal_finalized hf' hc' (hst' ▸ hst))
  have hopen' : sl'.st ≠ .finalized := hst' ▸ hst
  have hd' := h.badDestination
  cases hd : s.badDestination with
  | true => exact .finish _ (execFinal_badDestination hf hc hst hd) (execFinal_badDestination hf' hc' hopen' (hd' ▸ hd))
  | false =>
    have hu := execFinal_checked hf hc hst hd
    have hu' := execFinal_checked hf' hc' hopen' (hd' ▸ hd)
    rw [← h.cfg, ← h.dst] at hu'
    cases hr : checkRange s.cfg s.dst 32 with
    | error f => rw [hr] at hu hu'; exact .stuck f hu hu'
    | ok u => rw [hr] at hu hu'; exact .success _ _ hu hu' ⟨sl, hc, hst, rfl⟩ ⟨sl', hc', hopen', rfl⟩

theorem execFree_endsAlike : EndsAlike (.free c) s s' := by
  rcases h.context c with ⟨hc, hc'⟩ | ⟨sl, sl', hc, hc', -⟩
  · exact .raiseFault _ (execFree_badHandle hf hc) (execFree_badHandle hf' hc')
  · exact .success _ _ (execFree_ok hf hc) (execFree_ok hf' hc') ⟨sl, hc, rfl⟩ ⟨sl', hc', rfl⟩

theorem execHash_endsAlike : EndsAlike .hash s s' := by
  have hl' := h.leastFree
  cases hl : s.leastFree with
  | none => exact .finish _ (execHash_allocationFailure hf hl) (execHash_allocationFailure hf' (hl' ▸ hl))
  | some c =>
    have hl' : s'.leastFree = some c := hl' ▸ hl
    cases hb : s.badSource with
    | true => exact .finish _ (execHash_badSource hf hl hb) (execHash_badSource hf' hl' (h.badSource ▸ hb))
    | false =>
      have hb' := h.badSource ▸ hb
      have ho' := h.lengthOverflows 0
      cases ho : s.lengthOverflows 0 with
      | true => exact .raiseFault _ (execHash_lengthOverflow hf hl hb ho) (execHash_lengthOverflow hf' hl' hb' (ho' ▸ ho))
      | false =>
        have hd' := h.badDestination
        cases hd : s.badDestination with
        | true =>
          exact .finish _ (execHash_badDestination hf hl hb ho hd)
            (execHash_badDestination hf' hl' hb' (ho' ▸ ho) (hd' ▸ hd))
        | false =>
          have hu := execHash_checked hf hl hb ho hd
          have hu' := execHash_checked hf' hl' hb' (ho' ▸ ho) (hd' ▸ hd)
          rw [← h.cfg, ← h.src, ← h.len, ← h.dst] at hu'
          cases hr : checkRange s.cfg s.src s.len with
          | error f => rw [hr] at hu hu'; exact .stuck f hu hu'
          | ok u =>
            cases hw : checkRange s.cfg s.dst 32 with
            | error f => rw [hr, hw] at hu hu'; exact .stuck f hu hu'
            | ok u => rw [hr, hw] at hu hu'; exact .success _ _ hu hu' ⟨c, hl, rfl⟩ ⟨c, hl', rfl⟩

end

/-- Where every check reads alike, every command ends alike. -/
theorem exec_endsAlike (h : SameChecks s s') (i : Instr) : EndsAlike i s s' := by
  cases hf : s.faulted with
  | true => exact .finish .fault (exec_of_faulted i hf) (exec_of_faulted i (h.faulted ▸ hf))
  | false =>
    have hf' : s'.faulted = false := h.faulted ▸ hf
    cases i with
    | init => exact execInit_endsAlike h hf hf'
    | update c => exact execUpdate_endsAlike h hf hf'
    | final c => exact execFinal_endsAlike h hf hf'
    | free c => exact execFree_endsAlike h hf hf'
    | hash => exact execHash_endsAlike h hf hf'

end

/-! ### Two host memories -/

section
variable {s t t' : State} {m : Memory}

/-- No check looks at a byte of host memory. -/
theorem sameChecks_setMem (s : State) (m : Memory) : SameChecks s { s with mem := m } := by
  refine ⟨rfl, rfl, rfl, rfl, rfl, rfl, fun c => ?_⟩
  cases hc : s.context c with
  | none => exact .inl ⟨rfl, hc⟩
  | some sl => exact .inr ⟨sl, sl, rfl, hc, rfl, rfl⟩

/-- Every byte that a command has made of the two memories `m` and `m'`: left as it was in both, or written with one value. -/
def KeptOrWrittenAlike (m m' after after' : Memory) : Prop :=
  ∀ b, (Memory.read after b = Memory.read m b ∧ Memory.read after' b = Memory.read m' b) ∨
    Memory.read after' b = Memory.read after b

theorem keptOrWrittenAlike_refl (m m' : Memory) : KeptOrWrittenAlike m m' m m' := fun _ => .inl ⟨rfl, rfl⟩

/-- A byte of a stored range, in canonical memory. -/
theorem Memory.read_writeAll_inside (hm : Memory.wf m = true) {a i : Nat} {bytes : List Byte} (hi : i < bytes.length) :
    Memory.read (Memory.writeAll a bytes m) (a + i) = bytes[i] := by
  have hread := List.getElem_of_eq (Memory.bytesAt_writeAll hm a bytes) (by simpa using hi)
  rw [← hread]
  simp [bytesAt]

theorem keptOrWrittenAlike_writeAll {m' : Memory} (hm : Memory.wf m = true) (hm' : Memory.wf m' = true) (a : Nat)
    (bytes : List Byte) : KeptOrWrittenAlike m m' (Memory.writeAll a bytes m) (Memory.writeAll a bytes m') := by
  intro b
  by_cases hb : b < a ∨ a + bytes.length ≤ b
  · exact .inl ⟨Memory.read_writeAll_outside m a bytes b hb, Memory.read_writeAll_outside m' a bytes b hb⟩
  · obtain ⟨i, rfl⟩ := Nat.exists_eq_add_of_le (show a ≤ b by omega)
    have hi : i < bytes.length := by omega
    exact .inr (by rw [Memory.read_writeAll_inside hm hi, Memory.read_writeAll_inside hm' hi])

/-! The memory of a command's last state is seen in that field alone. -/

theorem setMem_setSlot_finish (s : State) (m m' : Memory) (c : Nat) (sl : Slot) :
    (State.setSlot { s with mem := m } c sl).finish .ok = { (State.setSlot { s with mem := m' } c sl).finish .ok with mem := m } :=
  rfl

theorem finalState_setMem (c : Nat) (s : State) (m : Memory) (sl : Slot) : finalState c { s with mem := m } sl =
    { finalState c s sl with mem := Memory.writeAll s.dst (serialize (finalize sl).h) m } :=
  setMem_setSlot_finish s _ _ c _

theorem setMem_releaseSlot_finish (s : State) (m m' : Memory) (c : Nat) :
    (State.releaseSlot { s with mem := m } c).finish .ok = { (State.releaseSlot { s with mem := m' } c).finish .ok with mem := m } :=
  rfl

theorem hashState_setMem (c : Nat) (s : State) (m : Memory) (hsrc : bytesAt m s.src s.len = bytesAt s.mem s.src s.len) :
    hashState c { s with mem := m } =
      { hashState c s with
        mem := Memory.writeAll s.dst (serialize (hashedContext (bytesAt s.mem s.src s.len)).h) m } := by
  rw [← hsrc]
  exact setMem_releaseSlot_finish s _ _ c

/-- A successful command has one effect in both states, but for the bytes it leaves. -/
theorem Succeeded.setMem {i : Instr} (hs : Succeeded s t i) (hs' : Succeeded { s with mem := m } t' i)
    (hm : Memory.wf s.mem = true) (hm' : Memory.wf m = true)
    (hsrc : (∃ c, i = .update c) ∨ i = .hash → bytesAt m s.src s.len = bytesAt s.mem s.src s.len) :
    ∃ after, t' = { t with mem := after } ∧ KeptOrWrittenAlike s.mem m t.mem after := by
  cases i with
  | init =>
    obtain ⟨c, hl, rfl⟩ := hs
    obtain ⟨c', hl', rfl⟩ := hs'
    obtain rfl := Option.some.inj (hl.symm.trans hl')
    exact ⟨m, rfl, keptOrWrittenAlike_refl _ _⟩
  | update c =>
    obtain ⟨sl, hc, -, rfl⟩ := hs
    obtain ⟨sl', hc', -, rfl⟩ := hs'
    obtain rfl := Option.some.inj (hc.symm.trans hc')
    have hslot : updatedSlot { s with mem := m } sl = updatedSlot s sl := by
      have hbytes := hsrc (.inl ⟨c, rfl⟩)
      unfold updatedSlot
      rw [← hbytes]; rfl
    exact ⟨m, by rw [hslot]; rfl, keptOrWrittenAlike_refl _ _⟩
  | final c =>
    obtain ⟨sl, hc, -, rfl⟩ := hs
    obtain ⟨sl', hc', -, rfl⟩ := hs'
    obtain rfl := Option.some.inj (hc.symm.trans hc')
    rw [finalState_mem]
    exact ⟨_, finalState_setMem c s m sl, keptOrWrittenAlike_writeAll hm hm' _ _⟩
  | free c =>
    obtain ⟨sl, hc, rfl⟩ := hs
    obtain ⟨sl', hc', rfl⟩ := hs'
    exact ⟨m, rfl, keptOrWrittenAlike_refl _ _⟩
  | hash =>
    obtain ⟨c, hl, rfl⟩ := hs
    obtain ⟨c', hl', rfl⟩ := hs'
    obtain rfl := Option.some.inj (hl.symm.trans hl')
    rw [hashState_mem]
    exact ⟨_, hashState_setMem c s m (hsrc (.inr rfl)), keptOrWrittenAlike_writeAll hm hm' _ _⟩

end

/-- Settles O27: no check looks at host memory, and the effect looks at the source alone. -/
theorem resultDependsOnlyOnTheSourceBytes : Obligations.ResultDependsOnlyOnTheSourceBytes := by
  unfold Obligations.ResultDependsOnlyOnTheSourceBytes
  intro i s m hm hm' hsrc
  cases exec_endsAlike (sameChecks_setMem s m) i with
  | finish code h h' =>
    refine ⟨fun f => by simp [h, h'], fun t ht => ⟨m, ?_, ?_⟩⟩ <;> (rw [h] at ht; cases ht)
    · exact h'
    · exact keptOrWrittenAlike_refl s.mem m
  | raiseFault cause h h' =>
    refine ⟨fun f => by simp [h, h'], fun t ht => ⟨m, ?_, ?_⟩⟩ <;> (rw [h] at ht; cases ht)
    · exact h'
    · exact keptOrWrittenAlike_refl s.mem m
  | stuck f h h' => exact ⟨fun g => by rw [h, h'], fun t ht => by simp [h] at ht⟩
  | success t t' h h' hs hs' =>
    refine ⟨fun f => by simp [h, h'], fun u hu => ?_⟩
    rw [h] at hu; cases hu
    obtain ⟨after, rfl, hafter⟩ := hs.setMem hs' hm hm' hsrc
    exact ⟨after, h', hafter⟩

/-! ### Two states the host cannot tell apart -/

/-- Lists related element by element have related elements at every index. -/
theorem forall₂_getElem? {α β : Type} {R : α → β → Prop} {l : List α} {l' : List β} (h : List.Forall₂ R l l') (n : Nat) :
    (l[n]? = none ∧ l'[n]? = none) ∨ ∃ a b, l[n]? = some a ∧ l'[n]? = some b ∧ R a b := by
  induction h generalizing n with
  | nil => exact .inl ⟨rfl, rfl⟩
  | @cons a b _ _ hab _ ih =>
    cases n with
    | zero => exact .inr ⟨a, b, rfl, rfl, hab⟩
    | succ n => simpa using ih n

theorem forall₂_set {α β : Type} {R : α → β → Prop} {l : List α} {l' : List β} (h : List.Forall₂ R l l') {a : α} {b : β}
    (hab : R a b) (n : Nat) : List.Forall₂ R (l.set n a) (l'.set n b) := by
  induction h generalizing n with
  | nil => exact .nil
  | cons h _ ih =>
    cases n with
    | zero => exact .cons hab ‹_›
    | succ n => exact .cons h (ih n)

/-! What the slot procedures make of two slots that agree in all that a rule reads. -/

theorem Slot.SameContext.refl (a : Slot) : a.SameContext a :=
  ⟨rfl, fun _ => rfl, fun _ => rfl, fun _ => rfl, fun _ => rfl, fun _ => rfl⟩

/-- Free slots agree, whatever they hold. -/
theorem Slot.SameContext.of_free {a b : Slot} (ha : a.alloc = false) (hb : b.alloc = false) : a.SameContext b := by
  constructor <;> simp [ha, hb]

section
variable {a b : Slot} {s s' : State}

/-- UPDATE reads the buffered bytes, the counts and H alone. -/
theorem Slot.SameContext.updatedSlot (h : a.SameContext b) (ha : a.alloc = true)
    (hbytes : bytesAt s.mem s.src s.len = bytesAt s'.mem s'.src s'.len) (hlen : s.len = s'.len) :
    (updatedSlot s a).SameContext (updatedSlot s' b) := by
  obtain ⟨abcnt, ah, abuf⟩ := updatedSlot_absorbed s a
  obtain ⟨bbcnt, bh, bbuf⟩ := updatedSlot_absorbed s' b
  rw [← hbytes, ← h.bcnt ha] at bbcnt
  rw [← hbytes, ← h.buffered ha, ← h.bcnt ha, ← h.h ha] at bh
  rw [← hbytes, ← h.buffered ha, ← h.bcnt ha] at bbuf
  refine ⟨?_, fun _ => rfl, fun _ => ah.trans bh.symm, fun _ => BitVec.eq_of_toNat_eq (abcnt.trans bbcnt.symm), fun _ => ?_,
    fun _ => abuf.trans bbuf.symm⟩
  · rw [updatedSlot_alloc, updatedSlot_alloc, h.alloc]
  · rw [updatedSlot_bitlen, updatedSlot_bitlen, h.bitlen ha, hlen]

/-- FINALIZE reads the buffered bytes, the counts and H alone. -/
theorem Slot.SameContext.finalize_h (h : a.SameContext b) (ha : a.alloc = true) : (finalize a).h = (finalize b).h := by
  rw [Machine.finalize_h, Machine.finalize_h, h.buffered ha, h.bcnt ha, h.bitlen ha, h.h ha]

/-- A Finalized Context buffers nothing, so its stale bytes are all of BUF. -/
theorem Slot.SameContext.finalized (h : a.SameContext b) (ha : a.alloc = true) :
    Slot.SameContext { finalize a with st := .finalized } { finalize b with st := .finalized } := by
  refine ⟨?_, fun _ => rfl, fun _ => h.finalize_h ha, fun _ => (finalize_bcnt a).trans (finalize_bcnt b).symm, fun _ => ?_,
    fun _ => ?_⟩
  · exact (finalize_alloc a).trans (h.alloc.trans (finalize_alloc b).symm)
  · exact (finalize_bitlen a).trans ((h.bitlen ha).trans (finalize_bitlen b).symm)
  · show (finalize a).buf.toList.take (finalize a).bcnt.toNat = (finalize b).buf.toList.take (finalize b).bcnt.toNat
    simp

end

section
variable {s t s' t' : State}

/-! What each update of the state keeps of it. -/

theorem State.SameToHost.setHostOps (h : s.SameToHost t) (ops : List HostOp) :
    State.SameToHost { s with hostOps := ops } { t with hostOps := ops } := { h with hostOps := rfl }

theorem State.SameToHost.setMem (h : s.SameToHost t) (m : Memory) :
    State.SameToHost { s with mem := m } { t with mem := m } := { h with mem := rfl }

theorem State.SameToHost.setSlot (h : s.SameToHost t) {a b : Slot} (hab : a.SameContext b) (c : Nat) :
    (s.setSlot c a).SameToHost (t.setSlot c b) := { h with slots := forall₂_set h.slots hab c }

theorem State.SameToHost.releaseSlot (h : s.SameToHost t) (c : Nat) : (s.releaseSlot c).SameToHost (t.releaseSlot c) :=
  { h with slots := forall₂_set h.slots (.of_free (unspecifiedSlot_alloc _) (unspecifiedSlot_alloc _)) c }

theorem State.SameToHost.finish (h : s.SameToHost t) (code : StatusCode) (handle : BitVec 8) :
    (s.finish code handle).SameToHost (t.finish code handle) :=
  { h with status := by rw [finish_status, finish_status, h.status] }

theorem State.SameToHost.raiseFault (h : s.SameToHost t) (cause : FaultCause) :
    (s.raiseFault cause).SameToHost (t.raiseFault cause) :=
  { h with status := by rw [raiseFault_status, raiseFault_status, h.status] }

theorem State.SameToHost.resetBlock (h : s.SameToHost t) : (resetBlock s).SameToHost (resetBlock t) :=
  { h with
    status := rfl, srcAddr := rfl, srcLen := rfl, dstAddr := rfl
    slots := List.forall₂_map_left_iff.2 <| List.forall₂_map_right_iff.2 <| h.slots.imp fun _ _ _ => .refl _ }

/-! What the host can read of it. -/

theorem State.SameToHost.context (h : s.SameToHost t) (c : Nat) : (s.context c = none ∧ t.context c = none) ∨
    ∃ a b, s.context c = some a ∧ t.context c = some b ∧ a.SameContext b := by
  rcases forall₂_getElem? h.slots c with ⟨hs, ht⟩ | ⟨a, b, hs, ht, hab⟩
  · exact .inl ⟨by simp [State.context, hs], by simp [State.context, ht]⟩
  · cases ha : a.alloc with
    | true => exact .inr ⟨a, b, context_eq_some.2 ⟨hs, ha⟩, context_eq_some.2 ⟨ht, hab.alloc ▸ ha⟩, hab⟩
    | false =>
      exact .inl ⟨context_eq_none.2 (.inr ⟨a, hs, ha⟩), context_eq_none.2 (.inr ⟨b, ht, hab.alloc ▸ ha⟩)⟩

theorem State.SameToHost.context_some (h : s.SameToHost t) {c : Nat} {a b : Slot} (ha : s.context c = some a)
    (hb : t.context c = some b) : a.SameContext b := by
  rcases h.context c with ⟨hs, -⟩ | ⟨a', b', hs, ht, hab⟩
  · simp [ha] at hs
  · rwa [Option.some.inj (ha.symm.trans hs), Option.some.inj (hb.symm.trans ht)]

/-- The least free slot is read off the ALLOC bits, which agree. -/
theorem State.SameToHost.leastFree (h : s.SameToHost t) : s.leastFree = t.leastFree := by
  have halloc : s.slots.map Slot.alloc = t.slots.map Slot.alloc := by
    rw [← List.forall₂_eq_eq_eq, List.forall₂_map_left_iff, List.forall₂_map_right_iff]
    exact h.slots.imp fun _ _ hab => hab.alloc
  have hbits : ∀ u : State, u.leastFree = (u.slots.map Slot.alloc).findIdx? (!·) := fun u => by
    rw [List.findIdx?_map]; rfl
  rw [hbits, hbits, halloc]

theorem State.SameToHost.sameChecks (h : s.SameToHost t) : SameChecks s t where
  status := h.status
  srcAddr := h.srcAddr
  srcLen := h.srcLen
  dstAddr := h.dstAddr
  cfg := h.cfg
  leastFree := h.leastFree
  context c := (h.context c).imp_right fun ⟨a, b, ha, hb, hab⟩ =>
    ⟨a, b, ha, hb, hab.st (context_eq_some.1 ha).2, hab.bitlen (context_eq_some.1 ha).2⟩

theorem State.SameToHost.bytesAt_source (h : s.SameToHost t) :
    bytesAt s.mem s.src s.len = bytesAt t.mem t.src t.len := by
  rw [h.mem, h.sameChecks.src, h.sameChecks.len]

/-- A store of the same bytes at DST_ADDR. -/
theorem State.SameToHost.storeAtDst (h : s.SameToHost t) {xs ys : List Byte} (hxs : xs = ys) :
    State.SameToHost { s with mem := Memory.writeAll s.dst xs s.mem } { t with mem := Memory.writeAll t.dst ys t.mem } := by
  rw [h.sameChecks.dst, h.mem, hxs]
  exact h.setMem _

/-! ### No step tells them apart -/

/-- A successful command leaves them alike. -/
theorem Succeeded.sameToHost {i : Instr} (hs : Succeeded s s' i) (ht : Succeeded t t' i) (h : s.SameToHost t) :
    s'.SameToHost t' := by
  cases i with
  | init =>
    obtain ⟨c, hl, rfl⟩ := hs
    obtain ⟨c', hl', rfl⟩ := ht
    obtain rfl := Option.some.inj (hl.symm.trans (h.leastFree.trans hl'))
    exact (h.setSlot (.refl _) c).finish _ _
  | update c =>
    obtain ⟨a, ha, -, rfl⟩ := hs
    obtain ⟨b, hb, -, rfl⟩ := ht
    exact (h.setSlot ((h.context_some ha hb).updatedSlot (context_eq_some.1 ha).2 h.bytesAt_source h.sameChecks.len) c).finish _ _
  | final c =>
    obtain ⟨a, ha, -, rfl⟩ := hs
    obtain ⟨b, hb, -, rfl⟩ := ht
    have hab := h.context_some ha hb
    have halloc := (context_eq_some.1 ha).2
    have hdigest := congrArg serialize (hab.finalize_h halloc)
    exact ((h.storeAtDst hdigest).setSlot (hab.finalized halloc) c).finish _ _
  | free c =>
    obtain ⟨_, -, rfl⟩ := hs
    obtain ⟨_, -, rfl⟩ := ht
    exact (h.releaseSlot c).finish _ _
  | hash =>
    obtain ⟨c, hl, rfl⟩ := hs
    obtain ⟨c', hl', rfl⟩ := ht
    obtain rfl := Option.some.inj (hl.symm.trans (h.leastFree.trans hl'))
    have hdigest := congrArg (fun xs => serialize (hashedContext xs).h) h.bytesAt_source
    exact ((h.storeAtDst hdigest).releaseSlot c).finish _ _

theorem exec_sameOutcome (h : s.SameToHost t) (i : Instr) : SameOutcome (exec i s) (exec i t) := by
  cases exec_endsAlike h.sameChecks i with
  | finish code hs ht => rw [hs, ht]; exact .next (h.finish code 0)
  | raiseFault cause hs ht => rw [hs, ht]; exact .next (h.raiseFault cause)
  | stuck f hs ht => rw [hs, ht]; exact .fault f
  | success s' t' hs ht hs' ht' => rw [hs, ht]; exact .next (hs'.sameToHost ht' h)

theorem execute_sameOutcome (h : s.SameToHost t) (w : Word) : SameOutcome (execute w s) (execute w t) := by
  cases hd : decode w with
  | ok i => rw [execute_of_ok hd, execute_of_ok hd]; exact exec_sameOutcome h i
  | error e =>
    rw [execute_of_error hd, execute_of_error hd, execIllegal, execIllegal]
    cases hf : s.faulted with
    | true =>
      rw [unlessFaulted_of_faulted hf, unlessFaulted_of_faulted (h.sameChecks.faulted ▸ hf)]
      exact .next (h.finish .fault 0)
    | false =>
      rw [unlessFaulted_of_not hf, unlessFaulted_of_not (h.sameChecks.faulted ▸ hf)]
      exact .next (h.finish .illegalCommand 0)

theorem hostRegWrite_sameOutcome (h : s.SameToHost t) (addr width : Nat) (v : DWord) :
    SameOutcome (hostRegWrite addr width v s) (hostRegWrite addr width v t) := by
  have hreg : windowReg t.cfg addr width = windowReg s.cfg addr width := by rw [h.cfg]
  rw [hostRegWrite, hostRegWrite, hreg]
  cases windowReg s.cfg addr width with
  | none => exact .fault _
  | some r =>
    cases r with
    | cmd => exact execute_sameOutcome h _
    | status => exact .next h
    | srcAddr => exact .next { h with srcAddr := rfl }
    | srcLen => exact .next { h with srcLen := rfl }
    | dstAddr => exact .next { h with dstAddr := rfl }

theorem State.SameToHost.windowValue (h : s.SameToHost t) (r : WindowReg) : windowValue s r = windowValue t r := by
  cases r with
  | cmd => rfl
  | status => exact congrArg (·.setWidth 64) h.status
  | srcAddr => exact h.srcAddr
  | srcLen => exact h.srcLen
  | dstAddr => exact h.dstAddr

theorem hostRegRead_sameOutcome (h : s.SameToHost t) (addr width : Nat) :
    SameOutcome (hostRegRead addr width s) (hostRegRead addr width t) := by
  have hreg : windowReg t.cfg addr width = windowReg s.cfg addr width := by rw [h.cfg]
  rw [hostRegRead, hostRegRead, hreg]
  cases windowReg s.cfg addr width with
  | none => exact .fault _
  | some r => exact .next { h with readData := congrArg some (h.windowValue r) }

theorem hostMemWrite_sameOutcome (h : s.SameToHost t) (a : Nat) (v : Byte) :
    SameOutcome (hostMemWrite a v s) (hostMemWrite a v t) := by
  have hcheck : checkAddress t.cfg a = checkAddress s.cfg a := by rw [h.cfg]
  rw [hostMemWrite, hostMemWrite, memWrite, memWrite, hcheck]
  cases checkAddress s.cfg a with
  | error f => exact .fault f
  | ok u => exact .next { h with mem := congrArg (Memory.write · a v) h.mem }

theorem hostStep_sameOutcome (h : s.SameToHost t) (op : HostOp) : SameOutcome (hostStep op s) (hostStep op t) := by
  cases op with
  | regWrite addr width v => exact hostRegWrite_sameOutcome h addr width v
  | regRead addr width => exact hostRegRead_sameOutcome h addr width
  | memWrite a v => exact hostMemWrite_sameOutcome h a v
  | reset => exact .next h.resetBlock

end

/-- Settles O28: the two states take the same action, which leaves them alike. -/
theorem unspecifiedFieldsAreUnobservable : Obligations.UnspecifiedFieldsAreUnobservable := by
  unfold Obligations.UnspecifiedFieldsAreUnobservable
  intro s t h
  cases hs : s.hostOps with
  | nil => rw [step_idle hs, step_idle (h.hostOps ▸ hs)]; exact .next h
  | cons op rest =>
    rw [step_cons hs, step_cons (h.hostOps ▸ hs)]
    exact hostStep_sameOutcome (h.setHostOps rest) op

end Sys2Proof.Machine
end

section
/-! PROOF. Every step keeps the invariant of the machine (10_state.md R38 to R40; 60_exceptions.md R201, R203): STATUS, host memory
and the slots each by themselves. -/

namespace Sys2Proof.Machine

section
variable {i : Instr} {s t : State}

/-! ### STATUS -/

/-- Ending by `finish` keeps STATUS legal, where CODE is 5 exactly in the faulted condition. -/
theorem StatusLegal.of_endedWith {code : BitVec 4} {handle : BitVec 8} (h : StatusLegal s.status)
    (hend : EndedWith s t code handle) (hcode : code.toNat ≤ 5) (hfault : faultedField s.status = 1 ↔ code = 5)
    (hhandle : handle ≠ 0 → code = 0) : StatusLegal t.status where
  reservedLow := hend.reservedLow
  reservedHigh := hend.reservedHigh
  code := by rwa [hend.code]
  fcause := by rw [hend.fcause]; exact h.fcause
  causeIff := by rw [hend.faulted, hend.fcause]; exact h.causeIff
  faultIff := by rwa [hend.faulted, hend.code]
  handleOk := by rwa [hend.handle, hend.code]

/-- Raising a fault makes a legal STATUS of any, with a cause of R203. -/
theorem StatusLegal.of_raisedFault {cause : FaultCause} (hraised : RaisedFault s t (causeBits cause)) : StatusLegal t.status where
  reservedLow := hraised.reservedLow
  reservedHigh := hraised.reservedHigh
  code := by rw [hraised.code]; decide
  fcause := by rw [hraised.fcause]; cases cause <;> decide
  causeIff := by rw [hraised.faulted, hraised.fcause]; cases cause <;> decide
  faultIff := by rw [hraised.faulted, hraised.code]; decide
  handleOk := fun hne => absurd hraised.handle hne

theorem toNat_codeBits_le (code : StatusCode) : (codeBits code).toNat ≤ 5 := by
  cases code <;> decide

/-- A command's STATUS is legal. -/
theorem exec_keeps_statusLegal (h : StatusLegal s.status) (he : exec i s = .next t) : StatusLegal t.status := by
  cases hf : s.faulted with
  | true =>
    rw [exec_of_faulted i hf] at he; cases he
    exact h.of_endedWith (endedWith_finish rfl .fault 0) (by decide) (by simp [faulted_eq_true.1 hf, codeBits]) nofun
  | false =>
    have hf₀ := faulted_eq_false.1 hf
    rcases exec_ends he with ⟨code, rfl, hcode⟩ | ⟨-, cause, rfl⟩ | hsucc
    · have hne : codeBits code ≠ 5 := fun h5 =>
        absurd (hf₀.symm.trans (hcode (eq_fault_of_codeBits h5))) (by decide)
      exact h.of_endedWith (endedWith_finish rfl code 0) (toNat_codeBits_le code) (by simpa [hf₀] using hne)
        fun h0 => absurd rfl h0
    · have hraised := raisedFault_raiseFault s cause
      rw [if_pos hf₀] at hraised
      exact .of_raisedFault hraised
    · obtain ⟨handle, hend, -⟩ := hsucc.endedWith
      exact h.of_endedWith hend (by decide) (by simp [hf₀]) fun _ => rfl

/-- An illegal word's STATUS is legal. -/
theorem execIllegal_keeps_statusLegal (h : StatusLegal s.status) (he : execIllegal s = .next t) : StatusLegal t.status := by
  rcases execIllegal_cases s with ⟨hf, hu⟩ | ⟨hf, hu⟩ <;> rw [hu] at he <;> cases he
  · exact h.of_endedWith (endedWith_finish rfl .fault 0) (by decide) (by simp [faulted_eq_true.1 hf, codeBits]) nofun
  · exact h.of_endedWith (endedWith_finish rfl .illegalCommand 0) (by decide) (by simp [faulted_eq_false.1 hf, codeBits]) nofun

/-- HANDLE names a slot: that of INIT, or slot 0. -/
theorem exec_handle_lt (hpos : 1 ≤ s.numCtx) (hmax : s.numCtx ≤ 256) (he : exec i s = .next t) :
    (handleField t.status).toNat < s.numCtx := by
  obtain ⟨-, -, hinit, hother, -⟩ := finishRewritesWholeStatus.2 i s t he
  by_cases hi : i = .init ∧ codeField t.status = 0
  · obtain ⟨h, hh, hhandle⟩ := hinit hi.1 hi.2
    have hlt : h < s.numCtx := leastFree_lt_length (leastFree_eq_some.2 hh)
    rwa [hhandle, BitVec.toNat_ofNat, Nat.mod_eq_of_lt (by omega)]
  · rw [hother hi]
    exact hpos

/-! ### Host memory -/

/-- A store lists no address but its own. -/
theorem Memory.mem_write {m : Memory} {a : Nat} {v : Byte} {cell : Host.Cell} (h : cell ∈ Memory.write m a v) :
    cell ∈ m ∨ cell.1 = a := by
  induction m with
  | nil =>
    rw [Memory.write] at h
    split at h
    · exact .inl h
    · exact .inr (by rw [List.mem_singleton.1 h])
  | cons kv m ih =>
    obtain ⟨k, x⟩ := kv
    rw [Memory.write] at h
    split_ifs at h
    · exact .inl h
    · rcases List.mem_cons.1 h with rfl | h
      · exact .inr rfl
      · exact .inl h
    · exact .inl (List.mem_cons_of_mem _ h)
    · rcases List.mem_cons.1 h with rfl | h
      · exact .inr rfl
      · exact .inl (List.mem_cons_of_mem _ h)
    · rcases List.mem_cons.1 h with rfl | h
      · exact .inl List.mem_cons_self
      · exact (ih h).imp_left (List.mem_cons_of_mem _)

theorem Memory.mem_writeAll {m : Memory} {a : Nat} {bytes : List Byte} {cell : Host.Cell}
    (h : cell ∈ Memory.writeAll a bytes m) : cell ∈ m ∨ ∃ j, j < bytes.length ∧ cell.1 = a + j := by
  induction bytes generalizing a m with
  | nil => rw [Memory.writeAll_nil] at h; exact .inl h
  | cons x xs ih =>
    rw [Memory.writeAll_cons] at h
    rcases ih h with h | ⟨j, hj, heq⟩
    · exact (Memory.mem_write h).imp_right fun heq => ⟨0, by simp, heq⟩
    · exact .inr ⟨j + 1, by simpa using hj, by omega⟩

/-- All that a command can do to host memory: nothing, or a store at DST_ADDR where every byte answers. -/
theorem exec_mem (he : exec i s = .next t) : t.mem = s.mem ∨
    ∃ bytes, t.mem = Memory.writeAll s.dst bytes s.mem ∧ allAdmitted s.cfg s.dst bytes.length := by
  by_cases hok : codeField t.status = 0
  · have hpassed := checksPassed_of_ok he hok
    have hsucc := succeeded_of_ok he hok
    cases i with
    | init => obtain ⟨_, -, rfl⟩ := hsucc; exact .inl rfl
    | update c => obtain ⟨_, -, -, rfl⟩ := hsucc; exact .inl rfl
    | final c =>
      obtain ⟨sl, -, -, rfl⟩ := hsucc
      exact .inr ⟨_, finalState_mem c s sl, by simpa using hpassed.2⟩
    | free c => obtain ⟨_, -, rfl⟩ := hsucc; exact .inl rfl
    | hash =>
      obtain ⟨h, -, rfl⟩ := hsucc
      obtain ⟨-, -, -, -, hadm⟩ := hpassed
      exact .inr ⟨_, hashState_mem h s, by simpa using hadm⟩
  · exact .inl (congrArg (·.mem) (onlyStatusChanged_of_not_ok he hok))

theorem exec_keeps_memory (hwf : Memory.wf s.mem = true) (hin : ∀ cell ∈ s.mem, cell.1 < s.cfg.memSize)
    (he : exec i s = .next t) : Memory.wf t.mem = true ∧ ∀ cell ∈ t.mem, cell.1 < s.cfg.memSize := by
  rcases exec_mem he with hmem | ⟨bytes, hmem, hadm⟩
  · rw [hmem]; exact ⟨hwf, hin⟩
  · rw [hmem]
    refine ⟨Memory.wf_writeAll hwf, fun cell hcell => ?_⟩
    rcases Memory.mem_writeAll hcell with hcell | ⟨j, hj, heq⟩
    · exact hin cell hcell
    · rw [heq]; exact (hadm j hj).1

/-! ### Slots -/

theorem slotLegal_freshContext : SlotLegal (freshContext true) := by
  constructor <;> simp

/-- UPDATE moves BITLEN and BCNT together. -/
theorem SlotLegal.updatedSlot {sl : Slot} (h : SlotLegal sl) (ha : sl.alloc = true) (hst : sl.st ≠ .finalized)
    (ho : ¬ TotalOverflows s sl.bitlen.toNat) : SlotLegal (updatedSlot s sl) where
  counts _ _ := by
    obtain ⟨hbits, hbytes⟩ := h.counts ha hst
    rw [toNat_updatedSlot_bitlen ho, (updatedSlot_absorbed s sl).bcnt, length_bytesAt]
    omega
  fresh _ hfresh := by simp at hfresh
  finalized _ hfin := by simp at hfin

/-- FINALIZE empties the buffer. -/
theorem slotLegal_finalized (sl : Slot) : SlotLegal { finalize sl with st := .finalized } where
  counts _ hst := absurd rfl hst
  fresh _ hst := nomatch hst
  finalized _ _ := finalize_bcnt sl

theorem SlotChange.legal {c : Nat} {old new : Slot} (hchange : SlotChange s c old new i) (h : SlotLegal old) : SlotLegal new := by
  cases i with
  | init => obtain ⟨-, rfl⟩ := hchange; exact slotLegal_freshContext
  | update d => obtain ⟨-, ha, hst, ho, rfl⟩ := hchange; exact h.updatedSlot ha hst ho
  | final d => obtain ⟨-, -, -, rfl⟩ := hchange; exact slotLegal_finalized old
  | free d => obtain ⟨-, -, rfl⟩ := hchange; exact .of_free (unspecifiedSlot_alloc _)
  | hash => obtain ⟨-, rfl⟩ := hchange; exact .of_free (unspecifiedSlot_alloc _)

theorem exec_keeps_slotLegal (h : ∀ sl ∈ s.slots, SlotLegal sl) (he : exec i s = .next t) : ∀ sl ∈ t.slots, SlotLegal sl := by
  rcases exec_slots he with ⟨-, hslots⟩ | ⟨-, c, old, new, hold, hslots, hchange⟩
  · rwa [hslots]
  · intro sl hsl
    rw [hslots] at hsl
    rcases List.mem_or_eq_of_mem_set hsl with hsl | rfl
    · exact h sl hsl
    · exact hchange.legal (h old (List.mem_of_getElem? hold))

/-! ### The whole state -/

theorem exec_keeps_inv (h : s.Inv) (he : exec i s = .next t) : t.Inv := by
  obtain ⟨-, -, -, hcfg, -, -, hlen⟩ := exec_keeps he
  have hnum : t.numCtx = s.numCtx := hlen
  obtain ⟨hwf, hin⟩ := exec_keeps_memory h.memory h.inMemory he
  exact {
    config := hcfg ▸ h.config
    someSlot := hnum ▸ h.someSlot
    atMost256 := hnum ▸ h.atMost256
    status := exec_keeps_statusLegal h.status he
    handle := hnum ▸ exec_handle_lt h.someSlot h.atMost256 he
    memory := hwf
    inMemory := hcfg ▸ hin
    slots := exec_keeps_slotLegal h.slots he }

theorem execute_keeps_inv {w : Word} (h : s.Inv) (he : execute w s = .next t) : t.Inv := by
  cases hd : decode w with
  | ok i => rw [execute_of_ok hd] at he; exact exec_keeps_inv h he
  | error e =>
    rw [execute_of_error hd] at he
    have hlegal := execIllegal_keeps_statusLegal h.status he
    rcases execIllegal_cases s with ⟨-, hu⟩ | ⟨-, hu⟩ <;> rw [hu] at he <;> cases he <;>
      exact { h with status := hlegal, handle := by rw [finish_status, handleField_statusWord]; exact h.someSlot }

/-- The reset event leaves what the invariant asks of a reset state (R231). -/
theorem resetBlock_keeps_inv (h : s.Inv) : (resetBlock s).Inv := by
  have hnum : (resetBlock s).numCtx = s.numCtx := by simp [State.numCtx]
  exact {
    config := h.config
    someSlot := hnum ▸ h.someSlot
    atMost256 := hnum ▸ h.atMost256
    status := statusLegal_zero
    handle := hnum ▸ h.someSlot.trans_lt' (show (handleField 0).toNat < 1 by decide)
    memory := h.memory
    inMemory := h.inMemory
    slots := fun sl hsl => by obtain ⟨_, -, rfl⟩ := List.mem_map.1 hsl; exact .of_free rfl }

theorem step_keeps_inv (h : s.Inv) (hstep : step s = .next t) : t.Inv := by
  rcases step_cases hstep with ⟨-, rfl⟩ | ⟨op, rest, -, ⟨v, -, he⟩ | ⟨v, -, rfl⟩ | ⟨v, -, rfl⟩ | ⟨v, -, rfl⟩ |
    ⟨v, -, rfl⟩ | ⟨a, w, v, -, rfl⟩ | ⟨a, v, -, hlt, rfl⟩ | ⟨-, rfl⟩⟩
  · exact h
  · exact execute_keeps_inv (s := { s with hostOps := rest }) { h with } he
  · exact { h with }
  · exact { h with }
  · exact { h with }
  · exact { h with }
  · exact { h with }
  · refine { h with memory := Memory.wf_write h.memory a v, inMemory := fun cell hcell => ?_ }
    rcases Memory.mem_write hcell with hcell | heq
    · exact h.inMemory cell hcell
    · rw [heq]; exact hlt
  · exact resetBlock_keeps_inv (s := { s with hostOps := rest }) { h with }

end

/-- Settles O29: each action of the outside world keeps each part of the invariant. -/
theorem everyStepKeepsTheInvariant : Obligations.EveryStepKeepsTheInvariant := by
  unfold Obligations.EveryStepKeepsTheInvariant
  exact fun s t h hstep => step_keeps_inv h hstep

end Sys2Proof.Machine
end
